-- ==== Sys2Proof/Word.lean ====
section
/-! DEFINITION. The word types of the block: a sample is a byte (R60), a register is 32 bits (R9). -/

namespace Sys2Proof

/-- One sample or one byte of pixel memory (R60). -/
abbrev Byte := BitVec 8

/-- One register of the register space (R22). -/
abbrev Word := BitVec 32

end Sys2Proof
end

