-- ==== Sys2Proof/Syntax.lean ====
section
/-! DEFINITION. The 39 instructions of spec/opcode_table.json: the 14 commands of R83, the 21 kernel selectors of R88
and the 4 run headers of R89. -/

namespace Sys2Proof

/-- The channel-count family `FAM` of a kernel selector (R87). -/
inductive Fam where
  | c1
  | c3
  | c4
  | gen
deriving DecidableEq, Repr

/-- One constructor per row of the opcode table. Commands carry no operand (R97). A kernel selector carries `FAM`
(R84). A run header carries its raw length or multiplier field and its end-of-line flag (R89). -/
inductive Instr where
  | nop
  | expand
  | combine
  | blend
  | combine2
  | getSolidPainter
  | getSpanPainter
  | getSpanMaskPainter
  | getSpanColorPainter
  | runKernel
  | paintOver
  | paintOverClipped
  | paintOverMask
  | paintGlyph
  | kSolidAlpha (fam : Fam)
  | kSolidOverwrite (fam : Fam)
  | kSolidDa (fam : Fam)
  | kOverGeneral (fam : Fam)
  | kOverGeneralDa (fam : Fam)
  | kOverGeneralSa (fam : Fam)
  | kOverGeneralDaSa (fam : Fam)
  | kOverOpaque (fam : Fam)
  | kOverOpaqueDa (fam : Fam)
  | kOverOpaqueSa (fam : Fam)
  | kOverOpaqueDaSa (fam : Fam)
  | kOverSkip (fam : Fam)
  | kOverSkipDa (fam : Fam)
  | kOverSkipSa (fam : Fam)
  | kOverSkipDaSa (fam : Fam)
  | kMask (fam : Fam)
  | kMaskDa (fam : Fam)
  | kMaskSa (fam : Fam)
  | kMaskDaSa (fam : Fam)
  | kColor (fam : Fam)
  | kColorDa (fam : Fam)
  | runExtend (m : Nat)
  | runTransparent (f : Nat)
  | runSolid (f : Nat) (eol : Bool)
  | runIntermediate (f : Nat) (eol : Bool)
deriving DecidableEq, Repr

end Sys2Proof
end

