-- ==== Sys2Proof/WellFormed.lean ====
section
/-! DEFINITION. Which instruction terms have an encoding: the fields of a run header fit their bits (R89). Commands have
no field (R81), and `FAM` may be any of its four values (R88). -/

namespace Sys2Proof

/-- The multiplier of an Extend header fits `b[7:2]` (R90). -/
def wfExtend (m : Nat) : Bool := decide (m < 64)

/-- The length field of a Transparent header fits `b[7:2]` (R91). -/
def wfTransparent (f : Nat) : Bool := decide (f < 64)

/-- The length field of a Solid or Intermediate header fits `b[7:3]` (R92, R93). -/
def wfLong (f : Nat) : Bool := decide (f < 32)

/-- An instruction has an encoding. -/
def Instr.wf : Instr → Bool
  | .nop => true
  | .expand => true
  | .combine => true
  | .blend => true
  | .combine2 => true
  | .getSolidPainter => true
  | .getSpanPainter => true
  | .getSpanMaskPainter => true
  | .getSpanColorPainter => true
  | .runKernel => true
  | .paintOver => true
  | .paintOverClipped => true
  | .paintOverMask => true
  | .paintGlyph => true
  | .kSolidAlpha _ => true
  | .kSolidOverwrite _ => true
  | .kSolidDa _ => true
  | .kOverGeneral _ => true
  | .kOverGeneralDa _ => true
  | .kOverGeneralSa _ => true
  | .kOverGeneralDaSa _ => true
  | .kOverOpaque _ => true
  | .kOverOpaqueDa _ => true
  | .kOverOpaqueSa _ => true
  | .kOverOpaqueDaSa _ => true
  | .kOverSkip _ => true
  | .kOverSkipDa _ => true
  | .kOverSkipSa _ => true
  | .kOverSkipDaSa _ => true
  | .kMask _ => true
  | .kMaskDa _ => true
  | .kMaskSa _ => true
  | .kMaskDaSa _ => true
  | .kColor _ => true
  | .kColorDa _ => true
  | .runExtend m => wfExtend m
  | .runTransparent f => wfTransparent f
  | .runSolid f _ => wfLong f
  | .runIntermediate f _ => wfLong f

end Sys2Proof
end

