-- ==== Sys2Proof/Decode.lean ====
section
/-! DEFINITION. The three formats of 30_encoding.md: the 32-bit command word (R81, R83), the 10-bit kernel selector
(R84, R88) and the 8-bit run header (R89). Decoding is total and rejects by name. The encoder stands after it. -/

namespace Sys2Proof

/-- One code word, in the format of the place it is fetched from: the `CMD` register, the kernel selector of the running
span, or the run stream. -/
inductive CodeWord where
  | cmd (w : Word)
  | ksel (k : BitVec 10)
  | run (b : Byte)
deriving DecidableEq, Repr

/-- Why a word is no instruction. `reservedBits` and `unknownOpcode` are the two illegal commands of R82. `kindNone` is
the null kernel of R85 (with the reserved bit 7 clear), `notAKernel` every other value outside R88. -/
inductive DecodeError where
  | reservedBits
  | unknownOpcode
  | kindNone
  | notAKernel
deriving DecidableEq, Repr

/-- `FAM` values (R87). -/
def Fam.ofCode : Nat → Fam
  | 0 => .c1
  | 1 => .c3
  | 2 => .c4
  | _ => .gen

/-- `FAM` values (R87). -/
def Fam.code : Fam → Nat
  | .c1 => 0
  | .c3 => 1
  | .c4 => 2
  | .gen => 3

/-- The opcode map of R83. -/
def decodeOpcode : Nat → Option Instr
  | 0x00 => some .nop
  | 0x01 => some .expand
  | 0x02 => some .combine
  | 0x03 => some .blend
  | 0x04 => some .combine2
  | 0x10 => some .getSolidPainter
  | 0x11 => some .getSpanPainter
  | 0x12 => some .getSpanMaskPainter
  | 0x13 => some .getSpanColorPainter
  | 0x20 => some .runKernel
  | 0x30 => some .paintOver
  | 0x31 => some .paintOverClipped
  | 0x32 => some .paintOverMask
  | 0x40 => some .paintGlyph
  | _ => none

/-- The command format of R81: bits [31:8] must be 0 (R82). -/
def decodeCmd (w : Word) : Except DecodeError Instr :=
  if w.extractLsb' 8 24 ≠ 0 then .error .reservedBits
  else match decodeOpcode (w.extractLsb' 0 8).toNat with
    | some i => .ok i
    | none => .error .unknownOpcode

/-- The 21 rows of R88, by the value of bits [7:0]. -/
def decodeVariant (fam : Fam) : Nat → Option Instr
  | 0x01 => some (.kSolidAlpha fam)
  | 0x21 => some (.kSolidOverwrite fam)
  | 0x09 => some (.kSolidDa fam)
  | 0x02 => some (.kOverGeneral fam)
  | 0x0A => some (.kOverGeneralDa fam)
  | 0x12 => some (.kOverGeneralSa fam)
  | 0x1A => some (.kOverGeneralDaSa fam)
  | 0x22 => some (.kOverOpaque fam)
  | 0x2A => some (.kOverOpaqueDa fam)
  | 0x32 => some (.kOverOpaqueSa fam)
  | 0x3A => some (.kOverOpaqueDaSa fam)
  | 0x42 => some (.kOverSkip fam)
  | 0x4A => some (.kOverSkipDa fam)
  | 0x52 => some (.kOverSkipSa fam)
  | 0x5A => some (.kOverSkipDaSa fam)
  | 0x03 => some (.kMask fam)
  | 0x0B => some (.kMaskDa fam)
  | 0x13 => some (.kMaskSa fam)
  | 0x1B => some (.kMaskDaSa fam)
  | 0x04 => some (.kColor fam)
  | 0x0C => some (.kColorDa fam)
  | _ => none

/-- The selector format of R84. A value outside the rows of R88 is the null kernel where `KIND` is 0 and bit 7 is clear
(R85, R124), and no kernel at all otherwise: the reserved bit 7 makes any value malformed (R84, R88, U16; log 22). -/
def decodeKsel (k : BitVec 10) : Except DecodeError Instr :=
  match decodeVariant (Fam.ofCode (k.extractLsb' 8 2).toNat) (k.extractLsb' 0 8).toNat with
  | some i => .ok i
  | none => if k.extractLsb' 0 3 = 0 ∧ k.getLsbD 7 = false then .error .kindNone else .error .notAKernel

/-- The run header of R89. Every byte is a header (R94). -/
def decodeRun (b : Byte) : Instr :=
  match (b.extractLsb' 0 2).toNat with
  | 0 => .runExtend (b.extractLsb' 2 6).toNat
  | 1 => .runTransparent (b.extractLsb' 2 6).toNat
  | 2 => .runSolid (b.extractLsb' 3 5).toNat (b.getLsbD 2)
  | _ => .runIntermediate (b.extractLsb' 3 5).toNat (b.getLsbD 2)

/-- The decoder: a code word of any of the three formats. -/
def decode : CodeWord → Except DecodeError Instr
  | .cmd w => decodeCmd w
  | .ksel k => decodeKsel k
  | .run b => .ok (decodeRun b)

/-- A selector of R84 from bits [7:0] of its row in R88 and its family. -/
def encodeVariant (row : Nat) (fam : Fam) : CodeWord := .ksel (BitVec.ofNat 10 (row + 0x100 * fam.code))

/-- A header byte: `(f << 2) | tag` or `(f << 3) | (eol << 2) | tag` (R99). -/
def encodeHeader (fields tag : Nat) : CodeWord := .run (BitVec.ofNat 8 (4 * fields + tag))

/-- The encoder: the word of a well-formed instruction, from the tables of R83, R88 and R89. -/
def encode : Instr → CodeWord
  | .nop => .cmd 0x00#32
  | .expand => .cmd 0x01#32
  | .combine => .cmd 0x02#32
  | .blend => .cmd 0x03#32
  | .combine2 => .cmd 0x04#32
  | .getSolidPainter => .cmd 0x10#32
  | .getSpanPainter => .cmd 0x11#32
  | .getSpanMaskPainter => .cmd 0x12#32
  | .getSpanColorPainter => .cmd 0x13#32
  | .runKernel => .cmd 0x20#32
  | .paintOver => .cmd 0x30#32
  | .paintOverClipped => .cmd 0x31#32
  | .paintOverMask => .cmd 0x32#32
  | .paintGlyph => .cmd 0x40#32
  | .kSolidAlpha fam => encodeVariant 0x01 fam
  | .kSolidOverwrite fam => encodeVariant 0x21 fam
  | .kSolidDa fam => encodeVariant 0x09 fam
  | .kOverGeneral fam => encodeVariant 0x02 fam
  | .kOverGeneralDa fam => encodeVariant 0x0A fam
  | .kOverGeneralSa fam => encodeVariant 0x12 fam
  | .kOverGeneralDaSa fam => encodeVariant 0x1A fam
  | .kOverOpaque fam => encodeVariant 0x22 fam
  | .kOverOpaqueDa fam => encodeVariant 0x2A fam
  | .kOverOpaqueSa fam => encodeVariant 0x32 fam
  | .kOverOpaqueDaSa fam => encodeVariant 0x3A fam
  | .kOverSkip fam => encodeVariant 0x42 fam
  | .kOverSkipDa fam => encodeVariant 0x4A fam
  | .kOverSkipSa fam => encodeVariant 0x52 fam
  | .kOverSkipDaSa fam => encodeVariant 0x5A fam
  | .kMask fam => encodeVariant 0x03 fam
  | .kMaskDa fam => encodeVariant 0x0B fam
  | .kMaskSa fam => encodeVariant 0x13 fam
  | .kMaskDaSa fam => encodeVariant 0x1B fam
  | .kColor fam => encodeVariant 0x04 fam
  | .kColorDa fam => encodeVariant 0x0C fam
  | .runExtend m => encodeHeader m 0
  | .runTransparent f => encodeHeader f 1
  | .runSolid f eol => encodeHeader (2 * f + eol.toNat) 2
  | .runIntermediate f eol => encodeHeader (2 * f + eol.toNat) 3

/-- The pseudo-items of R99, the notation for run streams: a length written in full. -/
inductive RunItem where
  | transparent (len : Nat)
  | solid (len : Nat) (eol : Bool)
  | intermediate (len : Nat) (eol : Bool) (coverage : List Byte)
deriving DecidableEq, Repr

/-- The optional Extend prefix of R99, omitted when its multiplier is 0. -/
def extendItems (m : Nat) : List Instr := if m = 0 then [] else [.runExtend m]

/-- The headers a pseudo-item of R99 expands to. -/
def RunItem.headers : RunItem → List Instr
  | .transparent len => extendItems ((len - 1) / 64) ++ [.runTransparent ((len - 1) % 64)]
  | .solid len eol => extendItems ((len - 1) / 32) ++ [.runSolid ((len - 1) % 32) eol]
  | .intermediate len eol _ => extendItems ((len - 1) / 32) ++ [.runIntermediate ((len - 1) % 32) eol]

/-- The byte of a run header; other code words are no stream bytes. -/
def CodeWord.streamBytes : CodeWord → List Byte
  | .cmd _ => []
  | .ksel _ => []
  | .run b => [b]

/-- The stream bytes of a pseudo-item of R99: its header bytes, then its coverage bytes. -/
def RunItem.bytes (it : RunItem) : List Byte :=
  it.headers.flatMap (fun i => (encode i).streamBytes) ++
    match it with
    | .transparent _ => []
    | .solid _ _ => []
    | .intermediate _ _ coverage => coverage

/-- The format of a table word (log 18): 32-bit rows are commands; a longer-than-a-byte shorter word is a selector; an
8-bit word is a selector where R88 lists it and a run header otherwise. The two 8-bit formats share numbers, and a table
word does not say where it is fetched from: DESIGN CHOICE. -/
def tableCodeWord (nbits w : Nat) : CodeWord :=
  if 32 ≤ nbits then .cmd (BitVec.ofNat 32 w)
  else if 8 < nbits then .ksel (BitVec.ofNat 10 w)
  else match decodeVariant .c1 w with
    | some _ => .ksel (BitVec.ofNat 10 w)
    | none => .run (BitVec.ofNat 8 w)

/-- The instruction the decoder reads from a row of the opcode table, its bits numbered as the table numbers them. -/
def decodeTableWord (nbits w : Nat) : Option Instr :=
  match decode (tableCodeWord nbits w) with
  | .ok i => some i
  | .error _ => none

end Sys2Proof
end

