-- ==== Sys2Proof/Config.lean ====
section
/-! DEFINITION. What an implementation fixes: the parameters of R8, with their defaults, and the free byte values.
The parameters are plain data, carried unchanged in `State.cfg` (log 1), so that a statement about every state is a
statement about every legal block. -/

namespace Sys2Proof

/-- `OVERFLOW_STORE` (R8, R121, D8): the byte stored for a computed sample above 255. -/
inductive OverflowStore where
  | wrap
  | any
deriving DecidableEq, Repr

/-- `EXTEND_CHAIN` (R8, R90, D20): what an Extend header does after another Extend. -/
inductive ExtendChain where
  | replace
  | add
deriving DecidableEq, Repr

/-- `NODA_FILL_POLICY` (R8, R173, D12): the solid fill chosen for a destination without alpha. -/
inductive NodaFillPolicy where
  | alphaBelow255
  | alwaysOverwrite
deriving DecidableEq, Repr

/-- `GLYPH_OFFSET_ENDIAN` (R8, R65, D19). -/
inductive Endian where
  | little
  | big
deriving DecidableEq, Repr

/-- The parameters of R8. `famC1` to `famGen` are the set `FAMILIES`. `backed` is `MEM_BACKED` as a list of half-open
address ranges: every set of addresses below 2^ADDR_W is such a list. -/
structure Params where
  famC1 : Bool
  famC3 : Bool
  famC4 : Bool
  famGen : Bool
  addrW : Nat
  maxChannels : Nat
  overflowStore : OverflowStore
  combine2Fused : Bool
  extendChain : ExtendChain
  nodaFillPolicy : NodaFillPolicy
  glyphOffsetEndian : Endian
  backed : List (Nat × Nat)
  regBase : Nat
deriving DecidableEq, Repr

/-- The legal values of R8: `ADDR_W` in 16..32 and `MAX_CHANNELS` in 1..63. -/
def Params.legal (p : Params) : Bool :=
  decide (16 ≤ p.addrW) && decide (p.addrW ≤ 32) && decide (1 ≤ p.maxChannels) && decide (p.maxChannels ≤ 63)

/-- The defaults of R8. DESIGN CHOICE (log 2) for the two parameters R8 leaves to the platform: `MEM_BACKED` is every
address, `REG_BASE` is 0. -/
def Params.default : Params where
  famC1 := true
  famC3 := true
  famC4 := true
  famGen := true
  addrW := 32
  maxChannels := 32
  overflowStore := .wrap
  combine2Fused := false
  extendChain := .replace
  nodaFillPolicy := .alphaBelow255
  glyphOffsetEndian := .little
  backed := [(0, 2 ^ 32)]
  regBase := 0

/-- FREE VALUE (log 9, log 15): the n-th free byte draw, for `store8` under `OVERFLOW_STORE = ANY` (R121, U1) and for
the bytes of an abandoned command (R282, U9). It has no body: nothing is known of its values. -/
opaque Config.freeByte : Nat → Byte

end Sys2Proof
end

