-- ==== Sys2Proof/Machine/State.lean ====
section
/-! DEFINITION. The state of the block as plain data: the registers of R23, the status of R27, the engine, sequencer and
run decoder of R42 to R44, pixel memory (R60) and the schedule of the outside world. -/

namespace Sys2Proof.Machine

open Sys2Proof

/-- Why the machine stops with a fault. -/
inductive Fault where
  /-- Raised by every access to pixel memory (by a command or by the host) at an address outside `MEM_BACKED`, which
  the spec leaves without behaviour (R69, U6); device memory counts as not backed (R68, U7). SAFE: the machine stops
  where hardware would do something unspecified. -/
  | unbackedAddress (addr : Nat)
deriving DecidableEq, Repr

/-- Why an instruction or an input has no meaning in the model. -/
inductive Refusal where
  /-- Raised by `exec` for an instruction without a meaning yet; no arm of this model does. SAFE. -/
  | notModelled (mnemonic : String)
  /-- Raised by a command's pixel-memory access when a byte it writes is also one it reads as source, mask, row table
  or stream (U3, R75, R231). SAFE: outside the spec's model. -/
  | bufferOverlap
  /-- Raised when the host and the running command access one byte and one of them writes it (R75). SAFE: outside the
  spec's model. -/
  | hostInterference
  /-- Raised by a `PAINT_OVER*` command whose descriptor makes rows of one buffer share bytes, and by a command's access
  to a destination byte it accessed in another row (U5, R201). SAFE: outside the spec's model. -/
  | rowsShareBytes
  /-- Raised by a `PAINT_OVER*` command that would run with a descriptor of `STRIDE < WIDTH * N` (U5, R35). SAFE:
  outside the spec's model. -/
  | strideTooSmall
  /-- Raised by a host access inside the register space at an offset that is no multiple of 4 (U8, R70). SAFE: the host
  interface has no such access. -/
  | misalignedRegisterAccess
  /-- Raised by `exec` of a kernel variant in a state with no running span; `step` never asks for that (log 17).
  SAFE. -/
  | noSpanRunning
  /-- Raised by `exec` of a run header in a state whose run decoder does not expect one; `step` never asks for that
  (log 17). SAFE. -/
  | noRunExpected
deriving DecidableEq, Repr

/-- Either way of stopping, for the operations over pixel memory. -/
inductive Stop where
  | fault (f : Fault)
  | refusal (r : Refusal)
deriving DecidableEq, Repr

/-- The fault codes of R250, without the code 0 of no fault. -/
inductive FaultCode where
  | unsupported
  | precondition
  | illegalCommand
  | illegalOperand
deriving DecidableEq, Repr

/-- Who accesses a byte of pixel memory while a command runs, and how (log 10). A destination access carries its row. -/
inductive AccessKind where
  | srcRead
  | dstRead (row : Int)
  | dstWrite (row : Int)
  | hostRead
  | hostWrite
deriving DecidableEq, Repr

/-- One access of the current command or of the host during it. -/
structure Access where
  addr : Nat
  kind : AccessKind
deriving DecidableEq, Repr

/-- Pixel memory (R60): its bytes in canonical form, the accesses of the current command (the model's own, log 10) and
the counter of free draws (the model's own, log 9). -/
structure Pixmem where
  cells : List Host.Cell
  log : List Access
  draws : Nat
deriving DecidableEq, Repr

/-- The fields of `STATUS` but `BUSY` (R27); `BUSY` is `State.busy`. -/
structure Status where
  done : Bool
  fault : Bool
  werr : Bool
  fcode : BitVec 4
deriving DecidableEq, Repr

/-- `ALU_A` to `ALU_D` and `ALU_R` (R30, R31). -/
structure AluRegs where
  a : Word
  b : Word
  c : Word
  d : Word
  r : Word
deriving DecidableEq, Repr

/-- The kernel operand registers `K_*` (R32). -/
structure KernRegs where
  dptr : Word
  sptr : Word
  mptr : Word
  w : Word
  n : BitVec 8
  flags : BitVec 2
  alpha : BitVec 8
deriving DecidableEq, Repr

/-- One pixmap descriptor (R33). -/
structure Desc where
  base : Word
  stride : Word
  x : Word
  y : Word
  width : Word
  height : Word
  fmt : BitVec 9
deriving DecidableEq, Repr

/-- The clip rectangle registers (R37). -/
structure ClipRegs where
  x0 : Word
  y0 : Word
  x1 : Word
  y1 : Word
deriving DecidableEq, Repr

/-- The glyph registers (R38). -/
structure GlyphRegs where
  rowtab : Word
  data : Word
  dptr : Word
  w : Word
  h : Word
  skipx : Word
  skipy : Word
deriving DecidableEq, Repr

/-- The stored registers of R23 but `STATUS`. `ID`, `CONFIG` and `CMD` store nothing. -/
structure Regs where
  ctrl : BitVec 2
  ksel : BitVec 10
  alu : AluRegs
  kern : KernRegs
  color : Vector Byte 64
  dst : Desc
  src : Desc
  msk : Desc
  clip : ClipRegs
  glyph : GlyphRegs
deriving DecidableEq, Repr

/-- A half-open integer box (R191). -/
structure Rect where
  x0 : Int
  x1 : Int
  y0 : Int
  y1 : Int
deriving DecidableEq, Repr

/-- The sequencer state `seq.*` of R43. `n`, the channel count of the running span (R120, R195), is the model's own
(log 16). Addresses are reduced modulo 2^ADDR_W. -/
structure Seq where
  k : BitVec 10
  n : Nat
  y : Int
  i : Nat
  dp : Nat
  sp : Nat
  mp : Nat
  w : Nat
  rect : Rect
deriving DecidableEq, Repr

/-- `rle.mode` (R44, R227). -/
inductive GlyphMode where
  | mask
  | solid
  | alpha
  | nop
deriving DecidableEq, Repr

/-- `rle.phase` (R44). -/
inductive Phase where
  | rowStart
  | skip
  | emit
  | rowEnd
deriving DecidableEq, Repr

/-- The kinds of a run that has a length (R89). -/
inductive RunTag where
  | transparent
  | solid
  | intermediate
deriving DecidableEq, Repr

/-- A run: the triple (`tag`, `len`, `eol`) of R44 and R213. -/
structure Run where
  tag : RunTag
  len : Nat
  eol : Bool
deriving DecidableEq, Repr

/-- The run decoder state `rle.*` of R44. -/
structure Rle where
  mode : GlyphMode
  r : Nat
  rowp : Nat
  dp : Nat
  p : Nat
  phase : Phase
  extend : Nat
  sx : Nat
  ww : Nat
  pend : Option Run
deriving DecidableEq, Repr

/-- What the running command is doing: its word is accepted and not yet executed; its sequencer runs spans; its run
decoder runs glyph rows. -/
inductive Activity where
  | start
  | spans (q : Seq)
  | glyph (g : Rle)
deriving DecidableEq, Repr

/-- The command engine while it runs (R42). `cmd` is the accepted command word; `eng.op` is its low 8 bits (log 7). -/
structure Engine where
  cmd : Word
  act : Activity
deriving DecidableEq, Repr

/-- One access of the host: to a register by its address in the host's map (R70), or to a byte of pixel memory (R47). -/
inductive HostOp where
  | write (addr : Nat) (v : Word)
  | read (addr : Nat)
  | memWrite (addr : Nat) (v : Byte)
  | memRead (addr : Nat)
deriving DecidableEq, Repr

/-- What the outside world does next (log 4): a host access, a reset with the host access it overrides, if any (R281),
or nothing while the block makes one step. -/
inductive Event where
  | host (op : HostOp)
  | reset (lost : Option HostOp)
  | run
deriving DecidableEq, Repr

/-- The machine. `cfg` holds the parameters of R8, `inputs` the schedule of the outside world and `hostData` what the
host's latest read returned; these three are the model's own (log 1, log 4, log 5). `eng` is `none` when the block is
idle (R42, R46). -/
structure State where
  cfg : Params
  regs : Regs
  status : Status
  eng : Option Engine
  px : Pixmem
  inputs : List Event
  hostData : Word
deriving DecidableEq, Repr

/-- A descriptor of zeros (R280). -/
def Desc.zero : Desc := ⟨0, 0, 0, 0, 0, 0, 0⟩

/-- Every register 0 (R280). -/
def Regs.zero : Regs where
  ctrl := 0
  ksel := 0
  alu := ⟨0, 0, 0, 0, 0⟩
  kern := ⟨0, 0, 0, 0, 0, 0, 0⟩
  color := Vector.replicate 64 0
  dst := Desc.zero
  src := Desc.zero
  msk := Desc.zero
  clip := ⟨0, 0, 0, 0⟩
  glyph := ⟨0, 0, 0, 0, 0, 0, 0⟩

/-- `STATUS` all 0 (R280). -/
def Status.zero : Status := ⟨false, false, false, 0⟩

/-- The block with parameters `p` right after reset (R280), pixel memory with nothing listed (log 3), and an outside
world that does nothing (log 4). -/
def State.resetWith (p : Params) : State where
  cfg := p
  regs := Regs.zero
  status := Status.zero
  eng := none
  px := ⟨[], [], 0⟩
  inputs := []
  hostData := 0

/-- The block with the default parameters right after reset (R280). -/
def State.reset : State := State.resetWith Params.default

end Sys2Proof.Machine
end

