-- ==== Sys2Proof/Machine/Ops.lean ====
section
/-! DEFINITION. The shared operations: address arithmetic (R64), pixel memory (R60, R61), loops in the canonical order
(R73), the start and the two ends of a command (R241, R243, R251), and the updates of one field of the state. -/

namespace Sys2Proof.Machine

open Sys2Proof

/-! ## Addresses -/

/-- A pixel-memory address from an exact expression: reduced modulo 2^ADDR_W (R64). -/
def addrOf (p : Params) (x : Int) : Nat := (x % (2 ^ p.addrW : Nat)).toNat

/-- `a +a k` for a non-negative `k` (R12, R64). -/
def addrPlus (p : Params) (a k : Nat) : Nat := (a + k) % 2 ^ p.addrW

/-- Whether an address is backed by memory (R69): below 2^ADDR_W and in `MEM_BACKED`. -/
def isBacked (p : Params) (a : Nat) : Bool :=
  decide (a < 2 ^ p.addrW) && p.backed.any (fun r => decide (r.1 ≤ a) && decide (a < r.2))

/-! ## The cells of pixel memory -/

/-- What a byte reads as that nothing has written. DESIGN CHOICE (log 3): 0. -/
def unlisted : Byte := 0

/-- The byte at an address (R60). -/
def cellAt : List Host.Cell → Nat → Byte
  | [], _ => unlisted
  | (a, b) :: rest, x => if a = x then b else cellAt rest x

/-- Puts a byte in front, unless it is what an unlisted address reads as. -/
def consCell (x : Nat) (v : Byte) (cs : List Host.Cell) : List Host.Cell :=
  if v = unlisted then cs else (x, v) :: cs

/-- Sets the byte at an address and no other (R61), keeping the canonical form. -/
def setCell : List Host.Cell → Nat → Byte → List Host.Cell
  | [], x, v => consCell x v []
  | (a, b) :: rest, x, v =>
    if x < a then consCell x v ((a, b) :: rest)
    else if x = a then consCell x v rest
    else (a, b) :: setCell rest x v

/-- The canonical form: addresses strictly rising, no entry equal to what an unlisted address reads as. -/
def cellsWf : List Host.Cell → Bool
  | [] => true
  | (a, b) :: rest => decide (b ≠ unlisted) && rest.all (fun c => decide (a < c.1)) && cellsWf rest

/-- The canonical form of pixel memory. -/
def Pixmem.wf (m : Pixmem) : Bool := cellsWf m.cells

/-- The byte of pixel memory at an address (R60). -/
def Pixmem.byte (m : Pixmem) (a : Nat) : Byte := cellAt m.cells a

/-! ## Accesses -/

/-- What two accesses to one byte rule out: a command's written byte among its source, mask or glyph bytes (U3), a host
access against the command (R75), one destination byte in two rows (U5). -/
def clash : AccessKind → AccessKind → Option Refusal
  | .srcRead, .dstWrite _ => some .bufferOverlap
  | .dstWrite _, .srcRead => some .bufferOverlap
  | .dstRead r, .dstWrite r' => if r = r' then none else some .rowsShareBytes
  | .dstWrite r, .dstRead r' => if r = r' then none else some .rowsShareBytes
  | .dstWrite r, .dstWrite r' => if r = r' then none else some .rowsShareBytes
  | .hostWrite, .srcRead => some .hostInterference
  | .hostWrite, .dstRead _ => some .hostInterference
  | .hostWrite, .dstWrite _ => some .hostInterference
  | .srcRead, .hostWrite => some .hostInterference
  | .dstRead _, .hostWrite => some .hostInterference
  | .dstWrite _, .hostWrite => some .hostInterference
  | .hostRead, .dstWrite _ => some .hostInterference
  | .dstWrite _, .hostRead => some .hostInterference
  | .srcRead, .srcRead => none
  | .srcRead, .dstRead _ => none
  | .srcRead, .hostRead => none
  | .dstRead _, .srcRead => none
  | .dstRead _, .dstRead _ => none
  | .dstRead _, .hostRead => none
  | .hostRead, .srcRead => none
  | .hostRead, .dstRead _ => none
  | .hostRead, .hostRead => none
  | .hostRead, .hostWrite => none
  | .hostWrite, .hostRead => none
  | .hostWrite, .hostWrite => none

/-- The first clash of an access with the accesses logged so far. -/
def Pixmem.clashAt (m : Pixmem) (k : AccessKind) (a : Nat) : Option Refusal :=
  m.log.findSome? (fun e => if e.addr = a then clash e.kind k else none)

/-- One access: it stops at an address outside `MEM_BACKED` (R69) and at a clash, and is logged otherwise. -/
def Pixmem.touch (p : Params) (k : AccessKind) (a : Nat) (m : Pixmem) : Except Stop Pixmem :=
  if isBacked p a then
    match m.clashAt k a with
    | some r => .error (.refusal r)
    | none => .ok { m with log := ⟨a, k⟩ :: m.log }
  else .error (.fault (.unbackedAddress a))

/-- `MemRead(a, 1)` (R60). -/
def Pixmem.read (p : Params) (k : AccessKind) (a : Nat) (m : Pixmem) : Except Stop (Byte × Pixmem) :=
  match m.touch p k a with
  | .ok m' => .ok (m.byte a, m')
  | .error e => .error e

/-- `MemWrite(a, 1, v)` (R61). -/
def Pixmem.write (p : Params) (k : AccessKind) (a : Nat) (v : Byte) (m : Pixmem) : Except Stop Pixmem :=
  match m.touch p k a with
  | .ok m' => .ok { m' with cells := setCell m'.cells a v }
  | .error e => .error e

/-- A free byte (log 9). -/
def Pixmem.drawByte (m : Pixmem) : Byte × Pixmem := (Config.freeByte m.draws, { m with draws := m.draws + 1 })

/-- Gives a byte a free value (U9, log 15). -/
def Pixmem.havocAt (m : Pixmem) (a : Nat) : Pixmem :=
  { m.drawByte.2 with cells := setCell m.cells a m.drawByte.1 }

/-- Gives each of the listed bytes a free value (U9, log 15). -/
def Pixmem.havoc (m : Pixmem) (as : List Nat) : Pixmem := as.foldl Pixmem.havocAt m

/-- The addresses the current command has written. -/
def Pixmem.written (m : Pixmem) : List Nat :=
  m.log.filterMap (fun e => match e.kind with
    | .dstWrite _ => some e.addr
    | _ => none)

/-! ## Sequencing -/

/-- Runs `f 0`, `f 1`, ..., `f (n-1)` in order (R73), stopping at the first stop. -/
def upto {σ : Type} (f : Nat → σ → Except Stop σ) : Nat → σ → Except Stop σ
  | 0, s => .ok s
  | n + 1, s => match upto f n s with
    | .ok t => f n t
    | .error e => .error e

/-- A stop of an operation as the outcome of a step. -/
def Stop.outcome : Stop → Host.Outcome State Fault Refusal
  | .fault f => .fault f
  | .refusal r => .refused r

/-! ## Updates of one field -/

/-- Sets the status. -/
def State.setStatus (s : State) (v : Status) : State := { s with status := v }

/-- Sets the engine. -/
def State.setEng (s : State) (v : Option Engine) : State := { s with eng := v }

/-- Sets pixel memory. -/
def State.setPx (s : State) (v : Pixmem) : State := { s with px := v }

/-- Sets the registers. -/
def State.setRegs (s : State) (v : Regs) : State := { s with regs := v }

/-- Sets the schedule of the outside world. -/
def State.setInputs (s : State) (v : List Event) : State := { s with inputs := v }

/-- Sets what the host's latest read returned. -/
def State.setHostData (s : State) (v : Word) : State := { s with hostData := v }

/-- Sets `ALU_R` (R31). -/
def State.setAluR (s : State) (v : Word) : State := s.setRegs { s.regs with alu := { s.regs.alu with r := v } }

/-- Sets `KSEL` (R29). -/
def State.setKsel (s : State) (v : BitVec 10) : State := s.setRegs { s.regs with ksel := v }

/-! ## A command's start and end -/

/-- `STATUS.BUSY`, which equals `eng.state = RUN` (R27, R42). -/
def State.busy (s : State) : Bool := s.eng.isSome

/-- The accepted `CMD` write of R241, up to the execution of the command: `DONE`, `FAULT` and `FCODE` become 0, `BUSY`
becomes 1, `WERR` stays. -/
def State.accept (s : State) (v : Word) : State :=
  ((s.setStatus { s.status with done := false, fault := false, fcode := 0 }).setEng (some ⟨v, .start⟩)).setPx
    { s.px with log := [] }

/-- `done` (R243): the successful end of a command. The internal state is discarded (R46). -/
def State.finish (s : State) : State := (s.setStatus { s.status with done := true }).setEng none

/-- The code of a fault in `STATUS.FCODE` (R250). -/
def FaultCode.code : FaultCode → BitVec 4
  | .unsupported => 1
  | .precondition => 2
  | .illegalCommand => 3
  | .illegalOperand => 4

/-- `raise Fault(code)` (R251): the faulting end of a command. It saves nothing but `FAULT` and `FCODE` and transfers
control nowhere (R261). -/
def State.raise (s : State) (c : FaultCode) : State :=
  (s.setStatus { s.status with fcode := c.code, fault := true, done := false }).setEng none

/-- Continues the running command with another activity; an idle block stays idle. -/
def State.proceed (s : State) (act : Activity) : State :=
  s.setEng (s.eng.map (fun e => { e with act := act }))

end Sys2Proof.Machine
end

