-- ==== Sys2Proof/Machine/Operands.lean ====
section
/-! DEFINITION. How registers become operands (R97): signed words, 31-bit dimensions, descriptors, colors, and the kernel
selector word. -/

namespace Sys2Proof.Machine

open Sys2Proof

/-- A register as a 32-bit two's-complement integer (R97). -/
def signed (w : Word) : Int := w.toInt

/-- A dimension register with bit 31 set is malformed (R32, R33, R38). -/
def dimBad (w : Word) : Bool := w.getLsbD 31

/-- The value of a dimension register: bits [30:0] (R9). -/
def dim (w : Word) : Nat := (w.extractLsb' 0 31).toNat

/-- The unsigned value of a byte sample (R11). -/
def sample (b : Byte) : Int := (b.toNat : Int)

/-- The legal channel counts, `1 <= n <= MAX_CHANNELS` (R255). -/
def countOk (p : Params) (n : Nat) : Bool := decide (1 ≤ n) && decide (n ≤ p.maxChannels)

/-- `COLOR[i]` (R36); an index past the file, which no legal `MAX_CHANNELS` forms, reads 0 (log 20). -/
def colorAt (r : Regs) (i : Nat) : Byte := (r.color[i]?).getD 0

/-! ## Kernel operands (R32) -/

/-- `K_N`. -/
def KernRegs.count (k : KernRegs) : Nat := k.n.toNat

/-- `K_FLAGS.DA`. -/
def KernRegs.da (k : KernRegs) : Bool := k.flags.getLsbD 0

/-- `K_FLAGS.SA`. -/
def KernRegs.sa (k : KernRegs) : Bool := k.flags.getLsbD 1

/-! ## Descriptors (R33, R190) -/

/-- `FMT.N`. -/
def Desc.n (d : Desc) : Nat := (d.fmt.extractLsb' 0 8).toNat

/-- `FMT.HAS_ALPHA`. -/
def Desc.ha (d : Desc) : Bool := d.fmt.getLsbD 8

/-- The number of color channels, `N - HA` (R13). -/
def Desc.colors (d : Desc) : Nat := d.n - d.ha.toNat

/-- Check 3 of R35 fails. -/
def Desc.dimsBad (d : Desc) : Bool := dimBad d.width || dimBad d.height

/-- The bounds `[X, X + WIDTH) × [Y, Y + HEIGHT)` (R34), exactly. -/
def Desc.bounds (d : Desc) : Rect where
  x0 := signed d.x
  x1 := signed d.x + (dim d.width : Int)
  y0 := signed d.y
  y1 := signed d.y + (dim d.height : Int)

/-- The clip rectangle `[CLIP_X0, CLIP_X1) × [CLIP_Y0, CLIP_Y1)` (R37). -/
def ClipRegs.rect (c : ClipRegs) : Rect := ⟨signed c.x0, signed c.x1, signed c.y0, signed c.y1⟩

/-- An empty box (R191). -/
def Rect.isEmpty (r : Rect) : Bool := decide (r.x1 ≤ r.x0) || decide (r.y1 ≤ r.y0)

/-- `INTERSECT` (R191). -/
def Rect.inter (a b : Rect) : Rect := ⟨max a.x0 b.x0, min a.x1 b.x1, max a.y0 b.y0, min a.y1 b.y1⟩

/-- `ADDR(P, x, y)` (R192): exact inside, reduced modulo 2^ADDR_W at the end. -/
def Desc.addr (p : Params) (d : Desc) (x y : Int) : Nat :=
  addrOf p ((d.base.toNat : Int) + ((y - signed d.y) * (d.stride.toNat : Int) + (x - signed d.x) * (d.n : Int)))

/-! ## The kernel selector (R84) -/

/-- `KIND` of `SOLID` (R85). -/
def kindSolid : Nat := 1

/-- `KIND` of `SPAN_OVER` (R85). -/
def kindOver : Nat := 2

/-- `KIND` of `SPAN_MASK` (R85). -/
def kindMask : Nat := 3

/-- `KIND` of `SPAN_COLOR` (R85). -/
def kindColor : Nat := 4

/-- A selector from its fields (R84). -/
def kselOf (kind : Nat) (da sa : Bool) (var : Nat) (f : Fam) : BitVec 10 :=
  BitVec.ofNat 10 (kind + 8 * da.toNat + 16 * sa.toNat + 32 * var + 256 * f.code)

/-- `KIND` of a selector (R84). -/
def kselKind (k : BitVec 10) : Nat := (k.extractLsb' 0 3).toNat

/-- `DA` of a selector (R84). -/
def kselDa (k : BitVec 10) : Bool := k.getLsbD 3

/-- `FAM` of a selector (R84, R87). -/
def kselFam (k : BitVec 10) : Fam := Fam.ofCode (k.extractLsb' 8 2).toNat

end Sys2Proof.Machine
end

