-- ==== Sys2Proof/Machine/Cells.lean ====
section
/-! DEFINITION. The blend ALU (R100 to R104): four pure functions on exact integers. -/

namespace Sys2Proof.Machine

open Sys2Proof

/-- `v >> 8` on an integer: floor division (R11, D6). -/
def shr8 (v : Int) : Int := v / 256

/-- `expand(a) = a + (a >> 7)` (R101). -/
def expand (a : Int) : Int := a + a / 128

/-- `combine(x, w) = (x * w) >> 8` (R102). -/
def combine (x w : Int) : Int := shr8 (x * w)

/-- `blend(src, dst, w) = dst + combine(src - dst, w)` (R103). -/
def blend (src dst w : Int) : Int := dst + combine (src - dst) w

/-- `combine2` (R104), with the rounding that `COMBINE2_FUSED` selects. -/
def combine2 (p : Params) (srcA wA srcB wB : Int) : Int :=
  if p.combine2Fused then shr8 (srcA * wA + srcB * wB) else combine srcA wA + combine srcB wB

/-- A byte from an integer: bits [7:0] (R121). -/
def byteOf (v : Int) : Byte := BitVec.ofInt 8 v

/-- `store8(v)` (R121): the byte a kernel writes for a computed sample. Under `OVERFLOW_STORE = ANY` a sample above 255
takes a free value (U1, log 9). -/
def store8 (p : Params) (v : Int) (m : Pixmem) : Byte × Pixmem :=
  if v ≤ 255 then (byteOf v, m)
  else match p.overflowStore with
    | .wrap => (byteOf v, m)
    | .any => m.drawByte

end Sys2Proof.Machine
end

