-- ==== Sys2Proof/Machine/Alu.lean ====
section
/-! DEFINITION. The ALU commands (R105 to R108): each reads `ALU_A` to `ALU_D` as signed words, checks the cell's input
range and writes `ALU_R`. -/

namespace Sys2Proof.Machine

open Sys2Proof

/-- A byte operand is in 0..255. -/
def byteOk (v : Int) : Bool := decide (0 ≤ v) && decide (v ≤ 255)

/-- A weight is in 0..256 (R14). -/
def weightOk (v : Int) : Bool := decide (0 ≤ v) && decide (v ≤ 256)

/-- The first operand of `combine` is in -255..256 (R102). -/
def combineOk (v : Int) : Bool := decide (-255 ≤ v) && decide (v ≤ 256)

/-- The shared template of the ALU commands (40_alu.md section 2): `ILLEGAL_OPERAND` outside the range, else the result
as 32-bit two's complement. -/
def aluCommand (s : State) (ok : Bool) (v : Int) : Host.Outcome State Fault Refusal :=
  if ok then .next (s.setAluR (BitVec.ofInt 32 v)).finish else .next (s.raise .illegalOperand)

/-- `EXPAND` (R105). -/
def execExpand (s : State) : Host.Outcome State Fault Refusal :=
  let a := signed s.regs.alu.a
  aluCommand s (byteOk a) (expand a)

/-- `COMBINE` (R106). -/
def execCombine (s : State) : Host.Outcome State Fault Refusal :=
  let x := signed s.regs.alu.a
  let w := signed s.regs.alu.b
  aluCommand s (combineOk x && weightOk w) (combine x w)

/-- `BLEND` (R107). -/
def execBlend (s : State) : Host.Outcome State Fault Refusal :=
  let src := signed s.regs.alu.a
  let dst := signed s.regs.alu.b
  let w := signed s.regs.alu.c
  aluCommand s (byteOk src && byteOk dst && weightOk w) (blend src dst w)

/-- `COMBINE2` (R108): the sum is not reduced to a byte. -/
def execCombine2 (s : State) : Host.Outcome State Fault Refusal :=
  let srcA := signed s.regs.alu.a
  let wA := signed s.regs.alu.b
  let srcB := signed s.regs.alu.c
  let wB := signed s.regs.alu.d
  aluCommand s (byteOk srcA && weightOk wA && byteOk srcB && weightOk wB) (combine2 s.cfg srcA wA srcB wB)

end Sys2Proof.Machine
end

