-- ==== Sys2Proof/Machine/Control.lean ====
section
/-! DEFINITION. The control family: `NOP` (R244). -/

namespace Sys2Proof.Machine

open Sys2Proof

/-- `NOP` (R244). -/
def execNop (s : State) : Host.Outcome State Fault Refusal := .next s.finish

end Sys2Proof.Machine
end

