-- ==== Sys2Proof/Machine/Painters.lean ====
section
/-! DEFINITION. The dispatch mux tree (R170 to R173) and the four `GET_*` commands (R174 to R177). -/

namespace Sys2Proof.Machine

open Sys2Proof

/-- Whether a family is in `FAMILIES` (R8). -/
def famPresent (p : Params) : Fam → Bool
  | .c1 => p.famC1
  | .c3 => p.famC3
  | .c4 => p.famC4
  | .gen => p.famGen

/-- `FAMSEL(c)` (R171); `none` is `UNSUPPORTED`. -/
def famSel (p : Params) (c : Nat) : Option Fam :=
  if c = 1 ∧ p.famC1 = true then some .c1
  else if c = 3 ∧ p.famC3 = true then some .c3
  else if c = 4 ∧ p.famC4 = true then some .c4
  else if p.famGen = true then some .gen
  else none

/-- `ALPHACLASS(a)` (R172), as the `VAR` of R86: 1 is OPAQUE, 2 is SKIP, 0 is GENERAL. -/
def alphaClass (a : Byte) : Nat := if a = 255 then 1 else if a = 0 then 2 else 0

/-- `SOLIDSEL(da, ca)` (R173), as the `VAR` of R86: 1 is OVERWRITE, 0 is the alpha-aware variant. -/
def solidVar (p : Params) (da : Bool) (ca : Byte) : Nat :=
  if da then 0
  else match p.nodaFillPolicy with
    | .alwaysOverwrite => 1
    | .alphaBelow255 => if ca = 255 then 1 else 0

/-- The shared course of the `GET_*` commands: `PRECONDITION` leaves `KSEL`, `UNSUPPORTED` sets it to 0, success sets it
to the selector (R174, D26). `sel` gives the selector from the color-channel count and the family. -/
def getPainter (s : State) (sel : Nat → Fam → BitVec 10) : Host.Outcome State Fault Refusal :=
  let n := s.regs.kern.count
  if countOk s.cfg n then
    let c := n - s.regs.kern.da.toNat
    match famSel s.cfg c with
    | none => .next ((s.setKsel 0).raise .unsupported)
    | some f => .next (s.setKsel (sel c f)).finish
  else .next (s.raise .precondition)

/-- `GET_SOLID_PAINTER` (R174). -/
def execGetSolidPainter (s : State) : Host.Outcome State Fault Refusal :=
  let da := s.regs.kern.da
  getPainter s (fun c f => kselOf kindSolid da false (solidVar s.cfg da (colorAt s.regs c)) f)

/-- `GET_SPAN_PAINTER` (R175). -/
def execGetSpanPainter (s : State) : Host.Outcome State Fault Refusal :=
  getPainter s (fun _ f => kselOf kindOver s.regs.kern.da s.regs.kern.sa (alphaClass s.regs.kern.alpha) f)

/-- `GET_SPAN_MASK_PAINTER` (R176). -/
def execGetSpanMaskPainter (s : State) : Host.Outcome State Fault Refusal :=
  getPainter s (fun _ f => kselOf kindMask s.regs.kern.da s.regs.kern.sa 0 f)

/-- `GET_SPAN_COLOR_PAINTER` (R177). -/
def execGetSpanColorPainter (s : State) : Host.Outcome State Fault Refusal :=
  getPainter s (fun _ f => kselOf kindColor s.regs.kern.da false 0 f)

end Sys2Proof.Machine
end

