-- ==== Sys2Proof/Machine/Pixels.lean ====
section
/-! DEFINITION. The per-pixel mux: `OVER_PIXEL` (R125), `COLOR_PIXEL` (R126) and the parts both are made of. `row` tags
the destination accesses of one row (log 10). Source, mask and glyph bytes are read with `readSrc`. -/

namespace Sys2Proof.Machine

open Sys2Proof

/-- Reads a source, mask, row-table or stream byte. -/
def readSrc (p : Params) (a : Nat) (m : Pixmem) : Except Stop (Byte × Pixmem) := m.read p .srcRead a

/-- Reads a destination byte, computes the new one (which may draw a free byte), and writes it back. -/
def updateDst (p : Params) (row : Int) (a : Nat) (f : Byte → Pixmem → Byte × Pixmem) (m : Pixmem) :
    Except Stop Pixmem :=
  match m.read p (.dstRead row) a with
  | .ok (d, m1) => (f d m1).2.write p (.dstWrite row) a (f d m1).1
  | .error e => .error e

/-- Writes a destination byte without reading it. -/
def putDst (p : Params) (row : Int) (a : Nat) (v : Byte) (m : Pixmem) : Except Stop Pixmem :=
  m.write p (.dstWrite row) a v

/-- Copies one source byte to one destination byte. -/
def copyByte (p : Params) (row : Int) (da sa : Nat) (m : Pixmem) : Except Stop Pixmem :=
  match readSrc p sa m with
  | .ok (s, m1) => putDst p row da s m1
  | .error e => .error e

/-- Blends one source byte into one destination byte with the weights `W` and `t` (R125). -/
def blendByte (p : Params) (row : Int) (w t : Int) (da sa : Nat) (m : Pixmem) : Except Stop Pixmem :=
  match readSrc p sa m with
  | .ok (s, m1) => updateDst p row da (fun d => store8 p (combine2 p (sample s) w (sample d) t)) m1
  | .error e => .error e

/-- Runs an operation on the destination's alpha byte if the destination has one. -/
def ifAlpha (da : Bool) (f : Pixmem → Except Stop Pixmem) (m : Pixmem) : Except Stop Pixmem := if da then f m else .ok m

/-- The source alpha of R125: the byte after the color bytes, or 255 when the source has none. -/
def srcAlpha (p : Params) (sa : Bool) (a : Nat) (m : Pixmem) : Except Stop (Int × Pixmem) :=
  if sa then match readSrc p a m with
    | .ok (b, m1) => .ok (sample b, m1)
    | .error e => .error e
  else .ok (255, m)

/-- The effective weight `ew` of R125. -/
def effWeight (sa : Bool) (sA w : Int) : Int := if sa then combine (expand sA) w else w

/-- The raw copy of R125. -/
def rawCopy (p : Params) (row : Int) (dp sp c : Nat) (da : Bool) (m : Pixmem) : Except Stop Pixmem :=
  match upto (fun k m => copyByte p row (addrPlus p dp k) (addrPlus p sp k) m) c m with
  | .ok m1 => ifAlpha da (putDst p row (addrPlus p dp c) 255) m1
  | .error e => .error e

/-- The blend of R125 with weight `W` for the source and `t` for the destination. -/
def overBlend (p : Params) (row : Int) (dp sp : Nat) (sA w t : Int) (c : Nat) (da : Bool) (m : Pixmem) :
    Except Stop Pixmem :=
  match upto (fun k m => blendByte p row w t (addrPlus p dp k) (addrPlus p sp k) m) c m with
  | .ok m1 => ifAlpha da (updateDst p row (addrPlus p dp c)
      (fun d => store8 p (combine2 p sA w (sample d) t))) m1
  | .error e => .error e

/-- `OVER_PIXEL(dp, sp, W, c, da, sa)` (R125): skip, raw copy or blend. -/
def overPixel (p : Params) (row : Int) (dp sp : Nat) (w : Int) (c : Nat) (da sa : Bool) (m : Pixmem) :
    Except Stop Pixmem :=
  match srcAlpha p sa (addrPlus p sp c) m with
  | .ok (sA, m1) =>
    let ew := effWeight sa sA w
    if ew = 0 then .ok m1
    else if ew = 256 then rawCopy p row dp sp c da m1
    else overBlend p row dp sp sA w (256 - ew) c da m1
  | .error e => .error e

/-- The raw overwrite of R126: the color bytes, and 255 into a destination alpha. -/
def rawColor (p : Params) (row : Int) (dp c : Nat) (da : Bool) (color : Nat → Byte) (m : Pixmem) : Except Stop Pixmem :=
  match upto (fun k m => putDst p row (addrPlus p dp k) (color k) m) c m with
  | .ok m1 => ifAlpha da (putDst p row (addrPlus p dp c) 255) m1
  | .error e => .error e

/-- The byte that `blend` makes of a destination byte (R103, R126). -/
def blendTo (target : Int) (w : Int) (d : Byte) (m : Pixmem) : Byte × Pixmem := (byteOf (blend target (sample d) w), m)

/-- The blend of R126: each color channel toward the color, the destination alpha toward 255 (D30). -/
def colorBlend (p : Params) (row : Int) (dp : Nat) (w : Int) (c : Nat) (da : Bool) (color : Nat → Byte) (m : Pixmem) :
    Except Stop Pixmem :=
  match upto (fun k m => updateDst p row (addrPlus p dp k) (blendTo (sample (color k)) w) m) c m with
  | .ok m1 => ifAlpha da (updateDst p row (addrPlus p dp c) (blendTo 255 w)) m1
  | .error e => .error e

/-- `COLOR_PIXEL(dp, W, c, da, color)` (R126): skip, raw overwrite or blend. -/
def colorPixel (p : Params) (row : Int) (dp : Nat) (w : Int) (c : Nat) (da : Bool) (color : Nat → Byte) (m : Pixmem) :
    Except Stop Pixmem :=
  if w = 0 then .ok m
  else if w = 256 then rawColor p row dp c da color m
  else colorBlend p row dp w c da color m

end Sys2Proof.Machine
end

