-- ==== Sys2Proof/Machine/Glyph.lean ====
section
/-! DEFINITION. The glyph engine: `PAINT_GLYPH` (R226), the four run headers (R89 to R93) and the row transitions of R229
that read no header. -/

namespace Sys2Proof.Machine

open Sys2Proof

/-! ## Modes and pixels -/

/-- `GLYPHMODE(c, ca)` (R227). -/
def glyphMode (c : Nat) (ca : Byte) : GlyphMode :=
  if c = 0 then .mask else if ca = 255 then .solid else if ca = 0 then .nop else .alpha

/-- The number of color channels of the glyph's destination (R226). -/
def glyphColors (s : State) : Nat := s.regs.dst.colors

/-- The color alpha of the glyph's color (R226). -/
def glyphAlpha (s : State) : Byte := colorAt s.regs (glyphColors s)

/-- The weight of a coverage in the two color modes (R228); `full` is a Solid pixel. -/
def glyphWeight (s : State) (mode : GlyphMode) (cov : Byte) (full : Bool) : Int :=
  match mode with
  | .mask => 0
  | .nop => 0
  | .solid => if full then 256 else expand (sample cov)
  | .alpha =>
    let sa := expand (sample (glyphAlpha s))
    if full then sa else combine (expand (sample cov)) sa

/-- The first-paint and blend distinction of mask mode (R225). -/
def maskCoverage (cov : Byte) (d : Byte) (m : Pixmem) : Byte × Pixmem :=
  if d = 0 then (cov, m) else blendTo 255 (expand (sample cov)) d m

/-- One pixel of a color mode (R228). -/
def glyphColorPixel (s : State) (g : Rle) (dp : Nat) (cov : Byte) (full : Bool) (m : Pixmem) : Except Stop Pixmem :=
  colorPixel s.cfg (g.r : Int) dp (glyphWeight s g.mode cov full) (glyphColors s) s.regs.dst.ha (colorAt s.regs) m

/-- `SOLID_PIXEL` of the running mode (R225, R228). -/
def solidGlyphPixel (s : State) (g : Rle) (dp : Nat) (m : Pixmem) : Except Stop Pixmem :=
  match g.mode with
  | .mask => putDst s.cfg (g.r : Int) dp 0xFF m
  | .solid => glyphColorPixel s g dp 0 true m
  | .alpha => glyphColorPixel s g dp 0 true m
  | .nop => .ok m

/-- `COV_PIXEL` of the running mode (R225, R228). -/
def covGlyphPixel (s : State) (g : Rle) (dp : Nat) (cov : Byte) (m : Pixmem) : Except Stop Pixmem :=
  match g.mode with
  | .mask => updateDst s.cfg (g.r : Int) dp (maskCoverage cov) m
  | .solid => glyphColorPixel s g dp cov false m
  | .alpha => glyphColorPixel s g dp cov false m
  | .nop => .ok m

/-! ## Runs -/

/-- Destination address of the emitted run's pixel `j`: the pointer advances by `n` (R214). -/
def glyphPx (s : State) (g : Rle) (j : Nat) : Nat := addrPlus s.cfg g.dp (j * s.regs.dst.n)

/-- One pixel of an emitted run (R219 to R221). -/
def emitPixel (s : State) (g : Rle) (tag : RunTag) (j : Nat) (m : Pixmem) : Except Stop Pixmem :=
  match tag with
  | .transparent => .ok m
  | .solid => solidGlyphPixel s g (glyphPx s g j) m
  | .intermediate =>
    match readSrc s.cfg (addrPlus s.cfg g.p j) m with
    | .ok (cov, m1) => covGlyphPixel s g (glyphPx s g j) cov m1
    | .error e => .error e

/-- The decoder after emitting `l` pixels of a run (R214, R218, R222). -/
def afterEmit (s : State) (g : Rle) (run : Run) (l : Nat) : Rle :=
  { g with
    dp := glyphPx s g l
    p := if run.tag = .intermediate then addrPlus s.cfg g.p l else g.p
    ww := g.ww - l
    pend := none
    phase := if run.eol then .rowEnd else .emit }

/-- The emit phase on one run: `L = min(len, remaining width)` pixels (R218). -/
def emitRun (s : State) (g : Rle) (run : Run) : Host.Outcome State Fault Refusal :=
  let l := min run.len g.ww
  match upto (emitPixel s g run.tag) l s.px with
  | .ok m => .next ((s.setPx m).proceed (.glyph (afterEmit s g run l)))
  | .error e => e.outcome

/-- The decoder after the skip phase met one run (R215 to R217, R229). -/
def afterSkip (s : State) (g : Rle) (run : Run) : Rle :=
  if g.sx < run.len then
    { g with
      p := if run.tag = .intermediate then addrPlus s.cfg g.p g.sx else g.p
      pend := some { run with len := run.len - g.sx }
      sx := 0
      phase := .emit }
  else
    { g with
      p := if run.tag = .intermediate then addrPlus s.cfg g.p run.len else g.p
      sx := if run.eol then g.sx else g.sx - run.len
      phase := if run.eol then .rowEnd else if g.sx - run.len = 0 then .emit else .skip }

/-- The decoder expects a header: in the skip phase, or in the emit phase with no pending run and width left (R214). -/
def Rle.wantsHeader (g : Rle) : Bool :=
  match g.phase with
  | .rowStart => false
  | .skip => decide (0 < g.sx)
  | .emit => g.pend.isNone && decide (0 < g.ww)
  | .rowEnd => false

/-- The read of a header byte at `rle.p`, which then advances by one (R213), followed by what the header does. -/
def onHeader (s : State) (f : State → Rle → Host.Outcome State Fault Refusal) : Host.Outcome State Fault Refusal :=
  match s.eng with
  | some ⟨_, .glyph g⟩ =>
    if g.wantsHeader then
      match readSrc s.cfg g.p s.px with
      | .ok (_, m) => f (s.setPx m) { g with p := addrPlus s.cfg g.p 1 }
      | .error e => e.outcome
    else .refused .noRunExpected
  | _ => .refused .noRunExpected

/-- A non-Extend run (R213): `extend` returns to 0, then the skip or emit phase consumes the run (R214). -/
def consumeRun (s : State) (g : Rle) (run : Run) : Host.Outcome State Fault Refusal :=
  let g' := { g with extend := 0 }
  match g.phase with
  | .skip => .next (s.proceed (.glyph (afterSkip s g' run)))
  | .emit => emitRun s g' run
  | .rowStart => .refused .noRunExpected
  | .rowEnd => .refused .noRunExpected

/-- The pending multiplier after an Extend header (R90). -/
def chainExtend (p : Params) (old m : Nat) : Nat :=
  match p.extendChain with
  | .replace => m
  | .add => old + m

/-- The Extend header (R90). -/
def execRunExtend (m : Nat) (s : State) : Host.Outcome State Fault Refusal :=
  onHeader s (fun s g => .next (s.proceed (.glyph { g with extend := chainExtend s.cfg g.extend m })))

/-- The Transparent header (R91): `len = f + 1 + (extend << 6)`, no end-of-line flag. -/
def execRunTransparent (f : Nat) (s : State) : Host.Outcome State Fault Refusal :=
  onHeader s (fun s g => consumeRun s g ⟨.transparent, f + 1 + g.extend * 64, false⟩)

/-- The Solid header (R92): `len = f + 1 + (extend << 5)`. -/
def execRunSolid (f : Nat) (eol : Bool) (s : State) : Host.Outcome State Fault Refusal :=
  onHeader s (fun s g => consumeRun s g ⟨.solid, f + 1 + g.extend * 32, eol⟩)

/-- The Intermediate header (R93): `len = f + 1 + (extend << 5)`, its coverage bytes from `rle.p` on. -/
def execRunIntermediate (f : Nat) (eol : Bool) (s : State) : Host.Outcome State Fault Refusal :=
  onHeader s (fun s g => consumeRun s g ⟨.intermediate, f + 1 + g.extend * 32, eol⟩)

/-! ## Rows -/

/-- Reads the four bytes of a row-table entry, one at a time in increasing address order (R65). -/
def readEntry (p : Params) (a : Nat) (m : Pixmem) : Except Stop ((Byte × Byte × Byte × Byte) × Pixmem) :=
  match readSrc p a m with
  | .error e => .error e
  | .ok (b0, m0) => match readSrc p (addrPlus p a 1) m0 with
    | .error e => .error e
    | .ok (b1, m1) => match readSrc p (addrPlus p a 2) m1 with
      | .error e => .error e
      | .ok (b2, m2) => match readSrc p (addrPlus p a 3) m2 with
        | .error e => .error e
        | .ok (b3, m3) => .ok ((b0, b1, b2, b3), m3)

/-- The signed entry of four bytes in the byte order `GLYPH_OFFSET_ENDIAN` (R65). -/
def entryValue (p : Params) (b : Byte × Byte × Byte × Byte) : Int :=
  match p.glyphOffsetEndian with
  | .little => signed (b.2.2.2 ++ b.2.2.1 ++ b.2.1 ++ b.1)
  | .big => signed (b.1 ++ b.2.1 ++ b.2.2.1 ++ b.2.2.2)

/-- The address of `ROWENTRY(j)` (R210). -/
def entryAddr (s : State) (j : Nat) : Nat := addrPlus s.cfg s.regs.glyph.rowtab.toNat (4 * j)

/-- The destination address of row `r` (R211). -/
def glyphRow (s : State) (r : Nat) : Nat := addrPlus s.cfg s.regs.glyph.dptr.toNat (r * s.regs.dst.stride.toNat)

/-- The decoder at the start of a row whose entry is `off` (R212); a negative entry ends the row at once (R211). -/
def startRow (s : State) (g : Rle) (off : Int) : Rle :=
  let rowp := glyphRow s g.r
  if off < 0 then { g with rowp := rowp, phase := .rowEnd }
  else
    { g with
      rowp := rowp
      p := addrOf s.cfg ((s.regs.glyph.data.toNat : Int) + off)
      dp := rowp
      extend := 0
      sx := dim s.regs.glyph.skipx
      ww := dim s.regs.glyph.w
      pend := none
      phase := if 0 < dim s.regs.glyph.skipx then .skip else .emit }

/-- The row transitions of R229 that read no header: the row start, the pending run, the exhausted width, the exhausted
skip and the row end. -/
def glyphMicro (s : State) (g : Rle) : Host.Outcome State Fault Refusal :=
  match g.phase with
  | .rowStart =>
    match readEntry s.cfg (entryAddr s (dim s.regs.glyph.skipy + g.r)) s.px with
    | .ok (b, m) => .next ((s.setPx m).proceed (.glyph (startRow s g (entryValue s.cfg b))))
    | .error e => e.outcome
  | .skip => .next (s.proceed (.glyph { g with phase := .emit }))
  | .emit =>
    match g.pend with
    | some run => if g.ww = 0 then .next (s.proceed (.glyph { g with phase := .rowEnd })) else emitRun s g run
    | none => .next (s.proceed (.glyph { g with phase := .rowEnd }))
  | .rowEnd =>
    if g.r + 1 < dim s.regs.glyph.h then .next (s.proceed (.glyph { g with r := g.r + 1, phase := .rowStart }))
    else .next s.finish

/-- The first test of R226 that fails, in its order. -/
def glyphFault (s : State) : Option FaultCode :=
  let g := s.regs.glyph
  if dimBad g.w || dimBad g.h || dimBad g.skipx || dimBad g.skipy then some .illegalOperand
  else if !countOk s.cfg s.regs.dst.n then some .precondition
  else none

/-- The decoder as `PAINT_GLYPH` starts it, before its first row (R226). DESIGN CHOICE (log 30): the spec gives `rle.dp`,
`rle.p`, `rle.extend`, `rle.sx`, `rle.ww` and `rle.pend` no value before R212 first assigns them. They hold row 0's address,
`G_DATA`, 0, 0, 0 and none until then, and nothing reads them. -/
def glyphStart (s : State) (mode : GlyphMode) : Rle where
  mode := mode
  r := 0
  rowp := glyphRow s 0
  dp := glyphRow s 0
  p := s.regs.glyph.data.toNat
  phase := .rowStart
  extend := 0
  sx := 0
  ww := 0
  pend := none

/-- `PAINT_GLYPH` (R226): the tests, the empty geometry, the mode, the family of a color mode; then the rows, which the
next engine steps decode (log 6). -/
def execPaintGlyph (s : State) : Host.Outcome State Fault Refusal :=
  match glyphFault s with
  | some c => .next (s.raise c)
  | none =>
    let mode := glyphMode (glyphColors s) (glyphAlpha s)
    if dim s.regs.glyph.w = 0 ∨ dim s.regs.glyph.h = 0 then .next s.finish
    else if mode = .nop then .next s.finish
    else if mode ≠ .mask ∧ famSel s.cfg (glyphColors s) = none then .next (s.raise .unsupported)
    else .next (s.proceed (.glyph (glyphStart s mode)))

end Sys2Proof.Machine
end

