-- ==== Sys2Proof/Machine/Kernels.lean ====
section
/-! DEFINITION. The span runner, the 21 kernel variants of R130 to R153, one definition each, and `RUN_KERNEL` (R124).
A variant runs on the span the sequencer holds: from pixel `seq.i` to `seq.w`, its pointers at `seq.dp`, `seq.sp` and
`seq.mp` (R120). The family does not change what a variant does (R128). -/

namespace Sys2Proof.Machine

open Sys2Proof

/-! ## Spans -/

/-- One pixel of a kernel: pixel number `j` counted from the span's current pointers. -/
abbrev PixelOp := State → Seq → Nat → Pixmem → Except Stop Pixmem

/-- Destination address of pixel `j`: the pointer advances by `n` (R120). -/
def dstPx (p : Params) (q : Seq) (j : Nat) : Nat := addrPlus p q.dp (j * q.n)

/-- Source address of pixel `j`: the pointer advances by `c + sa` (R120). -/
def srcPx (p : Params) (q : Seq) (stride j : Nat) : Nat := addrPlus p q.sp (j * stride)

/-- Mask address of pixel `j`: the pointer advances by 1 (R120). -/
def mskPx (p : Params) (q : Seq) (j : Nat) : Nat := addrPlus p q.mp j

/-- The number of color channels of the span's destination (R13). -/
def spanColors (q : Seq) (da : Bool) : Nat := q.n - da.toNat

/-- The row after the current one: every pointer is derived again from the descriptors (R193, R195). Without a
mask the mask pointer keeps the model's 0 (log 30). -/
def nextRow (s : State) (q : Seq) : Seq :=
  { q with
    y := q.y + 1
    i := 0
    dp := s.regs.dst.addr s.cfg q.rect.x0 (q.y + 1)
    sp := s.regs.src.addr s.cfg q.rect.x0 (q.y + 1)
    mp := if kselKind q.k = kindMask then s.regs.msk.addr s.cfg q.rect.x0 (q.y + 1) else q.mp }

/-- After a span: the next row, if there is one (R195), else `done`. -/
def endSpan (s : State) (q : Seq) : State :=
  if q.y + 1 < q.rect.y1 then s.proceed (.spans (nextRow s q)) else s.finish

/-- Runs one pixel operation over the rest of the running span, then ends the span. -/
def runSpan (op : PixelOp) (s : State) : Host.Outcome State Fault Refusal :=
  match s.eng with
  | some ⟨_, .spans q⟩ =>
    match upto (op s q) (q.w - q.i) s.px with
    | .ok m => .next (endSpan (s.setPx m) q)
    | .error e => e.outcome
  | _ => .refused .noSpanRunning

/-! ## The pixel operations of the four kernel kinds -/

/-- A pixel of an alpha-aware solid fill (R130, R132): `W = expand(color[c])`. -/
def solidPixel (da : Bool) : PixelOp := fun s q j m =>
  let c := spanColors q da
  colorPixel s.cfg q.y (dstPx s.cfg q j) (expand (sample (colorAt s.regs c))) c da (colorAt s.regs) m

/-- A pixel of the overwriting solid fill (R131): the color alpha is not read. -/
def overwritePixel : PixelOp := fun s q j m =>
  upto (fun k m => putDst s.cfg q.y (addrPlus s.cfg (dstPx s.cfg q j) k) (colorAt s.regs k) m) (spanColors q false) m

/-- A pixel of span-over with plane weight `w` (R134 to R141). -/
def overSpanPixel (da sa : Bool) (w : State → Int) : PixelOp := fun s q j m =>
  let c := spanColors q da
  overPixel s.cfg q.y (dstPx s.cfg q j) (srcPx s.cfg q (c + sa.toNat) j) (w s) c da sa m

/-- The plane weight of the GENERAL variants, `expand(alpha)` (R134, D10). -/
def planeWeight (s : State) : Int := expand (sample s.regs.kern.alpha)

/-- The plane weight of the OPAQUE variants (R138). -/
def opaqueWeight (_ : State) : Int := 256

/-- No memory access (R142). -/
def skipPixel : PixelOp := fun _ _ _ m => .ok m

/-- A pixel of span-with-mask (R147 to R150): the mask byte first, and nothing else where the coverage is 0. -/
def maskPixel (da sa : Bool) : PixelOp := fun s q j m =>
  let c := spanColors q da
  match readSrc s.cfg (mskPx s.cfg q j) m with
  | .ok (b, m1) =>
    let ma := expand (sample b)
    if ma = 0 then .ok m1
    else overPixel s.cfg q.y (dstPx s.cfg q j) (srcPx s.cfg q (c + sa.toNat) j) ma c da sa m1
  | .error e => .error e

/-- A pixel of span-with-solid-color (R152, R153): `ma = combine(expand(mask), expand(color[c]))`. -/
def colorSpanPixel (da : Bool) : PixelOp := fun s q j m =>
  let c := spanColors q da
  match readSrc s.cfg (mskPx s.cfg q j) m with
  | .ok (b, m1) =>
    let ma := combine (expand (sample b)) (expand (sample (colorAt s.regs c)))
    colorPixel s.cfg q.y (dstPx s.cfg q j) ma c da (colorAt s.regs) m1
  | .error e => .error e

/-! ## Solid fill -/

/-- `SOLID_ALPHA` (R130). -/
def execSolidAlpha (_ : Fam) (s : State) : Host.Outcome State Fault Refusal := runSpan (solidPixel false) s

/-- `SOLID_OVERWRITE` (R131). -/
def execSolidOverwrite (_ : Fam) (s : State) : Host.Outcome State Fault Refusal := runSpan overwritePixel s

/-- `SOLID_DA` (R132). -/
def execSolidDa (_ : Fam) (s : State) : Host.Outcome State Fault Refusal := runSpan (solidPixel true) s

/-! ## Span-over -/

/-- `OVER_GENERAL` (R134). -/
def execOverGeneral (_ : Fam) (s : State) : Host.Outcome State Fault Refusal :=
  runSpan (overSpanPixel false false planeWeight) s

/-- `OVER_GENERAL_DA` (R135). -/
def execOverGeneralDa (_ : Fam) (s : State) : Host.Outcome State Fault Refusal :=
  runSpan (overSpanPixel true false planeWeight) s

/-- `OVER_GENERAL_SA` (R136). -/
def execOverGeneralSa (_ : Fam) (s : State) : Host.Outcome State Fault Refusal :=
  runSpan (overSpanPixel false true planeWeight) s

/-- `OVER_GENERAL_DA_SA` (R137). -/
def execOverGeneralDaSa (_ : Fam) (s : State) : Host.Outcome State Fault Refusal :=
  runSpan (overSpanPixel true true planeWeight) s

/-- `OVER_OPAQUE` (R138). -/
def execOverOpaque (_ : Fam) (s : State) : Host.Outcome State Fault Refusal :=
  runSpan (overSpanPixel false false opaqueWeight) s

/-- `OVER_OPAQUE_DA` (R139). -/
def execOverOpaqueDa (_ : Fam) (s : State) : Host.Outcome State Fault Refusal :=
  runSpan (overSpanPixel true false opaqueWeight) s

/-- `OVER_OPAQUE_SA` (R140). -/
def execOverOpaqueSa (_ : Fam) (s : State) : Host.Outcome State Fault Refusal :=
  runSpan (overSpanPixel false true opaqueWeight) s

/-- `OVER_OPAQUE_DA_SA` (R141). -/
def execOverOpaqueDaSa (_ : Fam) (s : State) : Host.Outcome State Fault Refusal :=
  runSpan (overSpanPixel true true opaqueWeight) s

/-- `OVER_SKIP` (R142). -/
def execOverSkip (_ : Fam) (s : State) : Host.Outcome State Fault Refusal := runSpan skipPixel s

/-- `OVER_SKIP_DA` (R143). -/
def execOverSkipDa (_ : Fam) (s : State) : Host.Outcome State Fault Refusal := runSpan skipPixel s

/-- `OVER_SKIP_SA` (R144). -/
def execOverSkipSa (_ : Fam) (s : State) : Host.Outcome State Fault Refusal := runSpan skipPixel s

/-- `OVER_SKIP_DA_SA` (R145). -/
def execOverSkipDaSa (_ : Fam) (s : State) : Host.Outcome State Fault Refusal := runSpan skipPixel s

/-! ## Span-with-mask -/

/-- `MASK` (R147). -/
def execMask (_ : Fam) (s : State) : Host.Outcome State Fault Refusal := runSpan (maskPixel false false) s

/-- `MASK_DA` (R148). -/
def execMaskDa (_ : Fam) (s : State) : Host.Outcome State Fault Refusal := runSpan (maskPixel true false) s

/-- `MASK_SA` (R149). -/
def execMaskSa (_ : Fam) (s : State) : Host.Outcome State Fault Refusal := runSpan (maskPixel false true) s

/-- `MASK_DA_SA` (R150). -/
def execMaskDaSa (_ : Fam) (s : State) : Host.Outcome State Fault Refusal := runSpan (maskPixel true true) s

/-! ## Span-with-solid-color -/

/-- `COLOR` (R152). -/
def execColor (_ : Fam) (s : State) : Host.Outcome State Fault Refusal := runSpan (colorSpanPixel false) s

/-- `COLOR_DA` (R153). -/
def execColorDa (_ : Fam) (s : State) : Host.Outcome State Fault Refusal := runSpan (colorSpanPixel true) s

/-! ## RUN_KERNEL -/

/-- The family of a selector does not fit `c` color channels (R124, R257). -/
def famMismatch (f : Fam) (c : Nat) : Bool :=
  match f with
  | .c1 => decide (c ≠ 1)
  | .c3 => decide (c ≠ 3)
  | .c4 => decide (c ≠ 4)
  | .gen => false

/-- The selector is neither the null kernel nor a kernel of R88 (R124, R257). One with bit 7 set is malformed whatever its
`KIND` is (U16; log 22). -/
def kselMalformed (k : BitVec 10) : Bool :=
  match decodeKsel k with
  | .error .notAKernel => true
  | .error .reservedBits => false
  | .error .unknownOpcode => false
  | .error .kindNone => false
  | .ok _ => false

/-- The first test of R124 that fails, in its order. -/
def runKernelFault (s : State) : Option FaultCode :=
  let k := s.regs.ksel
  let n := s.regs.kern.count
  if dimBad s.regs.kern.w || kselMalformed k then some .illegalOperand
  else if !countOk s.cfg n then some .precondition
  else if kselKind k = 0 then some .unsupported
  else if famMismatch (kselFam k) (n - (kselDa k).toNat) then some .illegalOperand
  else if !famPresent s.cfg (kselFam k) then some .unsupported
  else none

/-- The span of R124: one row of `w` pixels at the `K_*` pointers. -/
def runKernelSpan (s : State) : Seq where
  k := s.regs.ksel
  n := s.regs.kern.count
  y := 0
  i := 0
  dp := s.regs.kern.dptr.toNat
  sp := s.regs.kern.sptr.toNat
  mp := s.regs.kern.mptr.toNat
  w := dim s.regs.kern.w
  rect := ⟨0, (dim s.regs.kern.w : Int), 0, 1⟩

/-- `RUN_KERNEL` (R124): the tests, then `done` for an empty span, else the span is handed to the variant named by
`KSEL`, which the next engine step executes (log 6). -/
def execRunKernel (s : State) : Host.Outcome State Fault Refusal :=
  match runKernelFault s with
  | some c => .next (s.raise c)
  | none => if dim s.regs.kern.w = 0 then .next s.finish else .next (s.proceed (.spans (runKernelSpan s)))

end Sys2Proof.Machine
end

