-- ==== Sys2Proof/Machine/Orchestration.lean ====
section
/-! DEFINITION. The `PAINT_OVER*` commands (R190 to R198): tests, intersection, selection, and the first row of the span
sequencer. -/

namespace Sys2Proof.Machine

open Sys2Proof

/-- The tests of R196 on destination and source, in their order. -/
def overFault (s : State) : Option FaultCode :=
  let d := s.regs.dst
  let r := s.regs.src
  if d.dimsBad || r.dimsBad then some .illegalOperand
  else if !countOk s.cfg d.n || !countOk s.cfg r.n then some .precondition
  else if d.colors ≠ r.colors then some .precondition
  else none

/-- The tests of R198 on destination, source and mask, in their order. -/
def overMaskFault (s : State) : Option FaultCode :=
  let d := s.regs.dst
  let r := s.regs.src
  let k := s.regs.msk
  if d.dimsBad || r.dimsBad || k.dimsBad then some .illegalOperand
  else if !countOk s.cfg d.n || !countOk s.cfg r.n || !countOk s.cfg k.n then some .precondition
  else if d.n ≠ r.n || k.n ≠ 1 || d.ha != r.ha then some .precondition
  else none

/-- Two rows of a buffer share a byte (U5): their address ranges, `dist` apart and `len` long, meet modulo 2^ADDR_W. -/
def rowsMeet (p : Params) (dist len : Nat) : Bool :=
  decide (dist % 2 ^ p.addrW < len) || decide (2 ^ p.addrW < dist % 2 ^ p.addrW + len)

/-- Some two different rows of a descriptor's buffer share a byte (U5); exact where the stride holds a row. A single row
longer than 2^ADDR_W wraps onto itself (R64), and two of its pixels share a byte: R201 rules this out and U5 does not name it.
DESIGN CHOICE (log 29): it is not tested, and such a row runs in the order of R73. -/
def Desc.rowsShare (p : Params) (d : Desc) : Bool :=
  let h := dim d.height
  let len := dim d.width * d.n
  decide (2 ^ p.addrW < (h - 1) * d.stride.toNat + len) &&
    (List.range h).any (fun k => decide (1 ≤ k) && rowsMeet p (k * d.stride.toNat) len)

/-- The invariant of R33 that the block does not check and the model refuses to run without (U5, log 13). -/
def Desc.stop (p : Params) (d : Desc) : Option Refusal :=
  if d.stride.toNat < dim d.width * d.n then some .strideTooSmall
  else if d.rowsShare p then some .rowsShareBytes
  else none

/-- The first row of R195 over a non-empty rectangle. R195 assigns the mask pointer only where a mask is present. DESIGN
CHOICE (log 30): without a mask the spec gives `seq.mp` no value and it holds 0, which no kernel of such a row reads (R120). -/
def firstRow (s : State) (k : BitVec 10) (rect : Rect) : Seq where
  k := k
  n := s.regs.dst.n
  y := rect.y0
  i := 0
  dp := s.regs.dst.addr s.cfg rect.x0 rect.y0
  sp := s.regs.src.addr s.cfg rect.x0 rect.y0
  mp := if kselKind k = kindMask then s.regs.msk.addr s.cfg rect.x0 rect.y0 else 0
  w := (rect.x1 - rect.x0).toNat
  rect := rect

/-- After the tests (R196, R194): an empty rectangle is `done`, a missing family `UNSUPPORTED`, and otherwise the rows of
the rectangle are sequenced through the selected kernel (R195), unless a descriptor is outside the model (U5). -/
def paintRows (s : State) (rect : Rect) (descs : List Desc) (sel : Fam → BitVec 10) :
    Host.Outcome State Fault Refusal :=
  if rect.isEmpty then .next s.finish
  else match famSel s.cfg s.regs.dst.colors with
    | none => .next (s.raise .unsupported)
    | some f =>
      match descs.findSome? (fun d => d.stop s.cfg) with
      | some r => .refused r
      | none => .next (s.proceed (.spans (firstRow s (sel f) rect)))

/-- The selector of `PAINT_OVER` and `PAINT_OVER_CLIPPED` (R196). -/
def overSel (s : State) (f : Fam) : BitVec 10 :=
  kselOf kindOver s.regs.dst.ha s.regs.src.ha (alphaClass s.regs.kern.alpha) f

/-- The selector of `PAINT_OVER_MASK` (R198). -/
def overMaskSel (s : State) (f : Fam) : BitVec 10 := kselOf kindMask s.regs.dst.ha s.regs.src.ha 0 f

/-- The rectangle of `PAINT_OVER` (R196). -/
def overRect (s : State) : Rect := s.regs.dst.bounds.inter s.regs.src.bounds

/-- `PAINT_OVER` (R196). -/
def execPaintOver (s : State) : Host.Outcome State Fault Refusal :=
  match overFault s with
  | some c => .next (s.raise c)
  | none => paintRows s (overRect s) [s.regs.dst, s.regs.src] (overSel s)

/-- `PAINT_OVER_CLIPPED` (R197). -/
def execPaintOverClipped (s : State) : Host.Outcome State Fault Refusal :=
  match overFault s with
  | some c => .next (s.raise c)
  | none => paintRows s ((overRect s).inter s.regs.clip.rect) [s.regs.dst, s.regs.src] (overSel s)

/-- `PAINT_OVER_MASK` (R198). -/
def execPaintOverMask (s : State) : Host.Outcome State Fault Refusal :=
  match overMaskFault s with
  | some c => .next (s.raise c)
  | none =>
    paintRows s ((overRect s).inter s.regs.msk.bounds) [s.regs.dst, s.regs.src, s.regs.msk] (overMaskSel s)

end Sys2Proof.Machine
end

