-- ==== Sys2Proof/Machine/Dispatch.lean ====
section
/-! DEFINITION. One arm per instruction. -/

namespace Sys2Proof.Machine

open Sys2Proof

def exec (i : Instr) (s : State) : Host.Outcome State Fault Refusal :=
  match i with
  | .nop => Sys2Proof.Machine.execNop s
  | .expand => Sys2Proof.Machine.execExpand s
  | .combine => Sys2Proof.Machine.execCombine s
  | .blend => Sys2Proof.Machine.execBlend s
  | .combine2 => Sys2Proof.Machine.execCombine2 s
  | .getSolidPainter => Sys2Proof.Machine.execGetSolidPainter s
  | .getSpanPainter => Sys2Proof.Machine.execGetSpanPainter s
  | .getSpanMaskPainter => Sys2Proof.Machine.execGetSpanMaskPainter s
  | .getSpanColorPainter => Sys2Proof.Machine.execGetSpanColorPainter s
  | .runKernel => Sys2Proof.Machine.execRunKernel s
  | .paintOver => Sys2Proof.Machine.execPaintOver s
  | .paintOverClipped => Sys2Proof.Machine.execPaintOverClipped s
  | .paintOverMask => Sys2Proof.Machine.execPaintOverMask s
  | .paintGlyph => Sys2Proof.Machine.execPaintGlyph s
  | .kSolidAlpha fam => Sys2Proof.Machine.execSolidAlpha fam s
  | .kSolidOverwrite fam => Sys2Proof.Machine.execSolidOverwrite fam s
  | .kSolidDa fam => Sys2Proof.Machine.execSolidDa fam s
  | .kOverGeneral fam => Sys2Proof.Machine.execOverGeneral fam s
  | .kOverGeneralDa fam => Sys2Proof.Machine.execOverGeneralDa fam s
  | .kOverGeneralSa fam => Sys2Proof.Machine.execOverGeneralSa fam s
  | .kOverGeneralDaSa fam => Sys2Proof.Machine.execOverGeneralDaSa fam s
  | .kOverOpaque fam => Sys2Proof.Machine.execOverOpaque fam s
  | .kOverOpaqueDa fam => Sys2Proof.Machine.execOverOpaqueDa fam s
  | .kOverOpaqueSa fam => Sys2Proof.Machine.execOverOpaqueSa fam s
  | .kOverOpaqueDaSa fam => Sys2Proof.Machine.execOverOpaqueDaSa fam s
  | .kOverSkip fam => Sys2Proof.Machine.execOverSkip fam s
  | .kOverSkipDa fam => Sys2Proof.Machine.execOverSkipDa fam s
  | .kOverSkipSa fam => Sys2Proof.Machine.execOverSkipSa fam s
  | .kOverSkipDaSa fam => Sys2Proof.Machine.execOverSkipDaSa fam s
  | .kMask fam => Sys2Proof.Machine.execMask fam s
  | .kMaskDa fam => Sys2Proof.Machine.execMaskDa fam s
  | .kMaskSa fam => Sys2Proof.Machine.execMaskSa fam s
  | .kMaskDaSa fam => Sys2Proof.Machine.execMaskDaSa fam s
  | .kColor fam => Sys2Proof.Machine.execColor fam s
  | .kColorDa fam => Sys2Proof.Machine.execColorDa fam s
  | .runExtend m => Sys2Proof.Machine.execRunExtend m s
  | .runTransparent f => Sys2Proof.Machine.execRunTransparent f s
  | .runSolid f eol => Sys2Proof.Machine.execRunSolid f eol s
  | .runIntermediate f eol => Sys2Proof.Machine.execRunIntermediate f eol s

end Sys2Proof.Machine
end

