-- ==== Sys2Proof/Machine/Flags.lean ====
section
/-! DEFINITION. Every flag of the block (R41): the `STATUS` word (R27), its write-1-to-clear bits (R246), `WERR` (R245)
and the interrupt output (R262). -/

namespace Sys2Proof.Machine

open Sys2Proof

/-- The `STATUS` word of R27: `BUSY` [0], `DONE` [1], `FAULT` [2], `WERR` [3], `FCODE` [11:8], the rest 0. -/
def statusWord (busy : Bool) (st : Status) : Word :=
  BitVec.ofNat 32 (busy.toNat + 2 * st.done.toNat + 4 * st.fault.toNat + 8 * st.werr.toNat + 256 * st.fcode.toNat)

/-- A host write to `STATUS` (R246). -/
def statusWrite (st : Status) (v : Word) : Status where
  done := st.done && !v.getLsbD 1
  fault := st.fault && !v.getLsbD 2
  werr := st.werr && !v.getLsbD 3
  fcode := if v.getLsbD 2 then 0 else st.fcode

/-- A dropped host write sets `WERR` (R245, R260). -/
def statusDropped (st : Status) : Status := { st with werr := true }

/-- `IRQ = (DONE & IE_DONE) | (FAULT & IE_FAULT)` (R262). -/
def State.irq (s : State) : Bool :=
  (s.status.done && s.regs.ctrl.getLsbD 0) || (s.status.fault && s.regs.ctrl.getLsbD 1)

end Sys2Proof.Machine
end

