-- ==== Sys2Proof/Machine/RegMap.lean ====
section
/-! DEFINITION. The register space (R22 to R40): the map of offsets, what a host read returns and what a host write does
(R245 to R247). -/

namespace Sys2Proof.Machine

open Sys2Proof

/-- The fields of a descriptor, in the order of their offsets (R23). -/
inductive DescField where
  | base
  | stride
  | x
  | y
  | width
  | height
  | fmt
deriving DecidableEq, Repr

/-- The registers of R23. -/
inductive Reg where
  | id
  | config
  | ctrl
  | status
  | cmd
  | ksel
  | aluA
  | aluB
  | aluC
  | aluD
  | aluR
  | kDptr
  | kSptr
  | kMptr
  | kW
  | kN
  | kFlags
  | kAlpha
  | color (i : Nat)
  | dst (f : DescField)
  | src (f : DescField)
  | msk (f : DescField)
  | clipX0
  | clipY0
  | clipX1
  | clipY1
  | gRowtab
  | gData
  | gDptr
  | gW
  | gH
  | gSkipx
  | gSkipy
deriving DecidableEq, Repr

/-- The descriptor field at an offset within its set (R23). -/
def descField : Nat → Option DescField
  | 0x00 => some .base
  | 0x04 => some .stride
  | 0x08 => some .x
  | 0x0C => some .y
  | 0x10 => some .width
  | 0x14 => some .height
  | 0x18 => some .fmt
  | _ => none

/-- The single registers of R23, by offset. -/
def singleReg : Nat → Option Reg
  | 0x000 => some .id
  | 0x004 => some .config
  | 0x008 => some .ctrl
  | 0x00C => some .status
  | 0x010 => some .cmd
  | 0x014 => some .ksel
  | 0x020 => some .aluA
  | 0x024 => some .aluB
  | 0x028 => some .aluC
  | 0x02C => some .aluD
  | 0x030 => some .aluR
  | 0x040 => some .kDptr
  | 0x044 => some .kSptr
  | 0x048 => some .kMptr
  | 0x04C => some .kW
  | 0x050 => some .kN
  | 0x054 => some .kFlags
  | 0x058 => some .kAlpha
  | 0x260 => some .clipX0
  | 0x264 => some .clipY0
  | 0x268 => some .clipX1
  | 0x26C => some .clipY1
  | 0x280 => some .gRowtab
  | 0x284 => some .gData
  | 0x288 => some .gDptr
  | 0x28C => some .gW
  | 0x290 => some .gH
  | 0x294 => some .gSkipx
  | 0x298 => some .gSkipy
  | _ => none

/-- The register at an offset, or none for an unmapped one (R23, R39). -/
def regAt (off : Nat) : Option Reg :=
  if 0x100 ≤ off ∧ off < 0x200 then some (.color ((off - 0x100) / 4))
  else if 0x200 ≤ off ∧ off < 0x220 then (descField (off - 0x200)).map .dst
  else if 0x220 ≤ off ∧ off < 0x240 then (descField (off - 0x220)).map .src
  else if 0x240 ≤ off ∧ off < 0x260 then (descField (off - 0x240)).map .msk
  else singleReg off

/-- `CONFIG` (R25). -/
def configWord (p : Params) : Word :=
  BitVec.ofNat 32 (p.famC1.toNat + 2 * p.famC3.toNat + 4 * p.famC4.toNat + 8 * p.famGen.toNat +
    256 * (p.maxChannels % 256))

/-- A descriptor field as the host reads it. -/
def Desc.get (d : Desc) : DescField → Word
  | .base => d.base
  | .stride => d.stride
  | .x => d.x
  | .y => d.y
  | .width => d.width
  | .height => d.height
  | .fmt => d.fmt.zeroExtend 32

/-- What a host read of a register returns (R23, R40, R49): `ID` is the constant of R24, `CMD` reads 0 (R28). -/
def readReg (s : State) : Reg → Word
  | .id => 0x424C4E44
  | .config => configWord s.cfg
  | .ctrl => s.regs.ctrl.zeroExtend 32
  | .status => statusWord s.busy s.status
  | .cmd => 0
  | .ksel => s.regs.ksel.zeroExtend 32
  | .aluA => s.regs.alu.a
  | .aluB => s.regs.alu.b
  | .aluC => s.regs.alu.c
  | .aluD => s.regs.alu.d
  | .aluR => s.regs.alu.r
  | .kDptr => s.regs.kern.dptr
  | .kSptr => s.regs.kern.sptr
  | .kMptr => s.regs.kern.mptr
  | .kW => s.regs.kern.w
  | .kN => s.regs.kern.n.zeroExtend 32
  | .kFlags => s.regs.kern.flags.zeroExtend 32
  | .kAlpha => s.regs.kern.alpha.zeroExtend 32
  | .color i => (colorAt s.regs i).zeroExtend 32
  | .dst f => s.regs.dst.get f
  | .src f => s.regs.src.get f
  | .msk f => s.regs.msk.get f
  | .clipX0 => s.regs.clip.x0
  | .clipY0 => s.regs.clip.y0
  | .clipX1 => s.regs.clip.x1
  | .clipY1 => s.regs.clip.y1
  | .gRowtab => s.regs.glyph.rowtab
  | .gData => s.regs.glyph.data
  | .gDptr => s.regs.glyph.dptr
  | .gW => s.regs.glyph.w
  | .gH => s.regs.glyph.h
  | .gSkipx => s.regs.glyph.skipx
  | .gSkipy => s.regs.glyph.skipy

/-- The stored bits [ADDR_W-1:0] of an address register (R23, R40). -/
def addrBits (p : Params) (v : Word) : Word := BitVec.ofNat 32 (v.toNat % 2 ^ p.addrW)

/-- A descriptor after a write to one field: the stored bits of R23. -/
def Desc.put (p : Params) (d : Desc) (f : DescField) (v : Word) : Desc :=
  match f with
  | .base => { d with base := addrBits p v }
  | .stride => { d with stride := v }
  | .x => { d with x := v }
  | .y => { d with y := v }
  | .width => { d with width := v }
  | .height => { d with height := v }
  | .fmt => { d with fmt := v.extractLsb' 0 9 }

/-- The color file after a write to one entry (R36). -/
def putColor (c : Vector Byte 64) (i : Nat) (v : Byte) : Vector Byte 64 := c.setIfInBounds i v

/-- The registers after a host write that is not dropped: the stored bits of R23, and nothing for a read-only register
(R247). `STATUS` and `CMD` are not among the stored registers. -/
def putReg (p : Params) (r : Regs) (v : Word) : Reg → Regs
  | .id => r
  | .config => r
  | .ctrl => { r with ctrl := v.extractLsb' 0 2 }
  | .status => r
  | .cmd => r
  | .ksel => { r with ksel := v.extractLsb' 0 10 }
  | .aluA => { r with alu := { r.alu with a := v } }
  | .aluB => { r with alu := { r.alu with b := v } }
  | .aluC => { r with alu := { r.alu with c := v } }
  | .aluD => { r with alu := { r.alu with d := v } }
  | .aluR => r
  | .kDptr => { r with kern := { r.kern with dptr := addrBits p v } }
  | .kSptr => { r with kern := { r.kern with sptr := addrBits p v } }
  | .kMptr => { r with kern := { r.kern with mptr := addrBits p v } }
  | .kW => { r with kern := { r.kern with w := v } }
  | .kN => { r with kern := { r.kern with n := v.extractLsb' 0 8 } }
  | .kFlags => { r with kern := { r.kern with flags := v.extractLsb' 0 2 } }
  | .kAlpha => { r with kern := { r.kern with alpha := v.extractLsb' 0 8 } }
  | .color i => { r with color := putColor r.color i (v.extractLsb' 0 8) }
  | .dst f => { r with dst := r.dst.put p f v }
  | .src f => { r with src := r.src.put p f v }
  | .msk f => { r with msk := r.msk.put p f v }
  | .clipX0 => { r with clip := { r.clip with x0 := v } }
  | .clipY0 => { r with clip := { r.clip with y0 := v } }
  | .clipX1 => { r with clip := { r.clip with x1 := v } }
  | .clipY1 => { r with clip := { r.clip with y1 := v } }
  | .gRowtab => { r with glyph := { r.glyph with rowtab := addrBits p v } }
  | .gData => { r with glyph := { r.glyph with data := addrBits p v } }
  | .gDptr => { r with glyph := { r.glyph with dptr := addrBits p v } }
  | .gW => { r with glyph := { r.glyph with w := v } }
  | .gH => { r with glyph := { r.glyph with h := v } }
  | .gSkipx => { r with glyph := { r.glyph with skipx := v } }
  | .gSkipy => { r with glyph := { r.glyph with skipy := v } }

/-- A host write to a mapped register. `CTRL` and `STATUS` always take it (R245, R246); while `BUSY` = 1 every other write
is dropped and sets `WERR` (R245); otherwise a `CMD` write is accepted (R241) and the rest is stored (R247). -/
def writeReg (s : State) (r : Reg) (v : Word) : State :=
  match r with
  | .ctrl => s.setRegs (putReg s.cfg s.regs v .ctrl)
  | .status => s.setStatus (statusWrite s.status v)
  | r =>
    if s.busy then s.setStatus (statusDropped s.status)
    else if r = .cmd then s.accept v
    else s.setRegs (putReg s.cfg s.regs v r)

end Sys2Proof.Machine
end

