-- ==== Sys2Proof/Machine/HostPort.lean ====
section
/-! DEFINITION. What one access of the host does (R70, R47, R74, R75). -/

namespace Sys2Proof.Machine

open Sys2Proof

/-- Whether a host address lies in the block's 4 KiB register space at `REG_BASE` (R70). -/
def inWindow (p : Params) (addr : Nat) : Bool := decide (p.regBase ≤ addr) && decide (addr < p.regBase + 0x1000)

/-- A host access to the register space: outside the window it is not the block's, at an offset that is no multiple of 4
there is none (U8), and otherwise `f` gets the register, if the offset is mapped (R39). -/
def regAccess (s : State) (addr : Nat) (f : Option Reg → State) : Host.Outcome State Fault Refusal :=
  if inWindow s.cfg addr then
    if (addr - s.cfg.regBase) % 4 = 0 then .next (f (regAt (addr - s.cfg.regBase)))
    else .refused .misalignedRegisterAccess
  else .next s

/-- A host register write; a write to an unmapped offset is ignored and never sets `WERR` (R39). -/
def hostWrite (s : State) (addr : Nat) (v : Word) : Host.Outcome State Fault Refusal :=
  regAccess s addr (fun r => match r with
    | some r => writeReg s r v
    | none => s)

/-- A host register read; an unmapped offset reads 0 (R39). A read changes no register. -/
def hostRead (s : State) (addr : Nat) : Host.Outcome State Fault Refusal :=
  regAccess s addr (fun r => match r with
    | some r => s.setHostData (readReg s r)
    | none => s.setHostData 0)

/-- The check and log of a host access to pixel memory: while a command runs it may not meet the command's bytes (R75);
while the block is idle only the address must be backed (R69). -/
def hostTouch (s : State) (k : AccessKind) (a : Nat) : Except Stop Pixmem :=
  if s.busy then s.px.touch s.cfg k a
  else if isBacked s.cfg a then .ok s.px
  else .error (.fault (.unbackedAddress a))

/-- A host write of one byte of pixel memory (R47, R74). -/
def hostMemWrite (s : State) (a : Nat) (v : Byte) : Host.Outcome State Fault Refusal :=
  match hostTouch s .hostWrite a with
  | .ok m => .next (s.setPx { m with cells := setCell m.cells a v })
  | .error e => e.outcome

/-- A host read of one byte of pixel memory (R47, R74). -/
def hostMemRead (s : State) (a : Nat) : Host.Outcome State Fault Refusal :=
  match hostTouch s .hostRead a with
  | .ok m => .next ((s.setPx m).setHostData ((m.byte a).zeroExtend 32))
  | .error e => e.outcome

/-- One access of the host. -/
def hostAccess (s : State) : HostOp → Host.Outcome State Fault Refusal
  | .write addr v => hostWrite s addr v
  | .read addr => hostRead s addr
  | .memWrite a v => hostMemWrite s a v
  | .memRead a => hostMemRead s a

end Sys2Proof.Machine
end

