-- ==== Sys2Proof/Machine/Engine.lean ====
section
/-! DEFINITION. The engine: where the next code word is, one step of the running command, the reset input (R280 to R282)
and the events of the outside world. Step.lean only calls what stands here. -/

namespace Sys2Proof.Machine

open Sys2Proof

/-- The code word the engine executes next: the accepted command word, the selector of the running span, or the header
byte at `rle.p`. None when the block is idle or the next transition reads no header. -/
def State.fetch (s : State) : Option CodeWord :=
  match s.eng with
  | none => none
  | some ⟨w, .start⟩ => some (.cmd w)
  | some ⟨_, .spans q⟩ => some (.ksel q.k)
  | some ⟨_, .glyph g⟩ => if g.wantsHeader then some (.run (s.px.byte g.p)) else none

/-- A code word that is no instruction. An illegal command word raises `ILLEGAL_COMMAND` (R82). A selector that is no
kernel raises what R88 says of it; the sequencer never holds one. -/
def rejected (s : State) : DecodeError → State
  | .reservedBits => s.raise .illegalCommand
  | .unknownOpcode => s.raise .illegalCommand
  | .kindNone => s.raise .unsupported
  | .notAKernel => s.raise .illegalOperand

/-- A step without a code word: a row transition of the run decoder (R229), or the idle block, which waits (R271). -/
def engineMicro (s : State) : Host.Outcome State Fault Refusal :=
  match s.eng with
  | some ⟨_, .glyph g⟩ => glyphMicro s g
  | some ⟨_, .start⟩ => .next s
  | some ⟨_, .spans _⟩ => .next s
  | none => .next s

/-- One step of the block itself: the fetched code word is decoded and its instruction executed. -/
def engineStep (s : State) : Host.Outcome State Fault Refusal :=
  match s.fetch with
  | some w =>
    match decode w with
    | .ok i => exec i s
    | .error e => .next (rejected s e)
  | none => engineMicro s

/-! ## Reset -/

/-- Enough engine steps for any command that ends: every span of a rectangle, and, for a glyph, a bound on the headers of
a row that ends. A row with more headers than this has read every address as an Extend header and never ends (U2). -/
def commandFuel (s : State) : Nat :=
  2 ^ 33 + (dim s.regs.glyph.h + 2) *
    ((dim s.regs.glyph.skipx + dim s.regs.glyph.w + 4) * (2 ^ s.cfg.addrW + 1) + 4)

/-- Pixel memory after the running command is left to run for at most `n` engine steps: its log then names every byte the
command writes. -/
def runOut : Nat → State → Except Stop Pixmem
  | 0, s => .ok s.px
  | n + 1, s =>
    if s.busy then
      match engineStep s with
      | .next t => runOut n t
      | .fault f => .error (.fault f)
      | .refused r => .error (.refusal r)
    else .ok s.px

/-- Pixel memory after a reset. An idle block leaves it alone (R281). A running command is abandoned, and each byte it
has written or would have written takes a free value (R282, U9, log 15). -/
def resetPx (s : State) : Except Stop Pixmem :=
  if s.busy then
    match runOut (commandFuel s) s with
    | .ok m => .ok { s.px.havoc m.written with log := [] }
    | .error e => .error e
  else .ok { s.px with log := [] }

/-- The reset input (R280 to R282): every register at its reset value, the engine idle. The parameters, the schedule and
what the host last read are not the block's. -/
def resetBlock (s : State) : Host.Outcome State Fault Refusal :=
  match resetPx s with
  | .ok m => .next { State.resetWith s.cfg with px := m, inputs := s.inputs, hostData := s.hostData }
  | .error e => e.outcome

/-! ## Steps -/

/-- One event of the outside world. A reset overrides the host access it coincides with (R281). -/
def onEvent (s : State) : Event → Host.Outcome State Fault Refusal
  | .host op => hostAccess s op
  | .reset _ => resetBlock s
  | .run => engineStep s

/-- One step of the machine: the next event of the schedule, or a step of the block when there is none (log 4). -/
def machineStep (s : State) : Host.Outcome State Fault Refusal :=
  match s.inputs with
  | [] => engineStep s
  | e :: rest => onEvent (s.setInputs rest) e

/-! ## Placing one instruction (log 19) -/

/-- The run decoder in the emit phase of a one-pixel row in mask mode, its stream at `G_DATA` and its destination 4096
bytes further on. -/
def placedRle (s : State) : Rle where
  mode := .mask
  r := 0
  rowp := addrPlus s.cfg s.regs.glyph.data.toNat 4096
  dp := addrPlus s.cfg s.regs.glyph.data.toNat 4096
  p := addrPlus s.cfg s.regs.glyph.data.toNat 0
  phase := .emit
  extend := 0
  sx := 0
  ww := 1
  pend := none

/-- A span of one pixel under a selector: its pointers from `K_DPTR` on, 4096 bytes apart, its channel count the
family's (R87) and the alpha sample of `DA`. -/
def placedSpan (s : State) (k : BitVec 10) : Seq where
  k := k
  n := (match kselFam k with
    | .c1 => 1
    | .c3 => 3
    | .c4 => 4
    | .gen => 2) + (kselDa k).toNat
  y := 0
  i := 0
  dp := addrPlus s.cfg s.regs.kern.dptr.toNat 0
  sp := addrPlus s.cfg s.regs.kern.dptr.toNat 4096
  mp := addrPlus s.cfg s.regs.kern.dptr.toNat 8192
  w := 1
  rect := ⟨0, 1, 0, 1⟩

/-- A code word where the engine fetches its next instruction: an accepted command; a one-pixel span under a selector; a
header byte at the stream pointer of a glyph row. No event comes before it. -/
def placeWord (s : State) : CodeWord → State
  | .cmd w => (s.accept w).setInputs []
  | .ksel k => ((s.accept 0x20).setInputs []).proceed (.spans (placedSpan s k))
  | .run b =>
    (((s.accept 0x40).setInputs []).proceed (.glyph (placedRle s))).setPx
      { s.px with cells := setCell s.px.cells (placedRle s).p b, log := [] }

end Sys2Proof.Machine
end

