-- ==== Sys2Proof/Machine/Step.lean ====
section
/-! DEFINITION. The step of the machine, and one instruction placed where the next step fetches it. -/

namespace Sys2Proof.Machine

open Sys2Proof

/-- One step. -/
def step (s : State) : Host.Outcome State Fault Refusal := machineStep s

/-- The instruction of a table word placed where `step` fetches its next instruction (log 19). -/
def State.withFetchWord (s : State) (nbits w : Nat) : State := placeWord s (tableCodeWord nbits w)

end Sys2Proof.Machine
end

