-- ==== Sys2Proof/Safety.lean ====
section
/-! DEFINITION. The terms statements are made in: regions of pixel memory an operation may access, what the pixel rules
say of the bytes before and after, the run a header stands for, and the invariants of a state. -/

namespace Sys2Proof.Machine

open Sys2Proof

/-! ## Regions -/

/-- The `len` addresses from `base` on, modulo 2^ADDR_W (R64). -/
def Region (p : Params) (base len a : Nat) : Prop := ∃ t, t < len ∧ a = addrPlus p base t

/-- Accesses of one kind go through on a whole region: every byte is backed (R69) and none clashes with an earlier access
of the command or of the host during it (log 10). -/
abbrev Open (p : Params) (m : Pixmem) (k : AccessKind) (base len : Nat) : Prop :=
  ∀ t, t < len → isBacked p (addrPlus p base t) = true ∧ m.clashAt k (addrPlus p base t) = none

/-- Two regions share no byte (R75). -/
abbrev Apart (p : Params) (a la b lb : Nat) : Prop :=
  ∀ t, t < la → ∀ u, u < lb → addrPlus p a t ≠ addrPlus p b u

/-- A destination region of `len` bytes that one row may read and write, in memory in canonical form. It is no longer than
the address space, so its bytes are `len` different ones. -/
abbrev DstReady (p : Params) (m : Pixmem) (row : Int) (base len : Nat) : Prop :=
  m.wf = true ∧ len ≤ 2 ^ p.addrW ∧ Open p m (.dstRead row) base len ∧ Open p m (.dstWrite row) base len

/-- A source region of `lb` bytes that may be read and that shares no byte with the destination region. -/
abbrev SrcReady (p : Params) (m : Pixmem) (a la b lb : Nat) : Prop :=
  Open p m .srcRead b lb ∧ Apart p a la b lb

/-- The number of pixels the running span still has. -/
def spanLen (q : Seq) : Nat := q.w - q.i

/-- The destination region of the running span (R120). -/
abbrev SpanDst (s : State) (q : Seq) : Prop := DstReady s.cfg s.px q.y q.dp (spanLen q * q.n)

/-- The source region of the running span, its pixels `stride` bytes apart (R120). -/
abbrev SpanSrc (s : State) (q : Seq) (stride : Nat) : Prop :=
  SrcReady s.cfg s.px q.dp (spanLen q * q.n) q.sp (spanLen q * stride)

/-- The mask region of the running span (R120). -/
abbrev SpanMsk (s : State) (q : Seq) : Prop := SrcReady s.cfg s.px q.dp (spanLen q * q.n) q.mp (spanLen q)

/-- The destination region of `l` pixels of the running glyph row (R214). -/
abbrev GlyphDst (s : State) (g : Rle) (l : Nat) : Prop := DstReady s.cfg s.px (g.r : Int) g.dp (l * s.regs.dst.n)

/-- The `l` coverage bytes from a stream address on (R221). -/
abbrev GlyphCov (s : State) (g : Rle) (p l : Nat) : Prop := SrcReady s.cfg s.px g.dp (l * s.regs.dst.n) p l

/-- Every byte outside a region is as before. -/
def KeepsOutside (p : Params) (base len : Nat) (f g : Nat → Byte) : Prop := ∀ x, ¬ Region p base len x → g x = f x

/-! ## Pixels: `f` is the memory before, `g` the memory after -/

/-- What `store8` stores for a computed sample (R121): its low byte, but for a sample above 255 under
`OVERFLOW_STORE = ANY`, where it may be any byte. -/
def Stored (p : Params) (v : Int) (b : Byte) : Prop := v ≤ 255 ∨ p.overflowStore = .wrap → b = byteOf v

/-- One sample of `OVER_PIXEL` (R125): skipped, raw or blended, from the old byte `d` to the new byte `b`. -/
def OverSample (p : Params) (src : Int) (raw : Byte) (w ew : Int) (d b : Byte) : Prop :=
  if ew = 0 then b = d
  else if ew = 256 then b = raw
  else Stored p (combine2 p src w (sample d) (256 - ew)) b

/-- The source alpha of a pixel (R125). -/
def sourceAlpha (p : Params) (f : Nat → Byte) (sp c : Nat) (sa : Bool) : Int :=
  if sa then sample (f (addrPlus p sp c)) else 255

/-- The effective weight of a pixel (R125). -/
def pixelWeight (p : Params) (f : Nat → Byte) (sp : Nat) (w : Int) (c : Nat) (sa : Bool) : Int :=
  if sa then combine (expand (sourceAlpha p f sp c sa)) w else w

/-- What `OVER_PIXEL(dp, sp, W, c, da, sa)` makes of the destination pixel (R125). -/
def OverPixel (p : Params) (dp sp : Nat) (w : Int) (c : Nat) (da sa : Bool) (f g : Nat → Byte) : Prop :=
  (∀ k, k < c → OverSample p (sample (f (addrPlus p sp k))) (f (addrPlus p sp k)) w (pixelWeight p f sp w c sa)
    (f (addrPlus p dp k)) (g (addrPlus p dp k))) ∧
  (da = true → OverSample p (sourceAlpha p f sp c sa) 255 w (pixelWeight p f sp w c sa)
    (f (addrPlus p dp c)) (g (addrPlus p dp c)))

/-- One sample of `COLOR_PIXEL` (R126): the new byte for a target byte, a weight and the old byte. -/
def colorSample (target : Byte) (w : Int) (d : Byte) : Byte :=
  if w = 0 then d else if w = 256 then target else byteOf (blend (sample target) (sample d) w)

/-- What `COLOR_PIXEL(dp, W, c, da, color)` makes of the destination pixel (R126). -/
def ColorPixel (p : Params) (dp : Nat) (w : Int) (c : Nat) (da : Bool) (color f g : Nat → Byte) : Prop :=
  (∀ k, k < c → g (addrPlus p dp k) = colorSample (color k) w (f (addrPlus p dp k))) ∧
  (da = true → g (addrPlus p dp c) = colorSample 255 w (f (addrPlus p dp c)))

/-- What one pixel of a glyph run makes of its destination pixel (R225, R228): a Solid pixel if `full`, else a pixel of
coverage `cov`. -/
def GlyphPixel (s : State) (mode : GlyphMode) (dp : Nat) (full : Bool) (cov : Byte) (f g : Nat → Byte) : Prop :=
  let c := s.regs.dst.colors
  let ca := expand (sample (colorAt s.regs c))
  match mode with
  | .mask => g dp = if full then 255 else if f dp = 0 then cov else byteOf (blend 255 (sample (f dp)) (expand (sample cov)))
  | .solid => ColorPixel s.cfg dp (if full then 256 else expand (sample cov)) c s.regs.dst.ha (colorAt s.regs) f g
  | .alpha =>
    ColorPixel s.cfg dp (if full then ca else combine (expand (sample cov)) ca) c s.regs.dst.ha (colorAt s.regs) f g
  | .nop => ColorPixel s.cfg dp 0 c s.regs.dst.ha (colorAt s.regs) f g

/-- The state after one source byte is read: nothing but the model's access log changes (log 10). -/
def State.noteRead (s : State) (a : Nat) : State := s.setPx { s.px with log := ⟨a, .srcRead⟩ :: s.px.log }

/-- The regions of an emitted run are ready (R219 to R221): none for a Transparent run, its destination pixels for a Solid
one, and its coverage bytes too for an Intermediate one. -/
def EmitReady (s : State) (g : Rle) (run : Run) : Prop :=
  match run.tag with
  | .transparent => True
  | .solid => GlyphDst s g (min run.len g.ww)
  | .intermediate => GlyphDst s g (min run.len g.ww) ∧ GlyphCov s g g.p (min run.len g.ww)

/-- The pixels of an emitted run (R219 to R221): a Transparent one leaves every byte. -/
def EmitPixels (s : State) (g : Rle) (run : Run) (f h : Nat → Byte) : Prop :=
  match run.tag with
  | .transparent => ∀ x, h x = f x
  | .solid => ∀ j, j < min run.len g.ww →
      GlyphPixel s g.mode (addrPlus s.cfg g.dp (j * s.regs.dst.n)) true 0 f h
  | .intermediate => ∀ j, j < min run.len g.ww →
      GlyphPixel s g.mode (addrPlus s.cfg g.dp (j * s.regs.dst.n)) false (f (addrPlus s.cfg g.p j)) f h

/-- The outcome of emitting a run of `L = min(len, rle.ww)` pixels (R214, R218 to R222). -/
def Emitted (s : State) (g : Rle) (run : Run) (o : Host.Outcome State Fault Refusal) : Prop :=
  ∃ m, o = .next ((s.setPx m).proceed (.glyph { g with
      dp := addrPlus s.cfg g.dp (min run.len g.ww * s.regs.dst.n)
      p := if run.tag = .intermediate then addrPlus s.cfg g.p (min run.len g.ww) else g.p
      ww := g.ww - min run.len g.ww
      pend := none
      phase := if run.eol then .rowEnd else .emit })) ∧
    EmitPixels s g run s.px.byte m.byte ∧
    KeepsOutside s.cfg g.dp (min run.len g.ww * s.regs.dst.n) s.px.byte m.byte

/-! ## Instructions and registers -/

/-- `i` is a Transparent, Solid or Intermediate header, and `run` is the run it stands for when `extend` is pending (R91 to
R93). -/
def HeaderRun (i : Instr) (extend : Nat) (run : Run) : Prop :=
  (∃ f, i = .runTransparent f ∧ run = ⟨.transparent, f + 1 + extend * 64, false⟩) ∨
  (∃ f eol, i = .runSolid f eol ∧ run = ⟨.solid, f + 1 + extend * 32, eol⟩) ∨
  (∃ f eol, i = .runIntermediate f eol ∧ run = ⟨.intermediate, f + 1 + extend * 32, eol⟩)

/-- The stored bits of a read-write register of R23, by its offset; none where R23 lists no such register. -/
def storedBits (p : Params) (off : Nat) : Option Nat :=
  if off = 0x008 ∨ off = 0x054 then some 2
  else if off = 0x014 then some 10
  else if off = 0x050 ∨ off = 0x058 ∨ (0x100 ≤ off ∧ off < 0x200 ∧ off % 4 = 0) then some 8
  else if off = 0x218 ∨ off = 0x238 ∨ off = 0x258 then some 9
  else if off ∈ [0x040, 0x044, 0x048, 0x200, 0x220, 0x240, 0x280, 0x284, 0x288] then some p.addrW
  else if off ∈ [0x020, 0x024, 0x028, 0x02C, 0x04C, 0x204, 0x208, 0x20C, 0x210, 0x214, 0x224, 0x228, 0x22C, 0x230, 0x234,
      0x244, 0x248, 0x24C, 0x250, 0x254, 0x260, 0x264, 0x268, 0x26C, 0x28C, 0x290, 0x294, 0x298] then some 32
  else none

/-- The read-only and write-only registers of R23 and `STATUS`. -/
def specialOffset (off : Nat) : Bool := decide (off ∈ [0x000, 0x004, 0x00C, 0x010, 0x030])

/-! ## Paint commands -/

/-- A descriptor with a dimension the block rejects (R35). -/
abbrev Desc.Malformed (d : Desc) : Prop := d.width.getLsbD 31 = true ∨ d.height.getLsbD 31 = true

/-- A channel count in range (R255). -/
abbrev CountLegal (p : Params) (n : Nat) : Prop := 1 ≤ n ∧ n ≤ p.maxChannels

/-- The byte address of the pixel at device position `(x, y)` (R192). -/
def pixelAddr (p : Params) (d : Desc) (x y : Int) : Nat :=
  ((d.base.toNat + (y - d.y.toInt) * d.stride.toNat + (x - d.x.toInt) * d.n) % (2 ^ p.addrW : Nat)).toNat

/-- What a `PAINT_OVER*` command whose shapes are right does with its rectangle (R194 to R198): nothing where it is empty,
`UNSUPPORTED` where no family serves, else the first row of the rectangle is given to the selected kernel. `descs` are the
descriptors of the command and `mp` is its mask pointer; where no mask is present `mp` is the model's 0 (log 30). -/
def PaintsRect (s : State) (rect : Rect) (descs : List Desc) (k : Fam → Nat) (mp : Nat)
    (o : Host.Outcome State Fault Refusal) : Prop :=
  (rect.x1 ≤ rect.x0 ∨ rect.y1 ≤ rect.y0 → o = .next s.finish) ∧
  (rect.x0 < rect.x1 → rect.y0 < rect.y1 → famSel s.cfg s.regs.dst.colors = none → o = .next (s.raise .unsupported)) ∧
  (rect.x0 < rect.x1 → rect.y0 < rect.y1 → ∀ f, famSel s.cfg s.regs.dst.colors = some f →
    (∀ d ∈ descs, d.stop s.cfg = none) →
    o = .next (s.proceed (.spans {
      k := BitVec.ofNat 10 (k f)
      n := s.regs.dst.n
      y := rect.y0
      i := 0
      dp := pixelAddr s.cfg s.regs.dst rect.x0 rect.y0
      sp := pixelAddr s.cfg s.regs.src rect.x0 rect.y0
      mp := mp
      w := (rect.x1 - rect.x0).toNat
      rect := rect })))

/-- A buffer's stride is below its row width (R35, U5). -/
abbrev Desc.Short (d : Desc) : Prop := d.stride.toNat < dim d.width * d.n

/-- Two different rows of a buffer share a byte (R201, U5). -/
def Desc.RowsShareByte (p : Params) (d : Desc) : Prop :=
  ∃ y y' t u, y < y' ∧ y' < dim d.height ∧ t < dim d.width * d.n ∧ u < dim d.width * d.n ∧
    addrPlus p d.base.toNat (y * d.stride.toNat + t) = addrPlus p d.base.toNat (y' * d.stride.toNat + u)

/-- What a `PAINT_OVER*` command with rows to paint does on a buffer outside the spec's model (U5, log 13): it stops, by the
name of the invariant that fails. -/
def StopsOnBuffers (s : State) (rect : Rect) (descs : List Desc) (o : Host.Outcome State Fault Refusal) : Prop :=
  rect.isEmpty = false → famSel s.cfg s.regs.dst.colors ≠ none →
  ((∃ d ∈ descs, d.Short ∨ d.RowsShareByte s.cfg) → o = .refused .strideTooSmall ∨ o = .refused .rowsShareBytes) ∧
  ((∃ d ∈ descs, d.Short) → (∀ d ∈ descs, ¬ d.RowsShareByte s.cfg) → o = .refused .strideTooSmall) ∧
  ((∃ d ∈ descs, d.RowsShareByte s.cfg) → (∀ d ∈ descs, ¬ d.Short) → o = .refused .rowsShareBytes)

/-! ## Accesses -/

/-- Every access logged at an address is one of the host's (log 11). -/
abbrev Pixmem.OnlyHostAt (m : Pixmem) (a : Nat) : Prop := ∀ k, ⟨a, k⟩ ∈ m.log → k = .hostRead ∨ k = .hostWrite

/-- An access to a byte of pixel memory is refused. -/
abbrev Pixmem.Refuses (m : Pixmem) (p : Params) (k : AccessKind) (a : Nat) (r : Refusal) : Prop :=
  m.touch p k a = .error (.refusal r)

/-! ## Invariants -/

/-- The run decoder reads headers, and every byte it can come to is a backed Extend header that no access so far keeps it
from reading (R231, U2). -/
def State.EndlessExtend (s : State) : Prop :=
  s.inputs = [] ∧ (∃ w g, s.eng = some ⟨w, .glyph g⟩ ∧ g.wantsHeader = true ∧ g.p < 2 ^ s.cfg.addrW) ∧
  ∀ a, a < 2 ^ s.cfg.addrW →
    isBacked s.cfg a = true ∧ (s.px.byte a).toNat % 4 = 0 ∧ s.px.clashAt .srcRead a = none

/-- At most one of `BUSY`, `DONE` and `FAULT` is 1 (R27), and `FCODE` is a code of R250 exactly while `FAULT` is 1. -/
def State.StatusInv (s : State) : Prop :=
  (s.busy = true → s.status.done = false ∧ s.status.fault = false) ∧
  (s.status.done = true → s.status.fault = false) ∧
  (s.status.fault = false → s.status.fcode = 0) ∧
  (s.status.fault = true → 1 ≤ s.status.fcode.toNat ∧ s.status.fcode.toNat ≤ 4)

/-- The address registers hold their stored bits, values below 2^ADDR_W (R23, R40). -/
def Regs.AddrInv (p : Params) (r : Regs) : Prop :=
  r.kern.dptr.toNat < 2 ^ p.addrW ∧ r.kern.sptr.toNat < 2 ^ p.addrW ∧ r.kern.mptr.toNat < 2 ^ p.addrW ∧
  r.dst.base.toNat < 2 ^ p.addrW ∧ r.src.base.toNat < 2 ^ p.addrW ∧ r.msk.base.toNat < 2 ^ p.addrW ∧
  r.glyph.rowtab.toNat < 2 ^ p.addrW ∧ r.glyph.data.toNat < 2 ^ p.addrW ∧ r.glyph.dptr.toNat < 2 ^ p.addrW

/-- A running span is one of a kernel of R88, has a pixel, and lies in a row of its rectangle (R124, R195). -/
def State.SpanInv (s : State) : Prop :=
  ∀ w q, s.eng = some ⟨w, .spans q⟩ →
    (∃ i, decodeKsel q.k = .ok i) ∧ q.i = 0 ∧ 1 ≤ q.w ∧ q.rect.y0 ≤ q.y ∧ q.y < q.rect.y1 ∧ 1 ≤ q.n

end Sys2Proof.Machine
end

