-- ==== Sys2Proof/Certificates/Slice0/Obligations.lean ====
section
/-! DEFINITION. The statements about the model, one `Obligations.<Name>` each. A docstring names the rules of spec/ a
statement formalises, and the log entries of the choices it rests on. -/

section

open Sys2Proof Sys2Proof.Machine

/-! ## Encodings -/

/-- Every well-formed instruction is what its encoding decodes to (R83, R88, R89): no bit of an operand is dropped. -/
def Obligations.DecodeEncode : Prop := ∀ i : Instr, i.wf = true → decode (encode i) = .ok i

/-- A code word that decodes to an instruction is the encoding of that instruction, which is well-formed: each word of
each format has one meaning (R82, R88, R94). -/
def Obligations.EncodeDecode : Prop := ∀ (w : CodeWord) (i : Instr), decode w = .ok i → i.wf = true ∧ encode i = w

/-- R94: every byte is a run header of exactly one kind, with its fields as R89 places them. -/
def Obligations.EveryByteIsAHeader : Prop :=
  ∀ b : Byte,
    (b.toNat % 4 = 0 → decode (.run b) = .ok (.runExtend (b.toNat / 4))) ∧
    (b.toNat % 4 = 1 → decode (.run b) = .ok (.runTransparent (b.toNat / 4))) ∧
    (b.toNat % 4 = 2 → decode (.run b) = .ok (.runSolid (b.toNat / 8) (decide (b.toNat / 4 % 2 = 1)))) ∧
    (b.toNat % 4 = 3 → decode (.run b) = .ok (.runIntermediate (b.toNat / 8) (decide (b.toNat / 4 % 2 = 1))))

/-- Sample words of R83, R88 and R99, one or two of each format. -/
def Obligations.SampleWords : Prop :=
  decode (.cmd 0x00000003#32) = .ok .blend ∧ decode (.cmd 0x00000040#32) = .ok .paintGlyph ∧
  decode (.ksel 0x121#10) = .ok (.kSolidOverwrite .c3) ∧ decode (.ksel 0x13A#10) = .ok (.kOverOpaqueDaSa .c3) ∧
  decode (.run 0x05#8) = .ok (.runTransparent 1) ∧ decode (.run 0x16#8) = .ok (.runSolid 2 true)

/-- The pseudo-items of R99 stand for the length they are written with: each is at most one Extend header and one other
header, both well-formed, and their fields give the length by R91 to R93. -/
def Obligations.PseudoItemsHaveTheirLength : Prop :=
  (∀ len, 1 ≤ len → len ≤ 4096 → ∃ m f, m < 64 ∧ f < 64 ∧ f + 1 + m * 64 = len ∧
    (RunItem.transparent len).headers = (if m = 0 then [] else [.runExtend m]) ++ [.runTransparent f]) ∧
  (∀ len eol, 1 ≤ len → len ≤ 2048 → ∃ m f, m < 64 ∧ f < 32 ∧ f + 1 + m * 32 = len ∧
    (RunItem.solid len eol).headers = (if m = 0 then [] else [.runExtend m]) ++ [.runSolid f eol] ∧
    ∀ cov, (RunItem.intermediate len eol cov).headers =
      (if m = 0 then [] else [.runExtend m]) ++ [.runIntermediate f eol])

/-- R82: a `CMD` write of a word that is no command is accepted and then ends with `ILLEGAL_COMMAND`; no register but
`STATUS` and no byte of pixel memory changes. That the fault comes one step later is the model's choice (logs 6 and 7). -/
def Obligations.IllegalCommandFaults : Prop :=
  ∀ (s : State) (v : Word) (rest : List Event), s.eng = none →
    s.inputs = .host (.write (s.cfg.regBase + 0x010) v) :: .run :: rest →
    v.toNat ∉ [0x00, 0x01, 0x02, 0x03, 0x04, 0x10, 0x11, 0x12, 0x13, 0x20, 0x30, 0x31, 0x32, 0x40] →
    ∃ t, step s = .next t ∧ t.busy = true ∧
      step t = .next { s with
        inputs := rest
        px := { s.px with log := [] }
        status := { s.status with done := false, fault := true, fcode := 3 } }

/-! ## Steps -/

/-- A step with no event before it, or with a `run` event, executes the instruction that stands where the block is: the
accepted command word, the selector of the running span, or the header byte at `rle.p`. With nothing running it waits
(R271). The division of a command into steps is the model's choice (logs 4 and 6). -/
def Obligations.StepRunsFetchedInstruction : Prop :=
  ∀ s u : State, (s.inputs = [] ∧ u = s ∨ ∃ rest, s.inputs = .run :: rest ∧ u = s.setInputs rest) →
    (∀ w i, s.eng = some ⟨w, .start⟩ → decodeCmd w = .ok i → step s = exec i u) ∧
    (∀ w q i, s.eng = some ⟨w, .spans q⟩ → decodeKsel q.k = .ok i → step s = exec i u) ∧
    (∀ w g, s.eng = some ⟨w, .glyph g⟩ → g.wantsHeader = true → step s = exec (decodeRun (s.px.byte g.p)) u) ∧
    (s.eng = none → step s = .next u)

/-! ## Invariants of every step -/

/-- Pixel memory keeps its canonical form: equal memories are equal data. -/
def Obligations.StepKeepsMemoryCanonical : Prop :=
  ∀ s t : State, s.px.wf = true → step s = .next t → t.px.wf = true

/-- At most one of `BUSY`, `DONE` and `FAULT` is 1, and `FCODE` is a code of R250 exactly while `FAULT` is 1 (R27,
R263). -/
def Obligations.StepKeepsStatusExclusive : Prop :=
  ∀ s t : State, s.StatusInv → step s = .next t → t.StatusInv

/-- The address registers keep values below 2^ADDR_W (R23, R40), and no step changes a parameter (R8). -/
def Obligations.StepKeepsAddressRegisters : Prop :=
  ∀ s t : State, s.regs.AddrInv s.cfg → step s = .next t → t.regs.AddrInv t.cfg ∧ t.cfg = s.cfg

/-- The sequencer only ever holds a kernel of R88 with a pixel to do, in a row of its rectangle (R124, R195). -/
def Obligations.StepKeepsSpanLegal : Prop :=
  ∀ s t : State, s.SpanInv → step s = .next t → t.SpanInv

/-- The invariants hold right after reset, for every parameter set (R280). -/
def Obligations.ResetMeetsInvariants : Prop :=
  ∀ p : Params, (State.resetWith p).px.wf = true ∧ (State.resetWith p).StatusInv ∧
    (State.resetWith p).regs.AddrInv p ∧ (State.resetWith p).SpanInv

/-- R48: the block writes no register but `STATUS`, `ALU_R` and `KSEL`; `ALU_R` only by an ALU command that succeeds,
`KSEL` only by a `GET_*` command that succeeds or raises `UNSUPPORTED`. -/
def Obligations.CommandsWriteOnlyTheirRegisters : Prop :=
  ∀ s t : State, s.inputs = [] → step s = .next t →
    t.regs = { s.regs with ksel := t.regs.ksel, alu := { s.regs.alu with r := t.regs.alu.r } } ∧
    (t.regs.alu.r ≠ s.regs.alu.r → t.status.done = true ∧
      ∃ w i, s.eng = some ⟨w, .start⟩ ∧ decodeCmd w = .ok i ∧ i ∈ [Instr.expand, .combine, .blend, .combine2]) ∧
    (t.regs.ksel ≠ s.regs.ksel → (t.status.done = true ∨ t.status.fault = true ∧ t.status.fcode = 1) ∧
      ∃ w i, s.eng = some ⟨w, .start⟩ ∧ decodeCmd w = .ok i ∧
        i ∈ [Instr.getSolidPainter, .getSpanPainter, .getSpanMaskPainter, .getSpanColorPainter])

/-- R252: a step of the block that raises a fault raises it when the command word is executed, before any access to pixel
memory. Pixel memory stays, and every register but `STATUS`; only a `GET_*` command that raises `UNSUPPORTED` sets `KSEL`
to 0. -/
def Obligations.FaultsHaveNoPartialEffects : Prop :=
  ∀ s t : State, s.inputs = [] → s.SpanInv → s.status.fault = false → step s = .next t → t.status.fault = true →
    t.px = s.px ∧ t.eng = none ∧ t.status.done = false ∧ t.status.werr = s.status.werr ∧
    ∃ w, s.eng = some ⟨w, .start⟩ ∧
      (t.regs = s.regs ∨ t.regs = { s.regs with ksel := 0 } ∧ t.status.fcode = 1 ∧
        ∃ i, decodeCmd w = .ok i ∧
          i ∈ [Instr.getSolidPainter, .getSpanPainter, .getSpanMaskPainter, .getSpanColorPainter])

/-! ## Reset -/

/-- R280: after a reset every register reads its reset value, the engine is idle with no internal state, and `IRQ` is 0. -/
def Obligations.ResetState : Prop :=
  ∀ (s t : State) (lost : Option HostOp) (rest : List Event), s.cfg.legal = true → s.inputs = .reset lost :: rest →
    step s = .next t →
    t.eng = none ∧ t.irq = false ∧
    ∀ off, off < 0x1000 → off % 4 = 0 → ∃ u, hostAccess t (.read (s.cfg.regBase + off)) = .next u ∧
      u.hostData = if off = 0x000 then 0x424C4E44
        else if off = 0x004 then BitVec.ofNat 32 (s.cfg.famC1.toNat + 2 * s.cfg.famC3.toNat + 4 * s.cfg.famC4.toNat +
          8 * s.cfg.famGen.toNat + 256 * s.cfg.maxChannels)
        else 0

/-- A reset of an idle block loses the host access it coincides with and leaves pixel memory (R281). A reset of a running
command reports nothing and leaves every byte the command would not have written (R282); it goes through whenever the
command itself would (log 15). The bytes the command would have written are free: nothing is said of them (U9). -/
def Obligations.ResetAndPixelMemory : Prop :=
  ∀ (s : State) (lost : Option HostOp) (rest : List Event), s.inputs = .reset lost :: rest →
    (s.eng = none → ∃ t, step s = .next t ∧ t.regs = Regs.zero ∧ t.status = Status.zero ∧ t.eng = none ∧
      t.px = { s.px with log := [] } ∧ t.inputs = rest) ∧
    (∀ m, s.eng ≠ none → s.px.wf = true → runOut (commandFuel (s.setInputs rest)) (s.setInputs rest) = .ok m →
      ∃ t, step s = .next t ∧ t.regs = Regs.zero ∧ t.status = Status.zero ∧ t.eng = none ∧ t.inputs = rest ∧
        ∀ a, a ∉ m.written → t.px.byte a = s.px.byte a)

/-! ## The host's accesses -/

/-- While the block is idle a write to a read-write register stores the bits R23 gives it and no others, changes no other
register, starts nothing and touches no pixel memory; the register then reads back (R23, R40, R247). A write to a read-only
register (`ID`, `CONFIG`, `ALU_R`) changes nothing and does not set `WERR` (R247). -/
def Obligations.WriteStoresTheRegisterBits : Prop :=
  (∀ (s : State) (off n : Nat) (v : Word), s.eng = none → s.cfg.addrW ≤ 32 → storedBits s.cfg off = some n →
    ∃ t u, hostAccess s (.write (s.cfg.regBase + off) v) = .next t ∧
      hostAccess t (.read (s.cfg.regBase + off)) = .next u ∧ u.hostData.toNat = v.toNat % 2 ^ n ∧
      t.eng = none ∧ t.status = s.status ∧ t.px = s.px ∧ t.cfg = s.cfg ∧
      ∀ off', off' < 0x1000 → off' % 4 = 0 → off' ≠ off → ∀ r r', regAt off' = some r → regAt off = some r' →
        readReg t r = readReg s r) ∧
  (∀ (s : State) (off : Nat) (v : Word), s.eng = none → off ∈ [0x000, 0x004, 0x030] →
    hostAccess s (.write (s.cfg.regBase + off) v) = .next s)

/-- R39: an offset that R23 does not list reads 0, and a write to it is ignored, whether the block runs or not. -/
def Obligations.UnmappedOffsets : Prop :=
  ∀ (s : State) (off : Nat) (v : Word), off < 0x1000 → off % 4 = 0 → storedBits s.cfg off = none →
    specialOffset off = false →
    hostAccess s (.write (s.cfg.regBase + off) v) = .next s ∧
    hostAccess s (.read (s.cfg.regBase + off)) = .next { s with hostData := 0 }

/-- R245: while a command runs, writes to `CTRL` and `STATUS` take effect, writes to unmapped offsets are ignored, and
every other write is dropped and sets `WERR`, also one to a read-only register (log 23). -/
def Obligations.WritesWhileBusy : Prop :=
  ∀ (s : State) (off : Nat) (v : Word), s.eng ≠ none → off < 0x1000 → off % 4 = 0 →
    hostAccess s (.write (s.cfg.regBase + off) v) = .next (
      if off = 0x008 then { s with regs := { s.regs with ctrl := v.extractLsb' 0 2 } }
      else if off = 0x00C then { s with status := {
        done := s.status.done && !v.getLsbD 1
        fault := s.status.fault && !v.getLsbD 2
        werr := s.status.werr && !v.getLsbD 3
        fcode := if v.getLsbD 2 then 0 else s.status.fcode } }
      else if storedBits s.cfg off = none ∧ specialOffset off = false then s
      else { s with status := { s.status with werr := true } })

/-- R246: at any time a write of 1 to bit 1, 2 or 3 of `STATUS` clears `DONE`, `FAULT` with `FCODE`, or `WERR`, a write of
0 leaves them, and nothing else changes. -/
def Obligations.StatusWriteClears : Prop :=
  ∀ (s : State) (v : Word), ∃ t, hostAccess s (.write (s.cfg.regBase + 0x00C) v) = .next t ∧
    t = { s with status := t.status } ∧
    t.status.done = (if v.getLsbD 1 then false else s.status.done) ∧
    t.status.fault = (if v.getLsbD 2 then false else s.status.fault) ∧
    t.status.fcode = (if v.getLsbD 2 then 0 else s.status.fcode) ∧
    t.status.werr = (if v.getLsbD 3 then false else s.status.werr) ∧ t.busy = s.busy

/-- R241: a `CMD` write to an idle block clears `DONE`, `FAULT` and `FCODE`, keeps `WERR`, and makes the block run with
that word; the next step of the block executes the command or raises `ILLEGAL_COMMAND`. That this is a step of its own is the
model's choice (logs 6 and 7). -/
def Obligations.AcceptedCommand : Prop :=
  ∀ (s : State) (v : Word), s.eng = none →
    ∃ t, hostAccess s (.write (s.cfg.regBase + 0x010) v) = .next t ∧
      t.status = { s.status with done := false, fault := false, fcode := 0 } ∧ t.busy = true ∧
      t.eng = some ⟨v, .start⟩ ∧ t.regs = s.regs ∧ t.px = { s.px with log := [] } ∧
      (∀ i, decodeCmd v = .ok i → engineStep t = exec i t) ∧
      (∀ e, decodeCmd v = .error e → engineStep t = .next (t.raise .illegalCommand))

/-- `IRQ` is `(DONE & IE_DONE) | (FAULT & IE_FAULT)` after every write to `CTRL`, at once; acknowledging both bits in
`STATUS`, or an accepted command, makes it 0 (R262). -/
def Obligations.InterruptLevel : Prop :=
  ∀ (s : State) (v : Word),
    (∃ t, hostAccess s (.write (s.cfg.regBase + 0x008) v) = .next t ∧
      (t.irq = true ↔ (s.status.done = true ∧ v.getLsbD 0 = true) ∨ (s.status.fault = true ∧ v.getLsbD 1 = true))) ∧
    (∃ t, hostAccess s (.write (s.cfg.regBase + 0x00C) 0x6) = .next t ∧ t.irq = false) ∧
    (s.eng = none → ∃ t, hostAccess s (.write (s.cfg.regBase + 0x010) v) = .next t ∧ t.irq = false)

/-- The host's bytes of pixel memory at a backed address. While the block is idle a write sets that byte and no other, and a
read returns the byte (R47, R61, R74). While a command runs, a write to a byte the command has accessed and a read of a byte
it has written are refused, every other access goes through, and the command's own access to a byte is refused after a host
access that R75 rules out. That this is a refusal, by the name `hostInterference`, is the model's choice (log 11). -/
def Obligations.HostMemoryBytes : Prop :=
  (∀ (s : State) (a : Nat) (v : Byte), s.eng = none → s.px.wf = true → isBacked s.cfg a = true →
    (∃ t, hostAccess s (.memWrite a v) = .next t ∧ t.px.byte a = v ∧ (∀ x, x ≠ a → t.px.byte x = s.px.byte x) ∧
      t = { s with px := t.px }) ∧
    hostAccess s (.memRead a) = .next { s with hostData := (s.px.byte a).zeroExtend 32 }) ∧
  (∀ (s : State) (a : Nat) (v : Byte), s.eng ≠ none → isBacked s.cfg a = true →
    (¬ s.px.OnlyHostAt a → hostAccess s (.memWrite a v) = .refused .hostInterference) ∧
    (s.px.OnlyHostAt a → s.px.wf = true →
      ∃ t, hostAccess s (.memWrite a v) = .next t ∧ t.px.byte a = v ∧ (∀ x, x ≠ a → t.px.byte x = s.px.byte x) ∧
        t = { s with px := t.px } ∧ t.px.log = ⟨a, .hostWrite⟩ :: s.px.log) ∧
    ((∃ row, ⟨a, .dstWrite row⟩ ∈ s.px.log) → hostAccess s (.memRead a) = .refused .hostInterference) ∧
    ((∀ row, ⟨a, .dstWrite row⟩ ∉ s.px.log) → hostAccess s (.memRead a) = .next { s with
      px := { s.px with log := ⟨a, .hostRead⟩ :: s.px.log }
      hostData := (s.px.byte a).zeroExtend 32 })) ∧
  (∀ (p : Params) (m : Pixmem) (a : Nat) (row : Int), isBacked p a = true →
    (⟨a, .hostWrite⟩ ∈ m.log → ∀ k ∈ [AccessKind.srcRead, .dstRead row, .dstWrite row], ∃ r, m.Refuses p k a r) ∧
    (⟨a, .hostRead⟩ ∈ m.log → ∃ r, m.Refuses p (.dstWrite row) a r) ∧
    (m.OnlyHostAt a →
      (⟨a, .hostWrite⟩ ∈ m.log →
        ∀ k ∈ [AccessKind.srcRead, .dstRead row, .dstWrite row], m.Refuses p k a .hostInterference) ∧
      (⟨a, .hostRead⟩ ∈ m.log → m.Refuses p (.dstWrite row) a .hostInterference)))

/-- What is outside the spec's model stops (the form of each stop is the model's, logs 10 and 12 to 14): a command's or the
host's access outside `MEM_BACKED` (U6), a misaligned register access (U8), a source read of a byte the command has written
and the reverse (U3), an access to a destination byte accessed in another row (U5), and a paint over a buffer whose rows are
narrower than they are wide or share a byte (U5), for every descriptor of each of the three commands. -/
def Obligations.OutsideTheModelStops : Prop :=
  (∀ (p : Params) (m : Pixmem) (k : AccessKind) (a : Nat), isBacked p a = false →
    m.touch p k a = .error (.fault (.unbackedAddress a))) ∧
  (∀ (s : State) (a : Nat) (v : Byte), isBacked s.cfg a = false →
    hostAccess s (.memWrite a v) = .fault (.unbackedAddress a) ∧
    hostAccess s (.memRead a) = .fault (.unbackedAddress a)) ∧
  (∀ (s : State) (off : Nat) (v : Word), off < 0x1000 → off % 4 ≠ 0 →
    hostAccess s (.write (s.cfg.regBase + off) v) = .refused .misalignedRegisterAccess ∧
    hostAccess s (.read (s.cfg.regBase + off)) = .refused .misalignedRegisterAccess) ∧
  (∀ (p : Params) (m : Pixmem) (a : Nat) (row row' : Int), isBacked p a = true →
    (⟨a, .dstWrite row⟩ ∈ m.log →
      (∃ r, m.Refuses p .srcRead a r) ∧ (⟨a, .hostWrite⟩ ∉ m.log → m.Refuses p .srcRead a .bufferOverlap)) ∧
    (⟨a, .srcRead⟩ ∈ m.log →
      (∃ r, m.Refuses p (.dstWrite row) a r) ∧
      ((∀ k, ⟨a, k⟩ ∈ m.log → k = .srcRead) → m.Refuses p (.dstWrite row) a .bufferOverlap)) ∧
    (row ≠ row' →
      (⟨a, .dstRead row⟩ ∈ m.log ∨ ⟨a, .dstWrite row⟩ ∈ m.log → ∃ r, m.Refuses p (.dstWrite row') a r) ∧
      (⟨a, .dstWrite row⟩ ∈ m.log → ∃ r, m.Refuses p (.dstRead row') a r) ∧
      ((∀ k, ⟨a, k⟩ ∈ m.log → k = .dstRead row ∨ k = .dstWrite row) →
        (⟨a, .dstRead row⟩ ∈ m.log ∨ ⟨a, .dstWrite row⟩ ∈ m.log → m.Refuses p (.dstWrite row') a .rowsShareBytes) ∧
        (⟨a, .dstWrite row⟩ ∈ m.log → m.Refuses p (.dstRead row') a .rowsShareBytes)))) ∧
  (∀ (p : Params) (d : Desc), d.stop p = none ↔ ¬ d.Short ∧ ¬ d.RowsShareByte p) ∧
  (∀ s : State, overFault s = none →
    StopsOnBuffers s (overRect s) [s.regs.dst, s.regs.src] (exec .paintOver s) ∧
    StopsOnBuffers s ((overRect s).inter s.regs.clip.rect) [s.regs.dst, s.regs.src] (exec .paintOverClipped s)) ∧
  (∀ s : State, overMaskFault s = none →
    StopsOnBuffers s ((overRect s).inter s.regs.msk.bounds) [s.regs.dst, s.regs.src, s.regs.msk]
      (exec .paintOverMask s))

/-! ## The ALU commands and the cells -/

/-- R105: opcode 0x01. -/
def Obligations.ExpandCommand : Prop :=
  decode (.cmd 0x01) = .ok .expand ∧ ∀ s : State,
    let a := s.regs.alu.a.toInt
    (0 ≤ a ∧ a ≤ 255 → exec .expand s = .next { s with
      regs := { s.regs with alu := { s.regs.alu with r := BitVec.ofInt 32 (a + a / 128) } }
      status := { s.status with done := true }
      eng := none }) ∧
    (¬ (0 ≤ a ∧ a ≤ 255) → exec .expand s = .next { s with
      status := { s.status with fcode := 4, fault := true, done := false }
      eng := none })

/-- R106: opcode 0x02; the quotient is the floor. -/
def Obligations.CombineCommand : Prop :=
  decode (.cmd 0x02) = .ok .combine ∧ ∀ s : State,
    let x := s.regs.alu.a.toInt
    let w := s.regs.alu.b.toInt
    ((-255 ≤ x ∧ x ≤ 256) ∧ (0 ≤ w ∧ w ≤ 256) → exec .combine s = .next { s with
      regs := { s.regs with alu := { s.regs.alu with r := BitVec.ofInt 32 (x * w / 256) } }
      status := { s.status with done := true }
      eng := none }) ∧
    (¬ ((-255 ≤ x ∧ x ≤ 256) ∧ (0 ≤ w ∧ w ≤ 256)) → exec .combine s = .next { s with
      status := { s.status with fcode := 4, fault := true, done := false }
      eng := none })

/-- R107: opcode 0x03. -/
def Obligations.BlendCommand : Prop :=
  decode (.cmd 0x03) = .ok .blend ∧ ∀ s : State,
    let src := s.regs.alu.a.toInt
    let dst := s.regs.alu.b.toInt
    let w := s.regs.alu.c.toInt
    ((0 ≤ src ∧ src ≤ 255) ∧ (0 ≤ dst ∧ dst ≤ 255) ∧ (0 ≤ w ∧ w ≤ 256) → exec .blend s = .next { s with
      regs := { s.regs with alu := { s.regs.alu with r := BitVec.ofInt 32 (dst + (src - dst) * w / 256) } }
      status := { s.status with done := true }
      eng := none }) ∧
    (¬ ((0 ≤ src ∧ src ≤ 255) ∧ (0 ≤ dst ∧ dst ≤ 255) ∧ (0 ≤ w ∧ w ≤ 256)) → exec .blend s = .next { s with
      status := { s.status with fcode := 4, fault := true, done := false }
      eng := none })

/-- R108: opcode 0x04, for both values of `COMBINE2_FUSED`; the sum is not reduced to a byte. -/
def Obligations.Combine2Command : Prop :=
  decode (.cmd 0x04) = .ok .combine2 ∧ ∀ s : State,
    let srcA := s.regs.alu.a.toInt
    let wA := s.regs.alu.b.toInt
    let srcB := s.regs.alu.c.toInt
    let wB := s.regs.alu.d.toInt
    ((0 ≤ srcA ∧ srcA ≤ 255) ∧ (0 ≤ wA ∧ wA ≤ 256) ∧ (0 ≤ srcB ∧ srcB ≤ 255) ∧ (0 ≤ wB ∧ wB ≤ 256) →
      exec .combine2 s = .next { s with
        regs := { s.regs with alu := { s.regs.alu with r := BitVec.ofInt 32 (
          if s.cfg.combine2Fused = true then (srcA * wA + srcB * wB) / 256
          else srcA * wA / 256 + srcB * wB / 256) } }
        status := { s.status with done := true }
        eng := none }) ∧
    (¬ ((0 ≤ srcA ∧ srcA ≤ 255) ∧ (0 ≤ wA ∧ wA ≤ 256) ∧ (0 ≤ srcB ∧ srcB ≤ 255) ∧ (0 ≤ wB ∧ wB ≤ 256)) →
      exec .combine2 s = .next { s with
        status := { s.status with fcode := 4, fault := true, done := false }
        eng := none })

/-- R103: `blend` interpolates from `dst` to `src`; its result lies between the two, so it is a byte. -/
def Obligations.BlendLiesBetween : Prop :=
  ∀ src dst w : Int, 0 ≤ src → src ≤ 255 → 0 ≤ dst → dst ≤ 255 → 0 ≤ w → w ≤ 256 →
    blend src dst w = dst + (src - dst) * w / 256 ∧ min src dst ≤ blend src dst w ∧ blend src dst w ≤ max src dst ∧
    blend src dst 0 = dst ∧ blend src dst 256 = src ∧ blend src src w = src

/-- R122 for `COMBINE2_FUSED = false`, the source's formula: under the premultiplied invariant no sample that `OVER_PIXEL`
blends exceeds 255, so `store8` is the identity. (Fused, the sum can be 256: log 21.) -/
def Obligations.PremultipliedNeverOverflows : Prop :=
  ∀ (p : Params) (s sA d w : Int), p.combine2Fused = false → 0 ≤ s → s ≤ sA → sA ≤ 255 → 0 ≤ d → d ≤ 255 → 0 ≤ w →
    w ≤ 256 →
    (combine (expand sA) w ≠ 0 → 0 ≤ combine2 p s w d (256 - combine (expand sA) w) ∧
      combine2 p s w d (256 - combine (expand sA) w) ≤ 255) ∧
    (w ≠ 0 → 0 ≤ combine2 p s w d (256 - w) ∧ combine2 p s w d (256 - w) ≤ 255)

/-- R244: `NOP` sets `DONE` and nothing else; issued to an idle block it clears `FAULT` and `FCODE` and sets `DONE`, one
step later by the model's choice (logs 6 and 7). -/
def Obligations.NopCommand : Prop :=
  (∀ s : State, exec .nop s = .next { s with status := { s.status with done := true }, eng := none }) ∧
  (∀ (s : State) (rest : List Event), s.eng = none →
    s.inputs = .host (.write (s.cfg.regBase + 0x010) 0) :: .run :: rest →
    ∃ t, step s = .next t ∧ step t = .next { s with
      inputs := rest
      px := { s.px with log := [] }
      status := ⟨true, false, s.status.werr, 0⟩ })

/-! ## Dispatch -/

/-- R174: opcode 0x10. -/
def Obligations.GetSolidPainter : Prop :=
  decode (.cmd 0x10) = .ok .getSolidPainter ∧ ∀ s : State,
    let n := s.regs.kern.n.toNat
    let da := s.regs.kern.flags.getLsbD 0
    let c := n - da.toNat
    let ca := (colorAt s.regs c).toNat
    (¬ CountLegal s.cfg n → exec .getSolidPainter s = .next (s.raise .precondition)) ∧
    (CountLegal s.cfg n → famSel s.cfg c = none →
      exec .getSolidPainter s = .next ((s.setKsel 0).raise .unsupported)) ∧
    (CountLegal s.cfg n → ∀ f, famSel s.cfg c = some f →
      exec .getSolidPainter s = .next (s.setKsel (BitVec.ofNat 10 (
        (if da = true then 0x009
         else if s.cfg.nodaFillPolicy = .alwaysOverwrite then 0x021
         else if ca = 255 then 0x021 else 0x001) + 0x100 * f.code))).finish)

/-- R175, R176 and R177: opcodes 0x11, 0x12 and 0x13. -/
def Obligations.GetSpanPainters : Prop :=
  decode (.cmd 0x11) = .ok .getSpanPainter ∧ decode (.cmd 0x12) = .ok .getSpanMaskPainter ∧
  decode (.cmd 0x13) = .ok .getSpanColorPainter ∧ ∀ s : State,
    let n := s.regs.kern.n.toNat
    let da := (s.regs.kern.flags.getLsbD 0).toNat
    let sa := (s.regs.kern.flags.getLsbD 1).toNat
    let c := n - da
    (¬ CountLegal s.cfg n →
      exec .getSpanPainter s = .next (s.raise .precondition) ∧
      exec .getSpanMaskPainter s = .next (s.raise .precondition) ∧
      exec .getSpanColorPainter s = .next (s.raise .precondition)) ∧
    (CountLegal s.cfg n → famSel s.cfg c = none →
      exec .getSpanPainter s = .next ((s.setKsel 0).raise .unsupported) ∧
      exec .getSpanMaskPainter s = .next ((s.setKsel 0).raise .unsupported) ∧
      exec .getSpanColorPainter s = .next ((s.setKsel 0).raise .unsupported)) ∧
    (CountLegal s.cfg n → ∀ f, famSel s.cfg c = some f →
      exec .getSpanPainter s = .next (s.setKsel (BitVec.ofNat 10 (0x002 + 8 * da + 16 * sa +
        32 * (if s.regs.kern.alpha = 255 then 1 else if s.regs.kern.alpha = 0 then 2 else 0) + 0x100 * f.code))).finish ∧
      exec .getSpanMaskPainter s =
        .next (s.setKsel (BitVec.ofNat 10 (0x003 + 8 * da + 16 * sa + 0x100 * f.code))).finish ∧
      exec .getSpanColorPainter s = .next (s.setKsel (BitVec.ofNat 10 (0x004 + 8 * da + 0x100 * f.code))).finish)

/-- The selector a `GET_*` command leaves is one `RUN_KERNEL` accepts: while `K_N` stays and `K_W` is legal, running it
raises no fault (R174 to R177, R181, R124). `FAMSEL` picks the specialization for the count where it is present, else the
generic family where that is present, and fails otherwise (R171). -/
def Obligations.SelectedKernelRuns : Prop :=
  (∀ (s t u : State) (i : Instr),
    i ∈ [Instr.getSolidPainter, .getSpanPainter, .getSpanMaskPainter, .getSpanColorPainter] →
    exec i s = .next t → t.status.done = true → s.status.done = false →
    u.cfg = t.cfg → u.regs.ksel = t.regs.ksel → u.regs.kern.n = t.regs.kern.n → u.regs.kern.w.getLsbD 31 = false →
    ∃ v, exec .runKernel u = .next v ∧ v.status.fault = u.status.fault) ∧
  (∀ (p : Params) (c : Nat) (f : Fam), famSel p c = some f ↔
    (f = .c1 ∧ c = 1 ∧ p.famC1 = true) ∨ (f = .c3 ∧ c = 3 ∧ p.famC3 = true) ∨ (f = .c4 ∧ c = 4 ∧ p.famC4 = true) ∨
    (f = .gen ∧ p.famGen = true ∧ ¬ (c = 1 ∧ p.famC1 = true) ∧ ¬ (c = 3 ∧ p.famC3 = true) ∧
      ¬ (c = 4 ∧ p.famC4 = true))) ∧
  (∀ (p : Params) (c : Nat), famSel p c = none ↔
    p.famGen = false ∧ ¬ (c = 1 ∧ p.famC1 = true) ∧ ¬ (c = 3 ∧ p.famC3 = true) ∧ ¬ (c = 4 ∧ p.famC4 = true))

/-! ## RUN_KERNEL -/

/-- R124: the tests of `RUN_KERNEL` in their order, then `done` for an empty span, else one span with the operands of the
`K_*` registers. A selector with bit 7 set is malformed whatever its kind is, as U16 has it (log 22). The test is
the command's first step and the span its second (log 6). -/
def Obligations.RunKernelTests : Prop :=
  ∀ s : State,
    let k := s.regs.ksel
    let n := s.regs.kern.n.toNat
    let c := n - (k.getLsbD 3).toNat
    let fam := k.toNat / 256
    let w := s.regs.kern.w.toNat
    let bad1 := s.regs.kern.w.getLsbD 31 = true ∨ k.getLsbD 7 = true ∨ (k.toNat % 8 ≠ 0 ∧ ∀ i, decodeKsel k ≠ .ok i)
    let bad2 := ¬ CountLegal s.cfg n
    let bad3 := k.toNat % 8 = 0
    let bad4 := (fam = 0 ∧ c ≠ 1) ∨ (fam = 1 ∧ c ≠ 3) ∨ (fam = 2 ∧ c ≠ 4)
    let bad5 := (fam = 0 ∧ s.cfg.famC1 = false) ∨ (fam = 1 ∧ s.cfg.famC3 = false) ∨ (fam = 2 ∧ s.cfg.famC4 = false) ∨
      (fam = 3 ∧ s.cfg.famGen = false)
    (bad1 → exec .runKernel s = .next (s.raise .illegalOperand)) ∧
    (¬ bad1 → bad2 → exec .runKernel s = .next (s.raise .precondition)) ∧
    (¬ bad1 → ¬ bad2 → bad3 → exec .runKernel s = .next (s.raise .unsupported)) ∧
    (¬ bad1 → ¬ bad2 → ¬ bad3 → bad4 → exec .runKernel s = .next (s.raise .illegalOperand)) ∧
    (¬ bad1 → ¬ bad2 → ¬ bad3 → ¬ bad4 → bad5 → exec .runKernel s = .next (s.raise .unsupported)) ∧
    (¬ bad1 → ¬ bad2 → ¬ bad3 → ¬ bad4 → ¬ bad5 → w = 0 → exec .runKernel s = .next s.finish) ∧
    (¬ bad1 → ¬ bad2 → ¬ bad3 → ¬ bad4 → ¬ bad5 → w ≠ 0 → exec .runKernel s = .next (s.proceed (.spans {
      k := k
      n := n
      y := 0
      i := 0
      dp := s.regs.kern.dptr.toNat
      sp := s.regs.kern.sptr.toNat
      mp := s.regs.kern.mptr.toNat
      w := w
      rect := ⟨0, w, 0, 1⟩ })))

/-- A `RUN_KERNEL` command whose tests pass and whose regions are ready ends in `done`, having changed nothing but bytes of
its destination span (R124, R155, R243). That it takes two steps, one for the tests and one for the span, is the model's
choice: no rule fixes a number of steps (log 6). -/
def Obligations.RunKernelCompletes : Prop :=
  ∀ s : State, s.inputs = [] → s.eng = some ⟨0x20, .start⟩ → runKernelFault s = none → dim s.regs.kern.w ≠ 0 →
    (let q := runKernelSpan s
     SpanDst s q →
     (kselKind q.k = 2 ∨ kselKind q.k = 3 → SpanSrc s q (q.n - (kselDa q.k).toNat + (q.k.getLsbD 4).toNat)) →
     (kselKind q.k = 3 ∨ kselKind q.k = 4 → SpanMsk s q) →
     ∃ m, Host.Core.run Sys2Proof.core 2 s = .next (s.setPx m).finish ∧
       KeepsOutside s.cfg s.regs.kern.dptr.toNat (dim s.regs.kern.w * s.regs.kern.n.toNat) s.px.byte m.byte)

/-! ## The kernels -/

/-- R130 and R132: a solid fill on a ready span makes every pixel what `COLOR_PIXEL` says for the weight `expand(ca)`, where
`ca` is the color's alpha byte, and changes no other byte; a destination alpha goes toward 255. -/
def Obligations.SolidFill : Prop :=
  ∀ (s : State) (w : Word) (q : Seq) (fam : Fam) (da : Bool), s.eng = some ⟨w, .spans q⟩ → 1 ≤ q.n → SpanDst s q →
    ∃ m, exec (if da then .kSolidDa fam else .kSolidAlpha fam) s = .next (endSpan (s.setPx m) q) ∧
      KeepsOutside s.cfg q.dp (spanLen q * q.n) s.px.byte m.byte ∧
      ∀ j, j < spanLen q → ColorPixel s.cfg (addrPlus s.cfg q.dp (j * q.n))
        (expand (sample (colorAt s.regs (q.n - da.toNat)))) (q.n - da.toNat) da (colorAt s.regs) s.px.byte m.byte

/-- R131: the overwriting fill writes every color byte, whatever the color's alpha byte is. -/
def Obligations.SolidOverwriteFill : Prop :=
  ∀ (s : State) (w : Word) (q : Seq) (fam : Fam), s.eng = some ⟨w, .spans q⟩ → SpanDst s q →
    ∃ m, exec (.kSolidOverwrite fam) s = .next (endSpan (s.setPx m) q) ∧
      KeepsOutside s.cfg q.dp (spanLen q * q.n) s.px.byte m.byte ∧
      ∀ j, j < spanLen q → ∀ k, k < q.n → m.byte (addrPlus s.cfg q.dp (j * q.n + k)) = colorAt s.regs k

/-- R134 to R137: span-over with the plane weight `expand(K_ALPHA)`, for each presence of a destination and a source
alpha. -/
def Obligations.SpanOverGeneral : Prop :=
  ∀ (s : State) (w : Word) (q : Seq) (fam : Fam) (da sa : Bool), s.eng = some ⟨w, .spans q⟩ → 1 ≤ q.n →
    SpanDst s q → SpanSrc s q (q.n - da.toNat + sa.toNat) →
    ∃ m, exec (match da, sa with
        | false, false => .kOverGeneral fam
        | true, false => .kOverGeneralDa fam
        | false, true => .kOverGeneralSa fam
        | true, true => .kOverGeneralDaSa fam) s = .next (endSpan (s.setPx m) q) ∧
      KeepsOutside s.cfg q.dp (spanLen q * q.n) s.px.byte m.byte ∧
      ∀ j, j < spanLen q → OverPixel s.cfg (addrPlus s.cfg q.dp (j * q.n))
        (addrPlus s.cfg q.sp (j * (q.n - da.toNat + sa.toNat))) (expand (sample s.regs.kern.alpha)) (q.n - da.toNat) da sa
        s.px.byte m.byte

/-- R138 to R141: span-over with the weight 256; `K_ALPHA` is not read. -/
def Obligations.SpanOverOpaque : Prop :=
  ∀ (s : State) (w : Word) (q : Seq) (fam : Fam) (da sa : Bool), s.eng = some ⟨w, .spans q⟩ → 1 ≤ q.n →
    SpanDst s q → SpanSrc s q (q.n - da.toNat + sa.toNat) →
    ∃ m, exec (match da, sa with
        | false, false => .kOverOpaque fam
        | true, false => .kOverOpaqueDa fam
        | false, true => .kOverOpaqueSa fam
        | true, true => .kOverOpaqueDaSa fam) s = .next (endSpan (s.setPx m) q) ∧
      KeepsOutside s.cfg q.dp (spanLen q * q.n) s.px.byte m.byte ∧
      ∀ j, j < spanLen q → OverPixel s.cfg (addrPlus s.cfg q.dp (j * q.n))
        (addrPlus s.cfg q.sp (j * (q.n - da.toNat + sa.toNat))) 256 (q.n - da.toNat) da sa s.px.byte m.byte

/-- R142 to R145: the skipping variants end the span with no memory access at all. -/
def Obligations.SpanOverSkip : Prop :=
  ∀ (s : State) (w : Word) (q : Seq) (fam : Fam) (i : Instr), s.eng = some ⟨w, .spans q⟩ →
    i ∈ [Instr.kOverSkip fam, .kOverSkipDa fam, .kOverSkipSa fam, .kOverSkipDaSa fam] →
    exec i s = .next (endSpan s q)

/-- R147 to R150: span-with-mask; the weight of pixel `j` is its expanded mask byte, and a mask byte 0 skips the pixel. -/
def Obligations.SpanMask : Prop :=
  ∀ (s : State) (w : Word) (q : Seq) (fam : Fam) (da sa : Bool), s.eng = some ⟨w, .spans q⟩ → 1 ≤ q.n →
    SpanDst s q → SpanSrc s q (q.n - da.toNat + sa.toNat) → SpanMsk s q →
    ∃ m, exec (match da, sa with
        | false, false => .kMask fam
        | true, false => .kMaskDa fam
        | false, true => .kMaskSa fam
        | true, true => .kMaskDaSa fam) s = .next (endSpan (s.setPx m) q) ∧
      KeepsOutside s.cfg q.dp (spanLen q * q.n) s.px.byte m.byte ∧
      ∀ j, j < spanLen q → OverPixel s.cfg (addrPlus s.cfg q.dp (j * q.n))
        (addrPlus s.cfg q.sp (j * (q.n - da.toNat + sa.toNat)))
        (expand (sample (s.px.byte (addrPlus s.cfg q.mp j)))) (q.n - da.toNat) da sa s.px.byte m.byte

/-- R152 and R153: span-with-solid-color; the weight of pixel `j` is `combine(expand(mask[j]), expand(ca))`. -/
def Obligations.SpanColor : Prop :=
  ∀ (s : State) (w : Word) (q : Seq) (fam : Fam) (da : Bool), s.eng = some ⟨w, .spans q⟩ → 1 ≤ q.n →
    SpanDst s q → SpanMsk s q →
    ∃ m, exec (if da then .kColorDa fam else .kColor fam) s = .next (endSpan (s.setPx m) q) ∧
      KeepsOutside s.cfg q.dp (spanLen q * q.n) s.px.byte m.byte ∧
      ∀ j, j < spanLen q → ColorPixel s.cfg (addrPlus s.cfg q.dp (j * q.n))
        (combine (expand (sample (s.px.byte (addrPlus s.cfg q.mp j))))
          (expand (sample (colorAt s.regs (q.n - da.toNat)))))
        (q.n - da.toNat) da (colorAt s.regs) s.px.byte m.byte

/-- Two selectors that differ in `FAM` only name kernels that do the same (R128). With `K_ALPHA` = 255 the GENERAL and
OPAQUE variants do the same, and with `K_ALPHA` = 0 a GENERAL variant that goes through leaves the bytes a SKIP variant
leaves (R172). -/
def Obligations.VariantsAgree : Prop :=
  (∀ (k k' : BitVec 10) (i i' : Instr), k.toNat % 256 = k'.toNat % 256 → decodeKsel k = .ok i → decodeKsel k' = .ok i' →
    ∀ s : State, exec i s = exec i' s) ∧
  (∀ (s : State) (fam : Fam), s.regs.kern.alpha = 255 →
    exec (.kOverGeneral fam) s = exec (.kOverOpaque fam) s ∧ exec (.kOverGeneralDa fam) s = exec (.kOverOpaqueDa fam) s ∧
    exec (.kOverGeneralSa fam) s = exec (.kOverOpaqueSa fam) s ∧
    exec (.kOverGeneralDaSa fam) s = exec (.kOverOpaqueDaSa fam) s) ∧
  (∀ (s t : State) (fam : Fam) (i : Instr), s.regs.kern.alpha = 0 →
    i ∈ [Instr.kOverGeneral fam, .kOverGeneralDa fam, .kOverGeneralSa fam, .kOverGeneralDaSa fam] → exec i s = .next t →
    ∃ u, exec (.kOverSkip fam) s = .next u ∧ t.px.cells = u.px.cells ∧ t.eng = u.eng ∧ t.status = u.status)

/-- A step of the block changes no byte of pixel memory outside the destination bytes of the span or of the row it is at
(R54, R155, R232), and a step at a command word changes none at all. -/
def Obligations.BlockWritesOnlyDestination : Prop :=
  ∀ s t : State, s.inputs = [] → s.px.wf = true → step s = .next t →
    (∀ w, s.eng = some ⟨w, .start⟩ → t.px = s.px) ∧
    (∀ w q, s.eng = some ⟨w, .spans q⟩ → 1 ≤ q.n →
      KeepsOutside s.cfg q.dp (spanLen q * q.n) s.px.byte t.px.byte) ∧
    (∀ w g, s.eng = some ⟨w, .glyph g⟩ → 1 ≤ s.regs.dst.n →
      KeepsOutside s.cfg g.dp (g.ww * s.regs.dst.n) s.px.byte t.px.byte)

/-! ## The paint commands -/

/-- R196: the tests of `PAINT_OVER` in their order, then its rectangle. That the unused mask pointer of its rows holds 0 is
the model's choice (log 30). -/
def Obligations.PaintOver : Prop :=
  ∀ s : State,
    let d := s.regs.dst
    let r := s.regs.src
    let bad1 := d.Malformed ∨ r.Malformed
    let bad2 := ¬ CountLegal s.cfg d.n ∨ ¬ CountLegal s.cfg r.n
    let bad3 := d.n - d.ha.toNat ≠ r.n - r.ha.toNat
    (bad1 → exec .paintOver s = .next (s.raise .illegalOperand)) ∧
    (¬ bad1 → bad2 → exec .paintOver s = .next (s.raise .precondition)) ∧
    (¬ bad1 → ¬ bad2 → bad3 → exec .paintOver s = .next (s.raise .precondition)) ∧
    (¬ bad1 → ¬ bad2 → ¬ bad3 → PaintsRect s
      ⟨max d.x.toInt r.x.toInt, min (d.x.toInt + d.width.toNat) (r.x.toInt + r.width.toNat),
        max d.y.toInt r.y.toInt, min (d.y.toInt + d.height.toNat) (r.y.toInt + r.height.toNat)⟩ [d, r]
      (fun f => 0x002 + 8 * d.ha.toNat + 16 * r.ha.toNat + 32 * alphaClass s.regs.kern.alpha + 0x100 * f.code) 0
      (exec .paintOver s))

/-- R197: as `PAINT_OVER`, with the clip rectangle intersected. That the unused mask pointer of its rows holds 0 is the
model's choice (log 30). -/
def Obligations.PaintOverClipped : Prop :=
  ∀ s : State,
    let d := s.regs.dst
    let r := s.regs.src
    let k := s.regs.clip
    let bad1 := d.Malformed ∨ r.Malformed
    let bad2 := ¬ CountLegal s.cfg d.n ∨ ¬ CountLegal s.cfg r.n
    let bad3 := d.n - d.ha.toNat ≠ r.n - r.ha.toNat
    (bad1 → exec .paintOverClipped s = .next (s.raise .illegalOperand)) ∧
    (¬ bad1 → bad2 → exec .paintOverClipped s = .next (s.raise .precondition)) ∧
    (¬ bad1 → ¬ bad2 → bad3 → exec .paintOverClipped s = .next (s.raise .precondition)) ∧
    (¬ bad1 → ¬ bad2 → ¬ bad3 → PaintsRect s
      ⟨max (max d.x.toInt r.x.toInt) k.x0.toInt,
        min (min (d.x.toInt + d.width.toNat) (r.x.toInt + r.width.toNat)) k.x1.toInt,
        max (max d.y.toInt r.y.toInt) k.y0.toInt,
        min (min (d.y.toInt + d.height.toNat) (r.y.toInt + r.height.toNat)) k.y1.toInt⟩ [d, r]
      (fun f => 0x002 + 8 * d.ha.toNat + 16 * r.ha.toNat + 32 * alphaClass s.regs.kern.alpha + 0x100 * f.code) 0
      (exec .paintOverClipped s))

/-- R198: the tests of `PAINT_OVER_MASK` in their order, then its rectangle; the mask's alpha flag is ignored. -/
def Obligations.PaintOverMask : Prop :=
  ∀ s : State,
    let d := s.regs.dst
    let r := s.regs.src
    let k := s.regs.msk
    let bad1 := d.Malformed ∨ r.Malformed ∨ k.Malformed
    let bad2 := ¬ CountLegal s.cfg d.n ∨ ¬ CountLegal s.cfg r.n ∨ ¬ CountLegal s.cfg k.n
    let bad3 := d.n ≠ r.n ∨ k.n ≠ 1 ∨ d.ha ≠ r.ha
    let rect : Rect :=
      ⟨max (max d.x.toInt r.x.toInt) k.x.toInt,
        min (min (d.x.toInt + d.width.toNat) (r.x.toInt + r.width.toNat)) (k.x.toInt + k.width.toNat),
        max (max d.y.toInt r.y.toInt) k.y.toInt,
        min (min (d.y.toInt + d.height.toNat) (r.y.toInt + r.height.toNat)) (k.y.toInt + k.height.toNat)⟩
    (bad1 → exec .paintOverMask s = .next (s.raise .illegalOperand)) ∧
    (¬ bad1 → bad2 → exec .paintOverMask s = .next (s.raise .precondition)) ∧
    (¬ bad1 → ¬ bad2 → bad3 → exec .paintOverMask s = .next (s.raise .precondition)) ∧
    (¬ bad1 → ¬ bad2 → ¬ bad3 → PaintsRect s rect [d, r, k]
      (fun f => 0x003 + 8 * d.ha.toNat + 16 * r.ha.toNat + 0x100 * f.code) (pixelAddr s.cfg k rect.x0 rect.y0)
      (exec .paintOverMask s))

/-- R195: after a span the next row starts, with every pointer derived again from the descriptors; after the last row the
command is done. -/
def Obligations.RowsAdvance : Prop :=
  ∀ (s : State) (w : Word) (q : Seq), s.eng = some ⟨w, .spans q⟩ →
    (q.y + 1 < q.rect.y1 → endSpan s q = { s with eng := some ⟨w, .spans { q with
      y := q.y + 1
      i := 0
      dp := pixelAddr s.cfg s.regs.dst q.rect.x0 (q.y + 1)
      sp := pixelAddr s.cfg s.regs.src q.rect.x0 (q.y + 1)
      mp := if q.k.toNat % 8 = 3 then pixelAddr s.cfg s.regs.msk q.rect.x0 (q.y + 1) else q.mp }⟩ }) ∧
    (q.rect.y1 ≤ q.y + 1 → endSpan s q = { s with status := { s.status with done := true }, eng := none })

/-- R191: the bounds of a descriptor and the intersection of two boxes are computed exactly; intersection is commutative and
associative, and an empty operand gives an empty result. -/
def Obligations.IntersectionLaws : Prop :=
  ∀ a b c : Rect, a.inter b = b.inter a ∧ (a.inter b).inter c = a.inter (b.inter c) ∧
    (a.isEmpty = true ↔ a.x1 ≤ a.x0 ∨ a.y1 ≤ a.y0) ∧
    (a.isEmpty = true → (a.inter b).isEmpty = true ∧ (b.inter a).isEmpty = true) ∧
    a.inter b = ⟨max a.x0 b.x0, min a.x1 b.x1, max a.y0 b.y0, min a.y1 b.y1⟩ ∧
    ∀ d : Desc, d.width.getLsbD 31 = false → d.height.getLsbD 31 = false →
      d.bounds = ⟨d.x.toInt, d.x.toInt + d.width.toNat, d.y.toInt, d.y.toInt + d.height.toNat⟩

/-- R199: the bytes a row of a paint command may write are the samples of the destination pixels of that row inside the
rectangle, each at its address by R50. -/
def Obligations.PaintWritesInsideTheRectangle : Prop :=
  ∀ (s t : State) (w : Word) (q : Seq), s.inputs = [] → s.px.wf = true → s.eng = some ⟨w, .spans q⟩ →
    q.dp = pixelAddr s.cfg s.regs.dst q.rect.x0 q.y → q.i = 0 → q.w = (q.rect.x1 - q.rect.x0).toNat →
    q.n = s.regs.dst.n → 1 ≤ q.n → step s = .next t →
    ∀ a, t.px.byte a ≠ s.px.byte a → ∃ (x : Int) (k : Nat), q.rect.x0 ≤ x ∧ x < q.rect.x1 ∧ k < s.regs.dst.n ∧
      a = addrPlus s.cfg (pixelAddr s.cfg s.regs.dst x q.y) k

/-- R202, row by row: any row of a paint command, whatever the rows before it accessed, and a fresh `RUN_KERNEL` whose
registers hold the row's selector, pointers, length, count and plane alpha leave the same bytes. That the row is one step and
`RUN_KERNEL` two is the model's choice (log 6). -/
def Obligations.PaintRowEqualsRunKernel : Prop :=
  ∀ (s t s' : State) (w : Word) (q : Seq), s.SpanInv → s.inputs = [] → t.inputs = [] → s.eng = some ⟨w, .spans q⟩ →
    t.eng = some ⟨0x20, .start⟩ → t.cfg = s.cfg →
    t.px.cells = s.px.cells → t.px.draws = s.px.draws → t.px.log = [] →
    t.regs.ksel = q.k → t.regs.kern.dptr.toNat = q.dp → t.regs.kern.sptr.toNat = q.sp → t.regs.kern.mptr.toNat = q.mp →
    t.regs.kern.w.toNat = q.w → q.w < 2 ^ 31 → t.regs.kern.n.toNat = q.n → t.regs.kern.alpha = s.regs.kern.alpha →
    t.regs.color = s.regs.color → runKernelFault t = none → step s = .next s' →
    ∃ u, Host.Core.run Sys2Proof.core 2 t = .next u ∧ u.px.cells = s'.px.cells ∧ u.status.done = true ∧ u.eng = none

/-- A `PAINT_OVER` whose tests pass, on buffers whose rows are apart, ends in `done`, having changed nothing but bytes of the
rectangle's rows (R195, R196, R199, R243). That it takes one step for the command and one for each row is the model's choice
(log 6). -/
def Obligations.PaintOverCompletes : Prop :=
  ∀ (s : State) (f : Fam), s.inputs = [] → s.eng = some ⟨0x30, .start⟩ → s.px.wf = true → s.px.log = [] →
    (∀ a, a < 2 ^ s.cfg.addrW → isBacked s.cfg a = true) →
    overFault s = none → (overRect s).isEmpty = false → famSel s.cfg s.regs.dst.colors = some f →
    s.regs.dst.stop s.cfg = none → s.regs.src.stop s.cfg = none →
    (let r := overRect s
     let w := (r.x1 - r.x0).toNat
     let dp := fun y => pixelAddr s.cfg s.regs.dst r.x0 y
     let sp := fun y => pixelAddr s.cfg s.regs.src r.x0 y
     w * s.regs.dst.n ≤ 2 ^ s.cfg.addrW →
     (∀ y y', r.y0 ≤ y → y < r.y1 → r.y0 ≤ y' → y' < r.y1 →
       (y ≠ y' → Apart s.cfg (dp y) (w * s.regs.dst.n) (dp y') (w * s.regs.dst.n)) ∧
       Apart s.cfg (dp y) (w * s.regs.dst.n) (sp y') (w * s.regs.src.n)) →
     ∃ m, Host.Core.run Sys2Proof.core (1 + (r.y1 - r.y0).toNat) s = .next (s.setPx m).finish ∧ m.wf = true ∧
       ∀ a, (∀ y, r.y0 ≤ y → y < r.y1 → ¬ Region s.cfg (dp y) (w * s.regs.dst.n) a) → m.byte a = s.px.byte a)

/-! ## The glyph engine -/

/-- R226: the tests of `PAINT_GLYPH` in their order, the empty geometry, the mode of R227, and the first row, which by the
model's choice later steps decode (log 6). -/
def Obligations.PaintGlyph : Prop :=
  ∀ s : State,
    let g := s.regs.glyph
    let n := s.regs.dst.n
    let c := n - s.regs.dst.ha.toNat
    let ca := colorAt s.regs c
    let bad1 := g.w.getLsbD 31 = true ∨ g.h.getLsbD 31 = true ∨ g.skipx.getLsbD 31 = true ∨ g.skipy.getLsbD 31 = true
    let bad2 := ¬ CountLegal s.cfg n
    let empty := g.w.toNat = 0 ∨ g.h.toNat = 0
    (bad1 → exec .paintGlyph s = .next (s.raise .illegalOperand)) ∧
    (¬ bad1 → bad2 → exec .paintGlyph s = .next (s.raise .precondition)) ∧
    (¬ bad1 → ¬ bad2 → empty → exec .paintGlyph s = .next s.finish) ∧
    (¬ bad1 → ¬ bad2 → ¬ empty → c ≠ 0 → ca = 0 → exec .paintGlyph s = .next s.finish) ∧
    (¬ bad1 → ¬ bad2 → ¬ empty → c ≠ 0 → ca ≠ 0 → famSel s.cfg c = none →
      exec .paintGlyph s = .next (s.raise .unsupported)) ∧
    (¬ bad1 → ¬ bad2 → ¬ empty → c = 0 ∨ ca ≠ 0 ∧ famSel s.cfg c ≠ none →
      ∃ r, exec .paintGlyph s = .next (s.proceed (.glyph r)) ∧ r.r = 0 ∧ r.phase = .rowStart ∧
        r.mode = if c = 0 then .mask else if ca = 255 then .solid else .alpha)

/-- R210 to R212: a row starts by reading the four bytes of its row-table entry in the order of R65. A negative entry
passes the row over; any other sets the decoder up at the row's stream. That this is one step is the model's choice (log 6). -/
def Obligations.GlyphRowStarts : Prop :=
  ∀ (s : State) (w : Word) (g : Rle), s.inputs = [] → s.eng = some ⟨w, .glyph g⟩ → g.phase = .rowStart →
    (let j := s.regs.glyph.skipy.toNat % 2 ^ 31 + g.r
     let a := addrPlus s.cfg s.regs.glyph.rowtab.toNat (4 * j)
     let b := fun i => s.px.byte (addrPlus s.cfg a i)
     let off : Int := match s.cfg.glyphOffsetEndian with
       | .little => (b 3 ++ b 2 ++ b 1 ++ b 0 : BitVec 32).toInt
       | .big => (b 0 ++ b 1 ++ b 2 ++ b 3 : BitVec 32).toInt
     let rowp := addrPlus s.cfg s.regs.glyph.dptr.toNat (g.r * s.regs.dst.stride.toNat)
     Open s.cfg s.px .srcRead a 4 →
     ∃ log, step s = .next ((s.setPx { s.px with log := log }).proceed (.glyph (
       if off < 0 then { g with rowp := rowp, phase := .rowEnd }
       else { g with
         rowp := rowp
         p := ((s.regs.glyph.data.toNat + off) % (2 ^ s.cfg.addrW : Nat)).toNat
         dp := rowp
         extend := 0
         sx := s.regs.glyph.skipx.toNat % 2 ^ 31
         ww := s.regs.glyph.w.toNat % 2 ^ 31
         pend := none
         phase := if 0 < s.regs.glyph.skipx.toNat % 2 ^ 31 then .skip else .emit }))))

/-- R90: an Extend header, in either phase, reads its one byte and sets the pending multiplier, or adds to it under
`EXTEND_CHAIN = ADD`; nothing else of the decoder changes but the stream pointer. -/
def Obligations.ExtendHeader : Prop :=
  ∀ (s : State) (w : Word) (g : Rle) (m : Nat), s.eng = some ⟨w, .glyph g⟩ → g.wantsHeader = true →
    isBacked s.cfg g.p = true → s.px.clashAt .srcRead g.p = none →
    exec (.runExtend m) s = .next ((s.noteRead g.p).proceed (.glyph { g with
      p := addrPlus s.cfg g.p 1
      extend := match s.cfg.extendChain with
        | .replace => m
        | .add => g.extend + m }))

/-- R215 to R217: what a Transparent, Solid or Intermediate header does in the skip phase. A run no longer than the
remaining skip is consumed whole, and ends the row if it has the end-of-line flag; a longer one is cut, its rest becoming
the pending run of the emit phase. -/
def Obligations.SkippedRuns : Prop :=
  ∀ (s : State) (w : Word) (g : Rle) (i : Instr) (run : Run), s.eng = some ⟨w, .glyph g⟩ → g.phase = .skip → 0 < g.sx →
    isBacked s.cfg g.p = true → s.px.clashAt .srcRead g.p = none → HeaderRun i g.extend run →
    (let pay := fun l => if run.tag = .intermediate then addrPlus s.cfg g.p (1 + l) else addrPlus s.cfg g.p 1
     exec i s = .next ((s.noteRead g.p).proceed (.glyph (
       if g.sx < run.len then { g with
         p := pay g.sx
         extend := 0
         pend := some ⟨run.tag, run.len - g.sx, run.eol⟩
         sx := 0
         phase := .emit }
       else if run.eol then { g with p := pay run.len, extend := 0, phase := .rowEnd }
       else if run.len = g.sx then { g with p := pay run.len, extend := 0, sx := 0, phase := .emit }
       else { g with p := pay run.len, extend := 0, sx := g.sx - run.len }))))

/-- R218 to R222, R225, R228: what a Transparent, Solid or Intermediate header does in the emit phase on ready regions, in
each of the decode modes: `min(len, remaining width)` pixels are painted and no other byte changes, and the row ends at the
end-of-line flag. -/
def Obligations.EmittedRuns : Prop :=
  ∀ (s : State) (w : Word) (g : Rle) (i : Instr) (run : Run), s.eng = some ⟨w, .glyph g⟩ → g.phase = .emit →
    0 < g.ww → g.pend = none → 1 ≤ s.regs.dst.n →
    isBacked s.cfg g.p = true → s.px.clashAt .srcRead g.p = none → HeaderRun i g.extend run →
    EmitReady (s.noteRead g.p) { g with p := addrPlus s.cfg g.p 1, extend := 0 } run →
    Emitted (s.noteRead g.p) { g with p := addrPlus s.cfg g.p 1, extend := 0 } run (exec i s)

/-- R229: the transitions of a row that read no header: the exhausted skip, the pending run of a cut run, the exhausted
width, and the row end, which starts the next row or ends the command. That each is one step is the model's choice (log 6). -/
def Obligations.RowTransitions : Prop :=
  ∀ (s : State) (w : Word) (g : Rle), s.inputs = [] → s.eng = some ⟨w, .glyph g⟩ →
    (g.phase = .skip → g.sx = 0 → step s = .next (s.proceed (.glyph { g with phase := .emit }))) ∧
    (g.phase = .emit → g.ww = 0 → step s = .next (s.proceed (.glyph { g with phase := .rowEnd }))) ∧
    (∀ run, g.phase = .emit → 0 < g.ww → g.pend = some run → 1 ≤ s.regs.dst.n → EmitReady s g run →
      Emitted s g run (step s)) ∧
    (g.phase = .rowEnd → g.r + 1 < s.regs.glyph.h.toNat % 2 ^ 31 →
      step s = .next (s.proceed (.glyph { g with r := g.r + 1, phase := .rowStart }))) ∧
    (g.phase = .rowEnd → s.regs.glyph.h.toNat % 2 ^ 31 ≤ g.r + 1 → step s = .next s.finish)

/-- R231, U2: a stream of Extend headers without end keeps the block busy for ever. `EndlessExtend` is kept by every step,
which leaves pixel memory, registers and status, so it holds after any number of steps. That a header is one step is the
model's choice (log 6; see log 25). -/
def Obligations.EndlessExtendStaysBusy : Prop :=
  (∀ s : State, s.EndlessExtend →
    ∃ t, step s = .next t ∧ t.EndlessExtend ∧ t.busy = true ∧ t.px.cells = s.px.cells ∧ t.regs = s.regs ∧
      t.status = s.status) ∧
  (∀ (s : State) (k : Nat), s.EndlessExtend →
    ∃ t, Host.Core.run Sys2Proof.core k s = .next t ∧ t.EndlessExtend ∧ t.busy = true ∧ t.px.cells = s.px.cells)

end
end

