-- ==== Sys2Proof/Laws/Commands.lean ====
section
/-! SUPPORT. The tests of the commands as propositions, and what each shared course of a command answers: the ALU
template, the course of the `GET_*` commands and that of the `PAINT_OVER*` commands. -/

namespace Sys2Proof.Machine

open Sys2Proof

theorem byteOk_iff (v : Int) : byteOk v = true ↔ 0 ≤ v ∧ v ≤ 255 := by simp [byteOk]

theorem weightOk_iff (v : Int) : weightOk v = true ↔ 0 ≤ v ∧ v ≤ 256 := by simp [weightOk]

theorem combineOk_iff (v : Int) : combineOk v = true ↔ -255 ≤ v ∧ v ≤ 256 := by simp [combineOk]

theorem countOk_iff (p : Params) (n : Nat) : countOk p n = true ↔ 1 ≤ n ∧ n ≤ p.maxChannels := by simp [countOk]

theorem rect_empty_iff (r : Rect) : r.isEmpty = true ↔ r.x1 ≤ r.x0 ∨ r.y1 ≤ r.y0 := by simp [Rect.isEmpty]

theorem dim_eq_mod (w : Word) : dim w = w.toNat % 2 ^ 31 := by simp [dim]

/-- A dimension that is not malformed is the whole register (R9, R35). -/
theorem dim_eq_toNat {w : Word} (h : w.getLsbD 31 = false) : dim w = w.toNat := by
  rw [dim_eq_mod]
  have h1 : w.toNat / 2 ^ 31 % 2 = 0 := by
    have : w.toNat.testBit 31 = false := h
    rw [Nat.testBit_eq_decide_div_mod_eq] at this
    have := of_decide_eq_false this
    omega
  have := w.isLt
  omega

theorem dimBad_eq (w : Word) : dimBad w = w.getLsbD 31 := rfl

/-- The address of R192 as the statements write it is the one the sequencer derives. -/
theorem pixelAddr_eq (p : Params) (d : Desc) (x y : Int) : pixelAddr p d x y = d.addr p x y := by
  simp only [pixelAddr, Desc.addr, addrOf, signed, Int.add_assoc]

/-! ## Rows of a buffer -/

/-- Two ranges of `len` bytes, the second `dist` on from the first, share a byte modulo 2^ADDR_W. -/
theorem rowsMeet_iff (p : Params) (b dist len : Nat) : rowsMeet p dist len = true ↔
    ∃ t u, t < len ∧ u < len ∧ addrPlus p b t = addrPlus p b (dist + u) := by
  have hM : 0 < 2 ^ p.addrW := Nat.two_pow_pos _
  simp only [rowsMeet, addrPlus, Bool.or_eq_true, decide_eq_true_eq]
  generalize 2 ^ p.addrW = M at hM ⊢
  have hD : dist % M < M := Nat.mod_lt _ hM
  have hdist := Nat.div_add_mod dist M
  constructor
  · rintro (h | h)
    · refine ⟨dist % M, 0, h, by omega, ?_⟩
      simp [Nat.add_mod]
    · refine ⟨0, M - dist % M, by omega, by omega, ?_⟩
      have : b + (dist + (M - dist % M)) = b + 0 + M * (dist / M + 1) := by
        rw [Nat.mul_add]
        omega
      rw [this, Nat.add_mul_mod_self_left]
  · rintro ⟨t, u, ht, hu, he⟩
    by_contra hn
    obtain ⟨h1, h2⟩ := not_or.1 hn
    have e : dist % M + u = t := by
      have hmod : (b + t) % M = (b + (dist % M + u)) % M := by
        rw [he]
        simp [Nat.add_mod]
      have hmod' : t ≡ dist % M + u [MOD M] := Nat.ModEq.add_left_cancel' b hmod
      have hlt : dist % M + u < M := by omega
      have htM : t < M := by omega
      have := Nat.ModEq.eq_of_lt_of_lt hmod' htM hlt
      omega
    omega

/-- The test of U5 is exact where the stride holds a row. -/
theorem rowsShare_iff (p : Params) (d : Desc) (hs : ¬ d.Short) : d.rowsShare p = true ↔ d.RowsShareByte p := by
  simp only [Desc.Short, Nat.not_lt] at hs
  simp only [Desc.rowsShare, Desc.RowsShareByte, Bool.and_eq_true, decide_eq_true_eq, List.any_eq_true, List.mem_range]
  constructor
  · rintro ⟨-, k, hk, h1, hm⟩
    obtain ⟨t, u, ht, hu, he⟩ := (rowsMeet_iff p d.base.toNat _ _).1 hm
    exact ⟨0, k, t, u, by omega, hk, ht, hu, by simpa using he⟩
  · rintro ⟨y, y', t, u, hy, hy', ht, hu, he⟩
    have hk : y' * d.stride.toNat = y * d.stride.toNat + (y' - y) * d.stride.toNat := by
      rw [← Nat.add_mul]
      congr 1
      omega
    have hst : d.stride.toNat ≤ (y' - y) * d.stride.toNat := Nat.le_mul_of_pos_left _ (by omega)
    have hle : (y' - y) * d.stride.toNat ≤ (dim d.height - 1) * d.stride.toNat := Nat.mul_le_mul_right _ (by omega)
    have he' : addrPlus p (d.base.toNat + y * d.stride.toNat) t =
        addrPlus p (d.base.toNat + y * d.stride.toNat) ((y' - y) * d.stride.toNat + u) := by
      simp only [addrPlus] at he ⊢
      rw [hk] at he
      rw [Nat.add_assoc, he]
      congr 1
      omega
    refine ⟨?_, y' - y, by omega, by omega, (rowsMeet_iff p _ _ _).2 ⟨t, u, ht, hu, he'⟩⟩
    simp only [addrPlus] at he'
    have hdvd : 2 ^ p.addrW ∣ (y' - y) * d.stride.toNat + u - t :=
      (Nat.modEq_iff_dvd' (by omega)).1 (Nat.ModEq.add_left_cancel' _ he')
    have := Nat.le_of_dvd (by omega) hdvd
    omega

/-! ## The ALU commands -/

theorem aluCommand_ok {s : State} {ok : Bool} {v : Int} (h : ok = true) :
    aluCommand s ok v = .next (s.setAluR (BitVec.ofInt 32 v)).finish := by
  subst h
  rfl

theorem aluCommand_bad {s : State} {ok : Bool} {v : Int} (h : ok = false) :
    aluCommand s ok v = .next (s.raise .illegalOperand) := by
  subst h
  rfl

/-! ## The `GET_*` commands -/

theorem getPainter_badCount {s : State} {sel : Nat → Fam → BitVec 10} (h : countOk s.cfg s.regs.kern.count = false) :
    getPainter s sel = .next (s.raise .precondition) := by
  simp [getPainter, h]

theorem getPainter_unsupported {s : State} {sel : Nat → Fam → BitVec 10} (h : countOk s.cfg s.regs.kern.count = true)
    (hf : famSel s.cfg (s.regs.kern.count - s.regs.kern.da.toNat) = none) :
    getPainter s sel = .next ((s.setKsel 0).raise .unsupported) := by
  simp [getPainter, h, hf]

theorem getPainter_selects {s : State} {sel : Nat → Fam → BitVec 10} {f : Fam}
    (h : countOk s.cfg s.regs.kern.count = true)
    (hf : famSel s.cfg (s.regs.kern.count - s.regs.kern.da.toNat) = some f) :
    getPainter s sel = .next (s.setKsel (sel (s.regs.kern.count - s.regs.kern.da.toNat) f)).finish := by
  simp [getPainter, h, hf]

/-! ## The `PAINT_OVER*` commands -/

theorem paintRows_empty {s : State} {rect : Rect} {ds : List Desc} {sel : Fam → BitVec 10} (h : rect.isEmpty = true) :
    paintRows s rect ds sel = .next s.finish := by
  simp [paintRows, h]

theorem paintRows_unsupported {s : State} {rect : Rect} {ds : List Desc} {sel : Fam → BitVec 10}
    (h : rect.isEmpty = false) (hf : famSel s.cfg s.regs.dst.colors = none) :
    paintRows s rect ds sel = .next (s.raise .unsupported) := by
  simp [paintRows, h, hf]

theorem paintRows_starts {s : State} {rect : Rect} {ds : List Desc} {sel : Fam → BitVec 10} {f : Fam}
    (h : rect.isEmpty = false) (hf : famSel s.cfg s.regs.dst.colors = some f)
    (hs : ∀ d ∈ ds, d.stop s.cfg = none) :
    paintRows s rect ds sel = .next (s.proceed (.spans (firstRow s (sel f) rect))) := by
  have : ds.findSome? (fun d => d.stop s.cfg) = none := List.findSome?_eq_none_iff.2 hs
  simp [paintRows, h, hf, this]

end Sys2Proof.Machine
end

