-- ==== Sys2Proof/Laws/State.lean ====
section
/-! SUPPORT. One lemma per field per update of the state, so that no proof unfolds a record update. -/

namespace Sys2Proof.Machine

open Sys2Proof

@[simp] theorem State.setStatus_cfg (s : State) (v : Status) : (s.setStatus v).cfg = s.cfg := rfl
@[simp] theorem State.setStatus_regs (s : State) (v : Status) : (s.setStatus v).regs = s.regs := rfl
@[simp] theorem State.setStatus_status (s : State) (v : Status) : (s.setStatus v).status = v := rfl
@[simp] theorem State.setStatus_eng (s : State) (v : Status) : (s.setStatus v).eng = s.eng := rfl
@[simp] theorem State.setStatus_px (s : State) (v : Status) : (s.setStatus v).px = s.px := rfl
@[simp] theorem State.setStatus_inputs (s : State) (v : Status) : (s.setStatus v).inputs = s.inputs := rfl
@[simp] theorem State.setStatus_hostData (s : State) (v : Status) : (s.setStatus v).hostData = s.hostData := rfl

@[simp] theorem State.setEng_cfg (s : State) (v : Option Engine) : (s.setEng v).cfg = s.cfg := rfl
@[simp] theorem State.setEng_regs (s : State) (v : Option Engine) : (s.setEng v).regs = s.regs := rfl
@[simp] theorem State.setEng_status (s : State) (v : Option Engine) : (s.setEng v).status = s.status := rfl
@[simp] theorem State.setEng_eng (s : State) (v : Option Engine) : (s.setEng v).eng = v := rfl
@[simp] theorem State.setEng_px (s : State) (v : Option Engine) : (s.setEng v).px = s.px := rfl
@[simp] theorem State.setEng_inputs (s : State) (v : Option Engine) : (s.setEng v).inputs = s.inputs := rfl
@[simp] theorem State.setEng_hostData (s : State) (v : Option Engine) : (s.setEng v).hostData = s.hostData := rfl

@[simp] theorem State.setPx_cfg (s : State) (v : Pixmem) : (s.setPx v).cfg = s.cfg := rfl
@[simp] theorem State.setPx_regs (s : State) (v : Pixmem) : (s.setPx v).regs = s.regs := rfl
@[simp] theorem State.setPx_status (s : State) (v : Pixmem) : (s.setPx v).status = s.status := rfl
@[simp] theorem State.setPx_eng (s : State) (v : Pixmem) : (s.setPx v).eng = s.eng := rfl
@[simp] theorem State.setPx_px (s : State) (v : Pixmem) : (s.setPx v).px = v := rfl
@[simp] theorem State.setPx_inputs (s : State) (v : Pixmem) : (s.setPx v).inputs = s.inputs := rfl
@[simp] theorem State.setPx_hostData (s : State) (v : Pixmem) : (s.setPx v).hostData = s.hostData := rfl

@[simp] theorem State.setRegs_cfg (s : State) (v : Regs) : (s.setRegs v).cfg = s.cfg := rfl
@[simp] theorem State.setRegs_regs (s : State) (v : Regs) : (s.setRegs v).regs = v := rfl
@[simp] theorem State.setRegs_status (s : State) (v : Regs) : (s.setRegs v).status = s.status := rfl
@[simp] theorem State.setRegs_eng (s : State) (v : Regs) : (s.setRegs v).eng = s.eng := rfl
@[simp] theorem State.setRegs_px (s : State) (v : Regs) : (s.setRegs v).px = s.px := rfl
@[simp] theorem State.setRegs_inputs (s : State) (v : Regs) : (s.setRegs v).inputs = s.inputs := rfl
@[simp] theorem State.setRegs_hostData (s : State) (v : Regs) : (s.setRegs v).hostData = s.hostData := rfl

@[simp] theorem State.setInputs_cfg (s : State) (v : List Event) : (s.setInputs v).cfg = s.cfg := rfl
@[simp] theorem State.setInputs_regs (s : State) (v : List Event) : (s.setInputs v).regs = s.regs := rfl
@[simp] theorem State.setInputs_status (s : State) (v : List Event) : (s.setInputs v).status = s.status := rfl
@[simp] theorem State.setInputs_eng (s : State) (v : List Event) : (s.setInputs v).eng = s.eng := rfl
@[simp] theorem State.setInputs_px (s : State) (v : List Event) : (s.setInputs v).px = s.px := rfl
@[simp] theorem State.setInputs_inputs (s : State) (v : List Event) : (s.setInputs v).inputs = v := rfl
@[simp] theorem State.setInputs_hostData (s : State) (v : List Event) : (s.setInputs v).hostData = s.hostData := rfl

@[simp] theorem State.setHostData_cfg (s : State) (v : Word) : (s.setHostData v).cfg = s.cfg := rfl
@[simp] theorem State.setHostData_regs (s : State) (v : Word) : (s.setHostData v).regs = s.regs := rfl
@[simp] theorem State.setHostData_status (s : State) (v : Word) : (s.setHostData v).status = s.status := rfl
@[simp] theorem State.setHostData_eng (s : State) (v : Word) : (s.setHostData v).eng = s.eng := rfl
@[simp] theorem State.setHostData_px (s : State) (v : Word) : (s.setHostData v).px = s.px := rfl
@[simp] theorem State.setHostData_inputs (s : State) (v : Word) : (s.setHostData v).inputs = s.inputs := rfl
@[simp] theorem State.setHostData_hostData (s : State) (v : Word) : (s.setHostData v).hostData = v := rfl

@[simp] theorem State.setAluR_cfg (s : State) (v : Word) : (s.setAluR v).cfg = s.cfg := rfl
@[simp] theorem State.setAluR_regs (s : State) (v : Word) : (s.setAluR v).regs = { s.regs with alu := { s.regs.alu with r := v } } := rfl
@[simp] theorem State.setAluR_status (s : State) (v : Word) : (s.setAluR v).status = s.status := rfl
@[simp] theorem State.setAluR_eng (s : State) (v : Word) : (s.setAluR v).eng = s.eng := rfl
@[simp] theorem State.setAluR_px (s : State) (v : Word) : (s.setAluR v).px = s.px := rfl
@[simp] theorem State.setAluR_inputs (s : State) (v : Word) : (s.setAluR v).inputs = s.inputs := rfl
@[simp] theorem State.setAluR_hostData (s : State) (v : Word) : (s.setAluR v).hostData = s.hostData := rfl

@[simp] theorem State.setKsel_cfg (s : State) (v : BitVec 10) : (s.setKsel v).cfg = s.cfg := rfl
@[simp] theorem State.setKsel_regs (s : State) (v : BitVec 10) : (s.setKsel v).regs = { s.regs with ksel := v } := rfl
@[simp] theorem State.setKsel_status (s : State) (v : BitVec 10) : (s.setKsel v).status = s.status := rfl
@[simp] theorem State.setKsel_eng (s : State) (v : BitVec 10) : (s.setKsel v).eng = s.eng := rfl
@[simp] theorem State.setKsel_px (s : State) (v : BitVec 10) : (s.setKsel v).px = s.px := rfl
@[simp] theorem State.setKsel_inputs (s : State) (v : BitVec 10) : (s.setKsel v).inputs = s.inputs := rfl
@[simp] theorem State.setKsel_hostData (s : State) (v : BitVec 10) : (s.setKsel v).hostData = s.hostData := rfl

@[simp] theorem State.accept_cfg (s : State) (v : Word) : (s.accept v).cfg = s.cfg := rfl
@[simp] theorem State.accept_regs (s : State) (v : Word) : (s.accept v).regs = s.regs := rfl
@[simp] theorem State.accept_status (s : State) (v : Word) : (s.accept v).status = { s.status with done := false, fault := false, fcode := 0 } := rfl
@[simp] theorem State.accept_eng (s : State) (v : Word) : (s.accept v).eng = some ⟨v, .start⟩ := rfl
@[simp] theorem State.accept_px (s : State) (v : Word) : (s.accept v).px = { s.px with log := [] } := rfl
@[simp] theorem State.accept_inputs (s : State) (v : Word) : (s.accept v).inputs = s.inputs := rfl
@[simp] theorem State.accept_hostData (s : State) (v : Word) : (s.accept v).hostData = s.hostData := rfl

@[simp] theorem State.finish_cfg (s : State) : (s.finish).cfg = s.cfg := rfl
@[simp] theorem State.finish_regs (s : State) : (s.finish).regs = s.regs := rfl
@[simp] theorem State.finish_status (s : State) : (s.finish).status = { s.status with done := true } := rfl
@[simp] theorem State.finish_eng (s : State) : (s.finish).eng = none := rfl
@[simp] theorem State.finish_px (s : State) : (s.finish).px = s.px := rfl
@[simp] theorem State.finish_inputs (s : State) : (s.finish).inputs = s.inputs := rfl
@[simp] theorem State.finish_hostData (s : State) : (s.finish).hostData = s.hostData := rfl

@[simp] theorem State.raise_cfg (s : State) (c : FaultCode) : (s.raise c).cfg = s.cfg := rfl
@[simp] theorem State.raise_regs (s : State) (c : FaultCode) : (s.raise c).regs = s.regs := rfl
@[simp] theorem State.raise_status (s : State) (c : FaultCode) : (s.raise c).status = { s.status with fcode := c.code, fault := true, done := false } := rfl
@[simp] theorem State.raise_eng (s : State) (c : FaultCode) : (s.raise c).eng = none := rfl
@[simp] theorem State.raise_px (s : State) (c : FaultCode) : (s.raise c).px = s.px := rfl
@[simp] theorem State.raise_inputs (s : State) (c : FaultCode) : (s.raise c).inputs = s.inputs := rfl
@[simp] theorem State.raise_hostData (s : State) (c : FaultCode) : (s.raise c).hostData = s.hostData := rfl

@[simp] theorem State.proceed_cfg (s : State) (act : Activity) : (s.proceed act).cfg = s.cfg := rfl
@[simp] theorem State.proceed_regs (s : State) (act : Activity) : (s.proceed act).regs = s.regs := rfl
@[simp] theorem State.proceed_status (s : State) (act : Activity) : (s.proceed act).status = s.status := rfl
@[simp] theorem State.proceed_eng (s : State) (act : Activity) : (s.proceed act).eng = s.eng.map (fun e => { e with act := act }) := rfl
@[simp] theorem State.proceed_px (s : State) (act : Activity) : (s.proceed act).px = s.px := rfl
@[simp] theorem State.proceed_inputs (s : State) (act : Activity) : (s.proceed act).inputs = s.inputs := rfl
@[simp] theorem State.proceed_hostData (s : State) (act : Activity) : (s.proceed act).hostData = s.hostData := rfl

@[simp] theorem State.finish_busy (s : State) : s.finish.busy = false := rfl
@[simp] theorem State.raise_busy (s : State) (c : FaultCode) : (s.raise c).busy = false := rfl
@[simp] theorem State.accept_busy (s : State) (v : Word) : (s.accept v).busy = true := rfl

@[simp] theorem State.setPx_busy (s : State) (v : Pixmem) : (s.setPx v).busy = s.busy := rfl
@[simp] theorem State.setRegs_busy (s : State) (v : Regs) : (s.setRegs v).busy = s.busy := rfl
@[simp] theorem State.setStatus_busy (s : State) (v : Status) : (s.setStatus v).busy = s.busy := rfl
@[simp] theorem State.setInputs_busy (s : State) (v : List Event) : (s.setInputs v).busy = s.busy := rfl

end Sys2Proof.Machine
end

