-- ==== Sys2Proof/Laws/Memory.lean ====
section
/-! SUPPORT. Pixel memory: a write keeps the canonical form, a read after a write, and what one access can do. -/

namespace Sys2Proof.Machine

open Sys2Proof

/-- Every listed address lies above `a`. -/
def cellsAbove (a : Nat) (cs : List Host.Cell) : Prop := ∀ c ∈ cs, a < c.1

theorem cellsWf_cons (a : Nat) (b : Byte) (cs : List Host.Cell) :
    cellsWf ((a, b) :: cs) = true ↔ b ≠ unlisted ∧ cellsAbove a cs ∧ cellsWf cs = true := by
  simp [cellsWf, cellsAbove, List.all_eq_true, and_assoc]

theorem cellsAbove_consCell {a x : Nat} {cs : List Host.Cell} (v : Byte) (h : a < x) (hc : cellsAbove a cs) :
    cellsAbove a (consCell x v cs) := by
  unfold consCell
  split
  · exact hc
  · intro c hm
    rcases List.mem_cons.1 hm with rfl | hm
    · exact h
    · exact hc c hm

theorem cellsAbove_setCell {a x : Nat} (cs : List Host.Cell) (v : Byte) (h : a < x) (hc : cellsAbove a cs) :
    cellsAbove a (setCell cs x v) := by
  induction cs with
  | nil => exact cellsAbove_consCell v h hc
  | cons c rest ih =>
    obtain ⟨b, w⟩ := c
    have hb : a < b := hc (b, w) (List.mem_cons_self ..)
    have hr : cellsAbove a rest := fun c hm => hc c (List.mem_cons_of_mem _ hm)
    unfold setCell
    split
    · exact cellsAbove_consCell v h hc
    · split
      · exact cellsAbove_consCell v h hr
      · intro c hm
        rcases List.mem_cons.1 hm with rfl | hm
        · exact hb
        · exact ih hr c hm

theorem cellsAbove_trans {a b : Nat} {cs : List Host.Cell} (h : a < b) (hc : cellsAbove b cs) : cellsAbove a cs :=
  fun c hm => Nat.lt_trans h (hc c hm)

theorem cellsWf_consCell {x : Nat} {cs : List Host.Cell} (v : Byte) (ha : cellsAbove x cs) (hw : cellsWf cs = true) :
    cellsWf (consCell x v cs) = true := by
  unfold consCell
  split
  · exact hw
  · rename_i hv
    exact (cellsWf_cons ..).2 ⟨hv, ha, hw⟩

/-- A write keeps the canonical form. -/
theorem cellsWf_setCell (cs : List Host.Cell) (x : Nat) (v : Byte) (h : cellsWf cs = true) :
    cellsWf (setCell cs x v) = true := by
  induction cs with
  | nil => exact cellsWf_consCell v (fun c hm => absurd hm (List.not_mem_nil)) rfl
  | cons c rest ih =>
    obtain ⟨b, w⟩ := c
    obtain ⟨hn, ha, hr⟩ := (cellsWf_cons ..).1 h
    unfold setCell
    split
    · rename_i hlt
      refine cellsWf_consCell v ?_ h
      intro c hm
      rcases List.mem_cons.1 hm with rfl | hm
      · exact hlt
      · exact Nat.lt_trans hlt (ha c hm)
    · split
      · rename_i _ heq
        subst heq
        exact cellsWf_consCell v ha hr
      · rename_i h1 h2
        exact (cellsWf_cons ..).2 ⟨hn, cellsAbove_setCell rest v (by omega) ha, ih hr⟩

theorem cellAt_of_above {a x : Nat} {cs : List Host.Cell} (h : cellsAbove a cs) (hx : x ≤ a) :
    cellAt cs x = unlisted := by
  induction cs with
  | nil => rfl
  | cons c rest ih =>
    obtain ⟨b, w⟩ := c
    have hb : a < b := h (b, w) (List.mem_cons_self ..)
    have hr : cellsAbove a rest := fun c hm => h c (List.mem_cons_of_mem _ hm)
    unfold cellAt
    rw [if_neg (by omega)]
    exact ih hr

theorem cellAt_consCell {x : Nat} {cs : List Host.Cell} (v : Byte) (y : Nat) (ha : cellsAbove x cs) :
    cellAt (consCell x v cs) y = if y = x then v else cellAt cs y := by
  unfold consCell
  split
  · rename_i hv
    split
    · rename_i hy
      subst hy hv
      exact cellAt_of_above ha (Nat.le_refl _)
    · rfl
  · by_cases hy : y = x
    · simp [cellAt, hy]
    · simp [cellAt, hy, Ne.symm hy]

/-- A read after a write: the written byte at its address, every other byte as before (R61). -/
theorem cellAt_setCell (cs : List Host.Cell) (x : Nat) (v : Byte) (y : Nat) (h : cellsWf cs = true) :
    cellAt (setCell cs x v) y = if y = x then v else cellAt cs y := by
  induction cs with
  | nil => exact cellAt_consCell v y (fun c hm => absurd hm (List.not_mem_nil))
  | cons c rest ih =>
    obtain ⟨b, w⟩ := c
    obtain ⟨hn, ha, hr⟩ := (cellsWf_cons ..).1 h
    unfold setCell
    split
    · rename_i hlt
      refine cellAt_consCell v y ?_
      intro c hm
      rcases List.mem_cons.1 hm with rfl | hm
      · exact hlt
      · exact Nat.lt_trans hlt (ha c hm)
    · split
      · rename_i _ heq
        subst heq
        rw [cellAt_consCell v y ha]
        by_cases hy : y = x
        · simp [hy]
        · simp [hy, cellAt, Ne.symm hy]
      · rename_i h1 h2
        unfold cellAt
        split
        · rename_i hb
          rw [if_neg (by omega)]
        · rename_i hb
          exact ih hr

/-! ## One access -/

/-- What `touch` can do: nothing to the bytes, and the log gains the access. -/
theorem touch_ok {p : Params} {k : AccessKind} {a : Nat} {m m' : Pixmem} (h : m.touch p k a = .ok m') :
    isBacked p a = true ∧ m.clashAt k a = none ∧ m' = { m with log := ⟨a, k⟩ :: m.log } := by
  unfold Pixmem.touch at h
  split at h
  · rename_i hb
    split at h
    · cases h
    · rename_i hc
      exact ⟨hb, hc, (Except.ok.inj h).symm⟩
  · cases h

/-- When `touch` goes through. -/
theorem touch_eq {p : Params} {k : AccessKind} {a : Nat} {m : Pixmem} (hb : isBacked p a = true)
    (hc : m.clashAt k a = none) : m.touch p k a = .ok { m with log := ⟨a, k⟩ :: m.log } := by
  simp [Pixmem.touch, hb, hc]

/-- When `touch` is refused. -/
theorem touch_refused {p : Params} {k : AccessKind} {a : Nat} {m : Pixmem} {r : Refusal} (hb : isBacked p a = true)
    (hc : m.clashAt k a = some r) : m.touch p k a = .error (.refusal r) := by
  simp [Pixmem.touch, hb, hc]

/-- Where an access clashes with nothing. -/
theorem clashAt_none_iff {m : Pixmem} {k : AccessKind} {a : Nat} :
    m.clashAt k a = none ↔ ∀ k', ⟨a, k'⟩ ∈ m.log → clash k' k = none := by
  unfold Pixmem.clashAt
  rw [List.findSome?_eq_none_iff]
  constructor
  · intro h k' hk
    simpa using h _ hk
  · rintro h ⟨b, k'⟩ he
    by_cases hb : b = a
    · subst hb
      simpa using h k' he
    · simp [hb]

/-- A logged access that rules an access out makes it clash. -/
theorem clashAt_some {m : Pixmem} {k k' : AccessKind} {a : Nat} (hk : ⟨a, k'⟩ ∈ m.log) (hc : clash k' k ≠ none) :
    ∃ r, m.clashAt k a = some r := by
  cases h : m.clashAt k a with
  | some r => exact ⟨r, rfl⟩
  | none => exact absurd (clashAt_none_iff.1 h k' hk) hc

/-- The clash is `r` where every logged access of the byte gives `r` or none. -/
theorem clashAt_eq {m : Pixmem} {k k' : AccessKind} {a : Nat} {r : Refusal} (hk : ⟨a, k'⟩ ∈ m.log)
    (hc : clash k' k ≠ none) (hall : ∀ k', ⟨a, k'⟩ ∈ m.log → clash k' k = none ∨ clash k' k = some r) :
    m.clashAt k a = some r := by
  obtain ⟨r', hr⟩ := clashAt_some hk hc
  rw [hr]
  obtain ⟨⟨b, k''⟩, he, h⟩ := List.exists_of_findSome?_eq_some hr
  by_cases hb : b = a
  · subst hb
    simp only [if_true] at h
    rcases hall k'' he with h' | h' <;> rw [h'] at h <;> cases h
    rfl
  · simp [hb] at h

/-- What `read` can do: it returns the byte and changes none. -/
theorem read_ok {p : Params} {k : AccessKind} {a : Nat} {m m' : Pixmem} {b : Byte} (h : m.read p k a = .ok (b, m')) :
    b = m.byte a ∧ m' = { m with log := ⟨a, k⟩ :: m.log } := by
  unfold Pixmem.read at h
  split at h
  · rename_i m1 ht
    obtain ⟨-, -, rfl⟩ := touch_ok ht
    cases h
    exact ⟨rfl, rfl⟩
  · cases h

/-- When `read` goes through. -/
theorem read_eq {p : Params} {k : AccessKind} {a : Nat} {m : Pixmem} (hb : isBacked p a = true)
    (hc : m.clashAt k a = none) : m.read p k a = .ok (m.byte a, { m with log := ⟨a, k⟩ :: m.log }) := by
  simp [Pixmem.read, touch_eq hb hc]

/-- What `write` can do: it sets one byte. -/
theorem write_ok {p : Params} {k : AccessKind} {a : Nat} {v : Byte} {m m' : Pixmem} (h : m.write p k a v = .ok m') :
    m' = { m with cells := setCell m.cells a v, log := ⟨a, k⟩ :: m.log } := by
  unfold Pixmem.write at h
  split at h
  · rename_i m1 ht
    obtain ⟨-, -, rfl⟩ := touch_ok ht
    cases h
    rfl
  · cases h

/-- When `write` goes through. -/
theorem write_eq {p : Params} {k : AccessKind} {a : Nat} {v : Byte} {m : Pixmem} (hb : isBacked p a = true)
    (hc : m.clashAt k a = none) :
    m.write p k a v = .ok { m with cells := setCell m.cells a v, log := ⟨a, k⟩ :: m.log } := by
  simp [Pixmem.write, touch_eq hb hc]

@[simp] theorem drawByte_snd_cells (m : Pixmem) : m.drawByte.2.cells = m.cells := rfl

@[simp] theorem drawByte_snd_log (m : Pixmem) : m.drawByte.2.log = m.log := rfl

theorem havocAt_wf (m : Pixmem) (a : Nat) (h : m.wf = true) : (m.havocAt a).wf = true :=
  cellsWf_setCell m.cells a _ h

theorem havocAt_byte (m : Pixmem) (a x : Nat) (h : m.wf = true) (hx : x ≠ a) : (m.havocAt a).byte x = m.byte x := by
  have := cellAt_setCell m.cells a m.drawByte.1 x h
  rw [if_neg hx] at this
  exact this

/-- Free bytes keep the canonical form and every byte that is not listed. -/
theorem havoc_spec (as : List Nat) (m : Pixmem) (h : m.wf = true) :
    (m.havoc as).wf = true ∧ ∀ x, x ∉ as → (m.havoc as).byte x = m.byte x := by
  induction as generalizing m with
  | nil => exact ⟨h, fun _ _ => rfl⟩
  | cons a as ih =>
    obtain ⟨h1, h2⟩ := ih (m.havocAt a) (havocAt_wf m a h)
    refine ⟨h1, fun x hx => ?_⟩
    have hx' : x ≠ a ∧ x ∉ as := by simpa using hx
    exact (h2 x hx'.2).trans (havocAt_byte m a x h hx'.1)

end Sys2Proof.Machine
end

