-- ==== Sys2Proof/Laws/Loops.lean ====
section
/-! SUPPORT. Operations over pixel memory and loops of them: what they leave unchanged (`Within`), and when they go
through (`Clear`). -/

namespace Sys2Proof.Machine

open Sys2Proof

/-! ## Frames -/

/-- From `m` to `m'` the canonical form is kept and no byte outside `B` changes. -/
def Within (B : Nat → Prop) (m m' : Pixmem) : Prop :=
  m.wf = true → m'.wf = true ∧ ∀ x, ¬ B x → m'.byte x = m.byte x

theorem Within.refl (B : Nat → Prop) (m : Pixmem) : Within B m m := fun h => ⟨h, fun _ _ => rfl⟩

theorem Within.trans {B : Nat → Prop} {m m1 m2 : Pixmem} (h1 : Within B m m1) (h2 : Within B m1 m2) :
    Within B m m2 := fun h =>
  have h1 := h1 h
  have h2 := h2 h1.1
  ⟨h2.1, fun x hx => (h2.2 x hx).trans (h1.2 x hx)⟩

theorem Within.mono {B C : Nat → Prop} {m m' : Pixmem} (h : Within B m m') (hs : ∀ x, B x → C x) : Within C m m' :=
  fun hw => ⟨(h hw).1, fun x hx => (h hw).2 x (fun hb => hx (hs x hb))⟩

/-- A change of the log or of the draw counter alone. -/
theorem Within.of_cells {B : Nat → Prop} {m m' : Pixmem} (h : m'.cells = m.cells) : Within B m m' := fun hw =>
  ⟨by simpa [Pixmem.wf, h] using hw, fun x _ => by simp [Pixmem.byte, h]⟩

/-- A write of one byte. -/
theorem Within.of_setCell {B : Nat → Prop} {m m' : Pixmem} {a : Nat} {v : Byte} (ha : B a)
    (h : m'.cells = setCell m.cells a v) : Within B m m' := fun hw =>
  ⟨by rw [Pixmem.wf, h]; exact cellsWf_setCell _ _ _ hw, fun x hx => by
    have hne : x ≠ a := fun e => hx (e ▸ ha)
    simp [Pixmem.byte, h, cellAt_setCell _ _ _ _ hw, hne]⟩

/-- An operation that, when it goes through, changes only bytes of `B`. -/
def Frames (B : Nat → Prop) (f : Pixmem → Except Stop Pixmem) : Prop := ∀ m m', f m = .ok m' → Within B m m'

theorem Frames.mono {B C : Nat → Prop} {f : Pixmem → Except Stop Pixmem} (h : Frames B f) (hs : ∀ x, B x → C x) :
    Frames C f := fun m m' e => (h m m' e).mono hs

/-- A loop changes only what its rounds change. -/
theorem upto_frames {B : Nat → Prop} {f : Nat → Pixmem → Except Stop Pixmem} {n : Nat}
    (h : ∀ k, k < n → Frames B (f k)) : Frames B (upto f n) := by
  induction n with
  | zero =>
    intro m m' e
    cases e
    exact Within.refl B m
  | succ n ih =>
    intro m m' e
    unfold upto at e
    split at e
    · rename_i m1 e1
      exact (ih (fun k hk => h k (by omega)) m m1 e1).trans (h n (by omega) m1 m' e)
    · cases e

/-! ## Going through -/

/-- The accesses logged since the log was `L` are source reads in `S` and destination accesses of one row in `D`. -/
def Touched (row : Int) (D S : Nat → Prop) (L L' : List Access) : Prop :=
  ∃ es, L' = es ++ L ∧
    ∀ e ∈ es, e.kind = .srcRead ∧ S e.addr ∨ (e.kind = .dstRead row ∨ e.kind = .dstWrite row) ∧ D e.addr

theorem Touched.refl (row : Int) (D S : Nat → Prop) (L : List Access) : Touched row D S L L :=
  ⟨[], rfl, fun _ h => absurd h List.not_mem_nil⟩

theorem Touched.cons {row : Int} {D S : Nat → Prop} {L L' : List Access} (h : Touched row D S L L') {e : Access}
    (he : e.kind = .srcRead ∧ S e.addr ∨ (e.kind = .dstRead row ∨ e.kind = .dstWrite row) ∧ D e.addr) :
    Touched row D S L (e :: L') := by
  obtain ⟨es, rfl, h⟩ := h
  refine ⟨e :: es, rfl, fun x hx => ?_⟩
  rcases List.mem_cons.1 hx with rfl | hx
  · exact he
  · exact h x hx

theorem Touched.mono {row : Int} {D S D' S' : Nat → Prop} {L L' : List Access} (h : Touched row D S L L')
    (hD : ∀ x, D x → D' x) (hS : ∀ x, S x → S' x) : Touched row D' S' L L' :=
  let ⟨es, e, h⟩ := h
  ⟨es, e, fun x hx => (h x hx).imp (And.imp_right (hS _)) (And.imp_right (hD _))⟩

/-- Pixel memory in which destination accesses in `D` (of one row) and source reads in `S` go through, and in which no
destination byte is a source byte. `L` is the log at the start of what runs, and nothing else has been accessed since. -/
structure Clear (p : Params) (row : Int) (D S : Nat → Prop) (L : List Access) (m : Pixmem) : Prop where
  wf : m.wf = true
  dstBacked : ∀ a, D a → isBacked p a = true
  srcBacked : ∀ a, S a → isBacked p a = true
  dstRead : ∀ a, D a → m.clashAt (.dstRead row) a = none
  dstWrite : ∀ a, D a → m.clashAt (.dstWrite row) a = none
  srcRead : ∀ a, S a → m.clashAt .srcRead a = none
  apart : ∀ a, D a → ¬ S a
  touched : Touched row D S L m.log

theorem clashAt_cons (m : Pixmem) (e : Access) (k : AccessKind) (a : Nat) :
    Pixmem.clashAt { m with log := e :: m.log } k a =
      (if e.addr = a then clash e.kind k else none).or (m.clashAt k a) := by
  simp [Pixmem.clashAt, List.findSome?_cons]
  cases h : (if e.addr = a then clash e.kind k else none) <;> simp

theorem clashAt_cells (m : Pixmem) (cs : List Host.Cell) (d : Nat) (k : AccessKind) (a : Nat) :
    Pixmem.clashAt ⟨cs, m.log, d⟩ k a = m.clashAt k a := rfl

/-- A destination access leaves the memory clear, whatever it does to the bytes of the destination. -/
theorem Clear.afterDst {p : Params} {row : Int} {D S : Nat → Prop} {L : List Access} {m : Pixmem}
    (h : Clear p row D S L m) {a : Nat}
    (ha : D a) {k : AccessKind} (hk : k = .dstRead row ∨ k = .dstWrite row) {cs : List Host.Cell} {d : Nat}
    (hcs : cellsWf cs = true) : Clear p row D S L ⟨cs, ⟨a, k⟩ :: m.log, d⟩ := by
  refine ⟨hcs, h.dstBacked, h.srcBacked, ?_, ?_, ?_, h.apart, h.touched.cons (Or.inr ⟨hk, ha⟩)⟩
  · intro b hb
    have := h.dstRead b hb
    rw [show (⟨cs, ⟨a, k⟩ :: m.log, d⟩ : Pixmem).clashAt (.dstRead row) b = _ from clashAt_cons m ⟨a, k⟩ _ b, this]
    rcases hk with rfl | rfl <;> simp [clash]
  · intro b hb
    have := h.dstWrite b hb
    rw [show (⟨cs, ⟨a, k⟩ :: m.log, d⟩ : Pixmem).clashAt (.dstWrite row) b = _ from clashAt_cons m ⟨a, k⟩ _ b, this]
    rcases hk with rfl | rfl <;> simp [clash]
  · intro b hb
    have := h.srcRead b hb
    have hne : a ≠ b := fun e => h.apart a ha (e ▸ hb)
    rw [show (⟨cs, ⟨a, k⟩ :: m.log, d⟩ : Pixmem).clashAt .srcRead b = _ from clashAt_cons m ⟨a, k⟩ _ b, this]
    simp [hne]

/-- A source read leaves the memory clear. -/
theorem Clear.afterSrc {p : Params} {row : Int} {D S : Nat → Prop} {L : List Access} {m : Pixmem}
    (h : Clear p row D S L m) {a : Nat}
    (ha : S a) : Clear p row D S L { m with log := ⟨a, .srcRead⟩ :: m.log } := by
  refine ⟨h.wf, h.dstBacked, h.srcBacked, ?_, ?_, ?_, h.apart, h.touched.cons (Or.inl ⟨rfl, ha⟩)⟩
  · intro b hb
    rw [clashAt_cons, h.dstRead b hb]
    simp [clash]
  · intro b hb
    have hne : a ≠ b := fun e => h.apart b hb (e ▸ ha)
    rw [clashAt_cons, h.dstWrite b hb]
    simp [hne]
  · intro b hb
    rw [clashAt_cons, h.srcRead b hb]
    simp [clash]

/-- A free draw leaves the memory clear. -/
theorem Clear.withDraws {p : Params} {row : Int} {D S : Nat → Prop} {L : List Access} {m : Pixmem}
    (h : Clear p row D S L m) (d : Nat) :
    Clear p row D S L { m with draws := d } :=
  ⟨h.wf, h.dstBacked, h.srcBacked, h.dstRead, h.dstWrite, h.srcRead, h.apart, h.touched⟩

/-- An operation that goes through on clear memory, leaves it clear, and relates the bytes before and after by `R`. -/
def Does (p : Params) (row : Int) (D S : Nat → Prop) (R : (Nat → Byte) → (Nat → Byte) → Prop)
    (f : Pixmem → Except Stop Pixmem) : Prop :=
  ∀ L m, Clear p row D S L m → ∃ m', f m = .ok m' ∧ Clear p row D S L m' ∧ R m.byte m'.byte

/-- The bytes after an operation that changes only the bytes of `B`, as `V` says. -/
def Changes (B : Nat → Prop) (V : (Nat → Byte) → (Nat → Byte) → Prop) (f g : Nat → Byte) : Prop :=
  (∀ x, ¬ B x → g x = f x) ∧ V f g

/-- `V` looks at the bytes before only in `S` and `B`, and at the bytes after only in `B`. -/
def Local (S B : Nat → Prop) (V : (Nat → Byte) → (Nat → Byte) → Prop) : Prop :=
  ∀ f g f' g', (∀ x, S x → f x = f' x) → (∀ x, B x → f x = f' x) → (∀ x, B x → g x = g' x) → V f g → V f' g'

/-- A loop whose rounds change disjoint sets of destination bytes: every round has its effect on the bytes the loop
started with, and nothing else changes. -/
theorem upto_does {p : Params} {row : Int} {D S : Nat → Prop} {B : Nat → Nat → Prop}
    {V : Nat → (Nat → Byte) → (Nat → Byte) → Prop} {f : Nat → Pixmem → Except Stop Pixmem} (n : Nat)
    (hB : ∀ k, k < n → ∀ x, B k x → D x) (hdisj : ∀ i k, i < n → k < n → i ≠ k → ∀ x, B i x → ¬ B k x)
    (hloc : ∀ k, k < n → Local S (B k) (V k))
    (hf : ∀ k, k < n → Does p row D S (Changes (B k) (V k)) (f k)) :
    Does p row D S (fun g0 g => (∀ x, (∀ k, k < n → ¬ B k x) → g x = g0 x) ∧ ∀ k, k < n → V k g0 g) (upto f n) := by
  induction n with
  | zero => exact fun L m h => ⟨m, rfl, h, fun _ _ => rfl, fun k hk => absurd hk (Nat.not_lt_zero k)⟩
  | succ n ih =>
    intro L m h
    obtain ⟨m1, e1, h1, hout, hin⟩ := ih (fun k hk => hB k (by omega)) (fun i k hi hk => hdisj i k (by omega) (by omega))
      (fun k hk => hloc k (by omega)) (fun k hk => hf k (by omega)) L m h
    obtain ⟨m2, e2, h2, hout2, hin2⟩ := hf n (by omega) L m1 h1
    have hS : ∀ x, S x → m1.byte x = m.byte x := fun x hx =>
      hout x (fun k hk hb => h.apart x (hB k (by omega) x hb) hx)
    have hBn : ∀ x, B n x → m1.byte x = m.byte x := fun x hx =>
      hout x (fun k hk hb => hdisj k n (by omega) (by omega) (by omega) x hb hx)
    refine ⟨m2, by simp [upto, e1, e2], h2, ?_, ?_⟩
    · intro x hx
      rw [hout2 x (hx n (by omega)), hout x (fun k hk => hx k (by omega))]
    · intro k hk
      by_cases hkn : k = n
      · subst hkn
        exact hloc k hk _ _ _ _ hS hBn (fun _ _ => rfl) hin2
      · have hk' : k < n := by omega
        refine hloc k hk _ _ _ _ (fun _ _ => rfl) (fun _ _ => rfl) (fun x hx => ?_) (hin k hk')
        exact (hout2 x (hdisj k n hk (by omega) hkn x hx)).symm

/-- A loop of operations that go through goes through. -/
theorem upto_through {p : Params} {row : Int} {D S : Nat → Prop} {f : Nat → Pixmem → Except Stop Pixmem} (n : Nat)
    (hf : ∀ k, k < n → Does p row D S (fun _ _ => True) (f k)) : Does p row D S (fun _ _ => True) (upto f n) := by
  induction n with
  | zero => exact fun L m h => ⟨m, rfl, h, trivial⟩
  | succ n ih =>
    intro L m h
    obtain ⟨m1, e1, h1, -⟩ := ih (fun k hk => hf k (by omega)) L m h
    obtain ⟨m2, e2, h2, -⟩ := hf n (by omega) L m1 h1
    exact ⟨m2, by simp [upto, e1, e2], h2, trivial⟩

theorem Does.weaken {p : Params} {row : Int} {D S : Nat → Prop} {R R' : (Nat → Byte) → (Nat → Byte) → Prop}
    {f : Pixmem → Except Stop Pixmem} (h : Does p row D S R f) (hr : ∀ a b, R a b → R' a b) : Does p row D S R' f :=
  fun L m hm => let ⟨m', e, hc, r⟩ := h L m hm; ⟨m', e, hc, hr _ _ r⟩

end Sys2Proof.Machine
end

