-- ==== Sys2Proof/Laws/Pixels.lean ====
section
/-! SUPPORT. The per-pixel mux: what each operation of Pixels.lean leaves unchanged, and what it does on clear memory. -/

namespace Sys2Proof.Machine

open Sys2Proof

theorem store8_stored (p : Params) (v : Int) (m : Pixmem) : Stored p v (store8 p v m).1 := by
  intro h
  unfold store8
  split
  · rfl
  · rename_i hv
    rcases h with h | h
    · exact absurd h hv
    · simp [h]

theorem store8_keeps (p : Params) (v : Int) (m : Pixmem) :
    (store8 p v m).2.cells = m.cells ∧ (store8 p v m).2.log = m.log := by
  unfold store8
  split
  · exact ⟨rfl, rfl⟩
  · split <;> exact ⟨rfl, rfl⟩

/-- A byte computation that leaves bytes and log alone. -/
def Pure (f : Byte → Pixmem → Byte × Pixmem) : Prop := ∀ d m, (f d m).2.cells = m.cells ∧ (f d m).2.log = m.log

theorem store8_pure (p : Params) (g : Byte → Int) : Pure (fun d => store8 p (g d)) := fun d m => store8_keeps p (g d) m

theorem blendTo_pure (t w : Int) : Pure (blendTo t w) := fun _ _ => ⟨rfl, rfl⟩

/-! ## Frames -/

theorem readSrc_ok {p : Params} {a : Nat} {m m' : Pixmem} {b : Byte} (h : readSrc p a m = .ok (b, m')) :
    b = m.byte a ∧ m' = { m with log := ⟨a, .srcRead⟩ :: m.log } := read_ok h

theorem readSrc_within {B : Nat → Prop} {p : Params} {a : Nat} {m m' : Pixmem} {b : Byte}
    (h : readSrc p a m = .ok (b, m')) : Within B m m' := by
  obtain ⟨-, rfl⟩ := readSrc_ok h
  exact Within.of_cells rfl

theorem putDst_frames {B : Nat → Prop} {p : Params} {row : Int} {a : Nat} {v : Byte} (ha : B a) :
    Frames B (putDst p row a v) := fun m m' h => by
  have := write_ok h
  exact Within.of_setCell ha (v := v) (by rw [this])

theorem updateDst_frames {B : Nat → Prop} {p : Params} {row : Int} {a : Nat} {f : Byte → Pixmem → Byte × Pixmem}
    (hf : Pure f) (ha : B a) : Frames B (updateDst p row a f) := fun m m' h => by
  unfold updateDst at h
  split at h
  · rename_i d m1 e1
    obtain ⟨-, rfl⟩ := read_ok e1
    have := write_ok h
    refine Within.of_setCell ha (v := (f d { m with log := ⟨a, .dstRead row⟩ :: m.log }).1) ?_
    rw [this]
    simp [(hf d _).1]
  · cases h

theorem copyByte_frames {B : Nat → Prop} {p : Params} {row : Int} {da sa : Nat} (ha : B da) :
    Frames B (copyByte p row da sa) := fun m m' h => by
  unfold copyByte at h
  split at h
  · rename_i e1
    exact (readSrc_within e1).trans (putDst_frames ha _ _ h)
  · cases h

theorem blendByte_frames {B : Nat → Prop} {p : Params} {row : Int} {w t : Int} {da sa : Nat} (ha : B da) :
    Frames B (blendByte p row w t da sa) := fun m m' h => by
  unfold blendByte at h
  split at h
  · rename_i e1
    exact (readSrc_within e1).trans (updateDst_frames (store8_pure p _) ha _ _ h)
  · cases h

theorem ifAlpha_frames {B : Nat → Prop} {da : Bool} {f : Pixmem → Except Stop Pixmem} (h : da = true → Frames B f) :
    Frames B (ifAlpha da f) := fun m m' e => by
  unfold ifAlpha at e
  split at e
  · rename_i hd
    exact h hd _ _ e
  · cases e
    exact Within.refl B m

theorem srcAlpha_within {B : Nat → Prop} {p : Params} {sa : Bool} {a : Nat} {m m' : Pixmem} {v : Int}
    (h : srcAlpha p sa a m = .ok (v, m')) : Within B m m' := by
  unfold srcAlpha at h
  split at h
  · split at h
    · rename_i e1
      cases h
      exact readSrc_within e1
    · cases h
  · cases h
    exact Within.refl B m

/-- A loop over the color bytes of a pixel and then its alpha byte changes only the pixel. -/
theorem pixelLoop_frames {p : Params} {dp c : Nat} {da : Bool} {f : Nat → Pixmem → Except Stop Pixmem}
    {g : Pixmem → Except Stop Pixmem} (hf : ∀ k, k < c → ∀ B : Nat → Prop, B (addrPlus p dp k) → Frames B (f k))
    (hg : ∀ B : Nat → Prop, B (addrPlus p dp c) → Frames B g) :
    Frames (Region p dp (c + da.toNat))
      (fun m => match upto f c m with
        | .ok m1 => ifAlpha da g m1
        | .error e => .error e) := fun m m' e => by
  dsimp only at e
  split at e
  · rename_i m1 e1
    refine Within.trans (upto_frames (fun k hk => hf k hk _ ⟨k, by omega, rfl⟩) _ _ e1) ?_
    exact ifAlpha_frames (fun hd => hg _ ⟨c, by simp [hd], rfl⟩) _ _ e
  · cases e

theorem rawCopy_frames {p : Params} {row : Int} {dp sp c : Nat} {da : Bool} :
    Frames (Region p dp (c + da.toNat)) (rawCopy p row dp sp c da) :=
  pixelLoop_frames (fun _ _ _ h => copyByte_frames h) (fun _ h => putDst_frames h)

theorem overBlend_frames {p : Params} {row : Int} {dp sp : Nat} {sA w t : Int} {c : Nat} {da : Bool} :
    Frames (Region p dp (c + da.toNat)) (overBlend p row dp sp sA w t c da) :=
  pixelLoop_frames (fun _ _ _ h => blendByte_frames h) (fun _ h => updateDst_frames (store8_pure p _) h)

theorem rawColor_frames {p : Params} {row : Int} {dp c : Nat} {da : Bool} {color : Nat → Byte} :
    Frames (Region p dp (c + da.toNat)) (rawColor p row dp c da color) :=
  pixelLoop_frames (fun _ _ _ h => putDst_frames h) (fun _ h => putDst_frames h)

theorem colorBlend_frames {p : Params} {row : Int} {dp : Nat} {w : Int} {c : Nat} {da : Bool} {color : Nat → Byte} :
    Frames (Region p dp (c + da.toNat)) (colorBlend p row dp w c da color) :=
  pixelLoop_frames (fun _ _ _ h => updateDst_frames (blendTo_pure _ _) h)
    (fun _ h => updateDst_frames (blendTo_pure _ _) h)

/-- `OVER_PIXEL` changes only bytes of its destination pixel. -/
theorem overPixel_frames {p : Params} {row : Int} {dp sp : Nat} {w : Int} {c : Nat} {da sa : Bool} :
    Frames (Region p dp (c + da.toNat)) (overPixel p row dp sp w c da sa) := fun m m' e => by
  unfold overPixel at e
  split at e
  · rename_i e1
    refine (srcAlpha_within e1).trans ?_
    dsimp only at e
    split at e
    · cases e
      exact Within.refl _ _
    · split at e
      · exact rawCopy_frames _ _ e
      · exact overBlend_frames _ _ e
  · cases e

/-- `COLOR_PIXEL` changes only bytes of its destination pixel. -/
theorem colorPixel_frames {p : Params} {row : Int} {dp : Nat} {w : Int} {c : Nat} {da : Bool} {color : Nat → Byte} :
    Frames (Region p dp (c + da.toNat)) (colorPixel p row dp w c da color) := fun m m' e => by
  unfold colorPixel at e
  split at e
  · cases e
    exact Within.refl _ _
  · split at e
    · exact rawColor_frames _ _ e
    · exact colorBlend_frames _ _ e

/-! ## Going through -/

/-- The samples of a pixel lie at different addresses. -/
def pixelApart (p : Params) (dp n : Nat) : Prop :=
  ∀ i k, i < n → k < n → i ≠ k → addrPlus p dp i ≠ addrPlus p dp k

section Does

variable {p : Params} {row : Int} {D S : Nat → Prop}

theorem readSrc_clear {L : List Access} {m : Pixmem} (h : Clear p row D S L m) {a : Nat} (ha : S a) :
    ∃ m', readSrc p a m = .ok (m.byte a, m') ∧ Clear p row D S L m' ∧ m'.byte = m.byte :=
  ⟨_, read_eq (h.srcBacked a ha) (h.srcRead a ha), h.afterSrc ha, rfl⟩

theorem putDst_does {a : Nat} {v : Byte} (ha : D a) :
    Does p row D S (Changes (· = a) (fun _ g => g a = v)) (putDst p row a v) := fun L m h =>
  ⟨_, write_eq (h.dstBacked a ha) (h.dstWrite a ha), h.afterDst ha (Or.inr rfl) (cellsWf_setCell _ _ _ h.wf),
    fun x hx => by simpa [Pixmem.byte, hx] using cellAt_setCell m.cells a v x h.wf,
    by simpa [Pixmem.byte] using cellAt_setCell m.cells a v a h.wf⟩

theorem updateDst_does {a : Nat} (ha : D a) {f : Byte → Pixmem → Byte × Pixmem} (hf : Pure f)
    {F : Byte → Byte → Prop} (hF : ∀ d m, F d (f d m).1) :
    Does p row D S (Changes (· = a) (fun g0 g => F (g0 a) (g a))) (updateDst p row a f) := fun L m h => by
  have hr := read_eq (h.dstBacked a ha) (h.dstRead a ha)
  have h1 : Clear p row D S L { m with log := ⟨a, .dstRead row⟩ :: m.log } := h.afterDst ha (Or.inl rfl) h.wf
  obtain ⟨hc, hl⟩ := hf (m.byte a) { m with log := ⟨a, .dstRead row⟩ :: m.log }
  have hv := hF (m.byte a) { m with log := ⟨a, .dstRead row⟩ :: m.log }
  generalize hm2 : (f (m.byte a) { m with log := ⟨a, .dstRead row⟩ :: m.log }).2 = m2 at hc hl
  generalize hv2 : (f (m.byte a) { m with log := ⟨a, .dstRead row⟩ :: m.log }).1 = v at hv
  obtain ⟨cs, lg, dr⟩ := m2
  simp only at hc hl
  subst hc hl
  have h2 := h1.withDraws dr
  have hput := putDst_does (v := v) ha L _ h2
  obtain ⟨m', e', hc', hout, hin⟩ := hput
  refine ⟨m', ?_, hc', hout, ?_⟩
  · simp only [updateDst, hr, hm2, hv2]
    exact e'
  · simpa only [hin] using hv

/-- A source byte read first: what follows may depend on it. -/
theorem readThen_does {a : Nat} (ha : S a) {g : Byte → Pixmem → Except Stop Pixmem}
    {R : Byte → (Nat → Byte) → (Nat → Byte) → Prop} (hg : ∀ v, Does p row D S (R v) (g v)) :
    Does p row D S (fun f0 f1 => R (f0 a) f0 f1)
      (fun m => match readSrc p a m with
        | .ok (v, m1) => g v m1
        | .error e => .error e) := fun L m h => by
  obtain ⟨m1, e1, h1, hb⟩ := readSrc_clear h ha
  obtain ⟨m2, e2, h2, r⟩ := hg (m.byte a) L m1 h1
  exact ⟨m2, by simp only [e1, e2], h2, by simpa only [hb] using r⟩

theorem skip_does {B : Nat → Prop} {V : (Nat → Byte) → (Nat → Byte) → Prop} (hV : ∀ f, V f f) :
    Does p row D S (Changes B V) .ok := fun _ m h => ⟨m, rfl, h, fun _ _ => rfl, hV m.byte⟩

/-- A loop over the color bytes of a pixel and then its alpha byte, each of which changes its own byte. -/
theorem pixelLoop_does {dp c : Nat} {da : Bool} {f : Nat → Pixmem → Except Stop Pixmem}
    {g : Pixmem → Except Stop Pixmem} {V : Nat → (Nat → Byte) → (Nat → Byte) → Prop}
    (hD : ∀ k, k < c + da.toNat → D (addrPlus p dp k)) (hap : pixelApart p dp (c + da.toNat))
    (hloc : ∀ k, k < c + da.toNat → Local S (· = addrPlus p dp k) (V k))
    (hf : ∀ k, k < c → Does p row D S (Changes (· = addrPlus p dp k) (V k)) (f k))
    (hg : da = true → Does p row D S (Changes (· = addrPlus p dp c) (V c)) g) :
    Does p row D S (Changes (Region p dp (c + da.toNat)) (fun g0 g1 => (∀ k, k < c → V k g0 g1) ∧ (da = true → V c g0 g1)))
      (fun m => match upto f c m with
        | .ok m1 => ifAlpha da g m1
        | .error e => .error e) := fun L m h => by
  have hloop := upto_does (f := f) (B := fun k x => x = addrPlus p dp k) (V := V) c
    (fun k hk x hx => hx ▸ hD k (by omega))
    (fun i k hi hk hne x hi' hk' => hap i k (by omega) (by omega) hne (hi'.symm.trans hk'))
    (fun k hk => hloc k (by omega)) hf
  obtain ⟨m1, e1, h1, hout, hin⟩ := hloop L m h
  cases hd : da with
  | false =>
    refine ⟨m1, by simp [e1, ifAlpha], h1, fun x hx => hout x (fun k hk e => hx ⟨k, by simp; omega, e⟩), hin, by simp⟩
  | true =>
    have hc : c < c + da.toNat := by simp [hd]
    obtain ⟨m2, e2, h2, hout2, hin2⟩ := hg hd L m1 h1
    have hS : ∀ x, S x → m1.byte x = m.byte x := fun x hx =>
      hout x (fun k hk e => h.apart x (e ▸ hD k (by omega)) hx)
    have hA : ∀ x, x = addrPlus p dp c → m1.byte x = m.byte x := fun x hx =>
      hout x (fun k hk e => hap k c (by omega) hc (by omega) (e.symm.trans hx))
    refine ⟨m2, by simp [e1, ifAlpha, e2], h2, ?_, ?_, fun _ => ?_⟩
    · intro x hx
      rw [hout2 x (fun e => hx ⟨c, by simp, e⟩), hout x (fun k hk e => hx ⟨k, by simp; omega, e⟩)]
    · intro k hk
      refine hloc k (by omega) _ _ _ _ (fun _ _ => rfl) (fun _ _ => rfl) (fun x hx => ?_) (hin k hk)
      exact (hout2 x (fun e => hap k c (by omega) hc (by omega) (hx.symm.trans e))).symm
    · exact hloc c hc _ _ _ _ hS hA (fun _ _ => rfl) hin2

/-! ### Samples -/

theorem overSample_local {S : Nat → Prop} {a b : Nat} (ha : S a) {w ew : Int} :
    Local S (· = b) (fun f g => OverSample p (sample (f a)) (f a) w ew (f b) (g b)) :=
  fun f g f' g' hs hf hg hv => by dsimp only at *; rw [← hs a ha, ← hf b rfl, ← hg b rfl]; exact hv

theorem byte_local {S : Nat → Prop} {b : Nat} {F : Byte → Byte → Prop} : Local S (· = b) (fun f g => F (f b) (g b)) :=
  fun f g f' g' _ hf hg hv => by dsimp only at *; rw [← hf b rfl, ← hg b rfl]; exact hv

theorem blendByte_does {w ew : Int} {a b : Nat} (hb : D b) (ha : S a) (h0 : ew ≠ 0) (h1 : ew ≠ 256) :
    Does p row D S (Changes (· = b) (fun f g => OverSample p (sample (f a)) (f a) w ew (f b) (g b)))
      (blendByte p row w (256 - ew) b a) := by
  refine readThen_does ha (R := fun v => Changes (· = b) (fun f g => OverSample p (sample v) v w ew (f b) (g b)))
    (fun v => ?_)
  refine updateDst_does hb (store8_pure p _) (F := fun d x => OverSample p (sample v) v w ew d x) (fun d m => ?_)
  simp only [OverSample, if_neg h0, if_neg h1]
  exact store8_stored p _ m

theorem copyByte_does {w ew : Int} {a b : Nat} (hb : D b) (ha : S a) (h1 : ew = 256) :
    Does p row D S (Changes (· = b) (fun f g => OverSample p (sample (f a)) (f a) w ew (f b) (g b)))
      (copyByte p row b a) := by
  refine readThen_does ha (R := fun v => Changes (· = b) (fun f g => OverSample p (sample v) v w ew (f b) (g b)))
    (fun v => ?_)
  subst h1
  simpa [OverSample] using putDst_does (S := S) (row := row) (p := p) (v := v) hb

/-! ### OVER_PIXEL -/

/-- What `OVER_PIXEL` makes of a pixel, once the source alpha is known. -/
def OverPixelAt (p : Params) (dp sp : Nat) (w sA ew : Int) (c : Nat) (da : Bool) (f g : Nat → Byte) : Prop :=
  (∀ k, k < c → OverSample p (sample (f (addrPlus p sp k))) (f (addrPlus p sp k)) w ew
    (f (addrPlus p dp k)) (g (addrPlus p dp k))) ∧
  (da = true → OverSample p sA 255 w ew (f (addrPlus p dp c)) (g (addrPlus p dp c)))

theorem overPaths_does {dp sp : Nat} {w sA ew : Int} {c : Nat} {da : Bool}
    (hD : ∀ k, k < c + da.toNat → D (addrPlus p dp k)) (hS : ∀ k, k < c → S (addrPlus p sp k))
    (hap : pixelApart p dp (c + da.toNat)) :
    Does p row D S (Changes (Region p dp (c + da.toNat)) (OverPixelAt p dp sp w sA ew c da))
      (fun m => if ew = 0 then .ok m else if ew = 256 then rawCopy p row dp sp c da m
        else overBlend p row dp sp sA w (256 - ew) c da m) := by
  let V : Nat → (Nat → Byte) → (Nat → Byte) → Prop := fun k f g =>
    if k < c then OverSample p (sample (f (addrPlus p sp k))) (f (addrPlus p sp k)) w ew
      (f (addrPlus p dp k)) (g (addrPlus p dp k))
    else OverSample p sA 255 w ew (f (addrPlus p dp c)) (g (addrPlus p dp c))
  have hloc : ∀ k, k < c + da.toNat → Local S (· = addrPlus p dp k) (V k) := by
    intro k hk
    by_cases hkc : k < c
    · simp only [V, if_pos hkc]
      exact overSample_local (hS k hkc)
    · have : k = c := by cases da <;> simp at hk <;> omega
      subst this
      simp only [V, if_neg hkc]
      exact byte_local (F := OverSample p sA 255 w ew)
  have hV : ∀ f g, ((∀ k, k < c → V k f g) ∧ (da = true → V c f g)) → OverPixelAt p dp sp w sA ew c da f g := by
    intro f g ⟨h1, h2⟩
    refine ⟨fun k hk => by simpa [V, hk] using h1 k hk, fun hd => by simpa [V] using h2 hd⟩
  by_cases h0 : ew = 0
  · simp only [h0, if_true]
    exact skip_does (fun f => ⟨fun k _ => by simp [OverSample], fun _ => by simp [OverSample]⟩)
  · by_cases h1 : ew = 256
    · simp only [if_neg h0, if_pos h1]
      refine Does.weaken (pixelLoop_does hD hap hloc (fun k hk => ?_) (fun hd => ?_))
        (fun f g r => ⟨r.1, hV f g r.2⟩)
      · simpa only [V, if_pos hk] using copyByte_does (hD k (by omega)) (hS k hk) h1
      · have := putDst_does (S := S) (p := p) (row := row) (v := (255 : Byte)) (hD c (by simp [hd]))
        simpa [V, OverSample, h1] using this
    · simp only [if_neg h0, if_neg h1]
      refine Does.weaken (pixelLoop_does hD hap hloc (fun k hk => ?_) (fun hd => ?_))
        (fun f g r => ⟨r.1, hV f g r.2⟩)
      · simpa only [V, if_pos hk] using blendByte_does (hD k (by omega)) (hS k hk) h0 h1
      · have := updateDst_does (S := S) (p := p) (row := row) (hD c (by simp [hd]))
          (store8_pure p (fun d => combine2 p sA w (sample d) (256 - ew)))
          (F := OverSample p sA 255 w ew) (fun d m => by
            simp only [OverSample, if_neg h0, if_neg h1]
            exact store8_stored p _ m)
        simpa [V] using this

/-- What `OVER_PIXEL` does on clear memory: the destination pixel becomes what R125 says, nothing else changes. -/
theorem overPixel_does {dp sp : Nat} {w : Int} {c : Nat} {da sa : Bool}
    (hD : ∀ k, k < c + da.toNat → D (addrPlus p dp k)) (hS : ∀ k, k < c + sa.toNat → S (addrPlus p sp k))
    (hap : pixelApart p dp (c + da.toNat)) :
    Does p row D S (Changes (Region p dp (c + da.toNat)) (OverPixel p dp sp w c da sa))
      (overPixel p row dp sp w c da sa) := by
  have hS' : ∀ k, k < c → S (addrPlus p sp k) := fun k hk => hS k (by omega)
  cases sa with
  | false =>
    exact overPaths_does (sA := 255) (ew := w) hD hS' hap
  | true =>
    intro L m h
    obtain ⟨m1, e1, h1, hb⟩ := readSrc_clear h (hS c (by simp))
    obtain ⟨m2, e2, h2, hout, hin⟩ := overPaths_does (row := row) (w := w) (sA := sample (m.byte (addrPlus p sp c)))
      (ew := combine (expand (sample (m.byte (addrPlus p sp c)))) w) hD hS' hap L m1 h1
    rw [hb] at hout hin
    refine ⟨m2, ?_, h2, hout, hin⟩
    simp only [overPixel, srcAlpha, e1, effWeight, if_true]
    exact e2

/-! ### COLOR_PIXEL -/

/-- What `COLOR_PIXEL` does on clear memory: the destination pixel becomes what R126 says, nothing else changes. -/
theorem colorPixel_does {dp : Nat} {w : Int} {c : Nat} {da : Bool} {color : Nat → Byte}
    (hD : ∀ k, k < c + da.toNat → D (addrPlus p dp k)) (hap : pixelApart p dp (c + da.toNat)) :
    Does p row D S (Changes (Region p dp (c + da.toNat)) (ColorPixel p dp w c da color))
      (colorPixel p row dp w c da color) := by
  let V : Nat → (Nat → Byte) → (Nat → Byte) → Prop := fun k f g =>
    g (addrPlus p dp k) = colorSample (if k < c then color k else 255) w (f (addrPlus p dp k))
  have hloc : ∀ k, k < c + da.toNat → Local S (· = addrPlus p dp k) (V k) := fun k _ =>
    byte_local (F := fun d b => b = colorSample (if k < c then color k else 255) w d)
  have hV : ∀ f g, ((∀ k, k < c → V k f g) ∧ (da = true → V c f g)) → ColorPixel p dp w c da color f g := by
    intro f g ⟨h1, h2⟩
    refine ⟨fun k hk => by simpa [V, hk] using h1 k hk, fun hd => by simpa [V] using h2 hd⟩
  unfold colorPixel
  by_cases h0 : w = 0
  · simp only [h0, if_true]
    exact skip_does (fun f => ⟨fun k _ => by simp [colorSample], fun _ => by simp [colorSample]⟩)
  · by_cases h1 : w = 256
    · simp only [if_neg h0, if_pos h1]
      refine Does.weaken (pixelLoop_does hD hap hloc (fun k hk => ?_) (fun hd => ?_))
        (fun f g r => ⟨r.1, hV f g r.2⟩)
      · have := putDst_does (S := S) (p := p) (row := row) (v := color k) (hD k (by omega))
        simpa [V, colorSample, h1, hk] using this
      · have := putDst_does (S := S) (p := p) (row := row) (v := (255 : Byte)) (hD c (by simp [hd]))
        simpa [V, colorSample, h1] using this
    · simp only [if_neg h0, if_neg h1]
      refine Does.weaken (pixelLoop_does hD hap hloc (fun k hk => ?_) (fun hd => ?_))
        (fun f g r => ⟨r.1, hV f g r.2⟩)
      · have := updateDst_does (S := S) (p := p) (row := row) (hD k (by omega)) (blendTo_pure (sample (color k)) w)
          (F := fun d b => b = colorSample (color k) w d) (fun d m => by simp [colorSample, h0, h1, blendTo])
        simpa [V, hk] using this
      · have := updateDst_does (S := S) (p := p) (row := row) (hD c (by simp [hd])) (blendTo_pure 255 w)
          (F := fun d b => b = colorSample 255 w d) (fun d m => by simp [colorSample, h0, h1, blendTo, sample])
        simpa [V] using this

end Does

end Sys2Proof.Machine
end

