-- ==== Sys2Proof/Laws/Spans.lean ====
section
/-! SUPPORT. The span runner: what it leaves unchanged whenever it answers a next state, and what it does on a span whose
regions are ready. -/

namespace Sys2Proof.Machine

open Sys2Proof

/-! ## Addresses -/

theorem addrPlus_addrPlus (p : Params) (a j k : Nat) : addrPlus p (addrPlus p a j) k = addrPlus p a (j + k) := by
  simp [addrPlus, Nat.add_assoc]

theorem addrPlus_lt (p : Params) (a k : Nat) : addrPlus p a k < 2 ^ p.addrW := Nat.mod_lt _ (Nat.two_pow_pos _)

theorem addrPlus_inj {p : Params} {a t u : Nat} (ht : t < 2 ^ p.addrW) (hu : u < 2 ^ p.addrW)
    (h : addrPlus p a t = addrPlus p a u) : t = u := by
  have h1 : (a + t) ≡ (a + u) [MOD 2 ^ p.addrW] := h
  have h2 := Nat.ModEq.add_left_cancel' a h1
  rwa [Nat.ModEq, Nat.mod_eq_of_lt ht, Nat.mod_eq_of_lt hu] at h2

theorem pixel_index_lt {j L n k : Nat} (hj : j < L) (hk : k < n) : j * n + k < L * n := by
  have : (j + 1) * n ≤ L * n := Nat.mul_le_mul_right n hj
  rw [Nat.add_mul] at this
  omega

theorem pixel_index_inj {i j k l n : Nat} (hk : k < n) (hl : l < n) (h : i * n + k = j * n + l) : i = j ∧ k = l := by
  have h1 : (i * n + k) / n = (j * n + l) / n := by rw [h]
  have hn : 0 < n := by omega
  rw [Nat.add_comm, Nat.add_mul_div_right _ _ hn, Nat.add_comm (j * n), Nat.add_mul_div_right _ _ hn,
    Nat.div_eq_of_lt hk, Nat.div_eq_of_lt hl] at h1
  have : i = j := by omega
  subst this
  exact ⟨rfl, by omega⟩

/-- Byte `k` of pixel `j` of a region of `L` pixels lies in the region. -/
theorem region_pixel {p : Params} {base L n j k : Nat} (hj : j < L) (hk : k < n) :
    Region p base (L * n) (addrPlus p (addrPlus p base (j * n)) k) :=
  ⟨j * n + k, pixel_index_lt hj hk, addrPlus_addrPlus ..⟩

theorem region_of_pixel {p : Params} {base L n j x : Nat} (hj : j < L) (h : Region p (addrPlus p base (j * n)) n x) :
    Region p base (L * n) x := by
  obtain ⟨k, hk, rfl⟩ := h
  exact region_pixel hj hk

/-- Two pixels of a region no longer than the address space share no byte. -/
theorem pixels_disjoint {p : Params} {base L n i j x : Nat} (hL : L * n ≤ 2 ^ p.addrW) (hi : i < L) (hj : j < L)
    (hne : i ≠ j) (h : Region p (addrPlus p base (i * n)) n x) : ¬ Region p (addrPlus p base (j * n)) n x := by
  rintro ⟨l, hl, e⟩
  obtain ⟨k, hk, rfl⟩ := h
  rw [addrPlus_addrPlus, addrPlus_addrPlus] at e
  have := addrPlus_inj (Nat.lt_of_lt_of_le (pixel_index_lt hi hk) hL) (Nat.lt_of_lt_of_le (pixel_index_lt hj hl) hL) e
  exact hne (pixel_index_inj hk hl this).1

theorem pixelApart_of_le {p : Params} {dp n : Nat} (h : n ≤ 2 ^ p.addrW) : pixelApart p dp n :=
  fun _ _ hi hk hne e => hne (addrPlus_inj (by omega) (by omega) e)

/-! ## What a span can do -/

/-- What `endSpan` leaves alone. -/
@[simp] theorem endSpan_px (s : State) (q : Seq) : (endSpan s q).px = s.px := by unfold endSpan; split <;> rfl
@[simp] theorem endSpan_regs (s : State) (q : Seq) : (endSpan s q).regs = s.regs := by unfold endSpan; split <;> rfl
@[simp] theorem endSpan_cfg (s : State) (q : Seq) : (endSpan s q).cfg = s.cfg := by unfold endSpan; split <;> rfl
@[simp] theorem endSpan_inputs (s : State) (q : Seq) : (endSpan s q).inputs = s.inputs := by
  unfold endSpan; split <;> rfl
@[simp] theorem endSpan_hostData (s : State) (q : Seq) : (endSpan s q).hostData = s.hostData := by
  unfold endSpan; split <;> rfl

/-- The span runner answers a next state only on a running span, after all its pixels. -/
theorem runSpan_next {op : PixelOp} {s t : State} (h : runSpan op s = .next t) :
    ∃ w q m, s.eng = some ⟨w, .spans q⟩ ∧ upto (op s q) (spanLen q) s.px = .ok m ∧ t = endSpan (s.setPx m) q := by
  unfold runSpan at h
  split at h
  · rename_i w q he
    split at h
    · rename_i m hm
      cases h
      exact ⟨w, q, m, he, hm, rfl⟩
    · rename_i e _
      cases e <;> cases h
  · cases h

/-- A pixel operation that changes only its own destination pixel, of `n` bytes (one byte where `n` is 0, which no command
lets through). -/
def PixelFrames (op : PixelOp) : Prop :=
  ∀ s q j, Frames (Region s.cfg (dstPx s.cfg q j) (max q.n 1)) (op s q j)

theorem PixelFrames.of_pos {op : PixelOp} (h : PixelFrames op) {s : State} {q : Seq} (hn : 1 ≤ q.n) (j : Nat) :
    Frames (Region s.cfg (dstPx s.cfg q j) q.n) (op s q j) := by
  have := h s q j
  rwa [Nat.max_eq_left hn] at this

theorem Region.mono {p : Params} {base l l' x : Nat} (h : Region p base l x) (hl : l ≤ l') : Region p base l' x := by
  obtain ⟨t, ht, e⟩ := h
  exact ⟨t, by omega, e⟩

/-- A span changes nothing but its destination region. -/
theorem runSpan_frame {op : PixelOp} (hop : PixelFrames op) {s t : State} {w : Word} {q : Seq} (hn : 1 ≤ q.n)
    (he : s.eng = some ⟨w, .spans q⟩) (h : runSpan op s = .next t) :
    t.regs = s.regs ∧ t.cfg = s.cfg ∧ t.inputs = s.inputs ∧ t.hostData = s.hostData ∧
      Within (Region s.cfg q.dp (spanLen q * q.n)) s.px t.px := by
  obtain ⟨w', q', m, he', hm, rfl⟩ := runSpan_next h
  have hq : q = q' := by simp_all
  subst hq
  refine ⟨by simp, by simp, by simp, by simp, ?_⟩
  simp only [endSpan_px, State.setPx_px]
  refine upto_frames (fun j hj => ?_) _ _ hm
  exact (hop.of_pos hn j).mono (fun x hx => region_of_pixel hj hx)

theorem spanColors_add {q : Seq} {da : Bool} (h : 1 ≤ q.n) : spanColors q da + da.toNat = q.n := by
  unfold spanColors
  cases da
  · simp
  · simp
    omega

theorem spanColors_le (q : Seq) (da : Bool) : spanColors q da + da.toNat ≤ max q.n 1 := by
  unfold spanColors
  cases da
  · simp
  · simp
    omega

theorem solidPixel_frames (da : Bool) : PixelFrames (solidPixel da) := fun _ q _ =>
  colorPixel_frames.mono (fun _ hx => hx.mono (spanColors_le q da))

theorem overwritePixel_frames : PixelFrames overwritePixel := fun _ q _ =>
  upto_frames (fun k hk => putDst_frames ⟨k, by
    have := spanColors_le q false
    simp at this
    omega, rfl⟩)

theorem overSpanPixel_frames (da sa : Bool) (w : State → Int) : PixelFrames (overSpanPixel da sa w) := fun _ q _ =>
  overPixel_frames.mono (fun _ hx => hx.mono (spanColors_le q da))

theorem skipPixel_frames : PixelFrames skipPixel := fun _ _ _ _ _ e => by
  cases e
  exact Within.refl _ _

theorem maskPixel_frames (da sa : Bool) : PixelFrames (maskPixel da sa) := fun s q j m m' e => by
  unfold maskPixel at e
  split at e
  · rename_i b m1 e1
    refine (readSrc_within e1).trans ?_
    dsimp only at e
    split at e
    · cases e
      exact Within.refl _ _
    · exact (overPixel_frames _ _ e).mono (fun _ hx => hx.mono (spanColors_le q da))
  · cases e

theorem colorSpanPixel_frames (da : Bool) : PixelFrames (colorSpanPixel da) := fun s q j m m' e => by
  unfold colorSpanPixel at e
  split at e
  · rename_i b m1 e1
    refine (readSrc_within e1).trans ?_
    exact (colorPixel_frames _ _ e).mono (fun _ hx => hx.mono (spanColors_le q da))
  · cases e

/-! ## What a span does on ready regions -/

/-- Ready regions are clear memory. -/
theorem clear_of_ready {p : Params} {m : Pixmem} {row : Int} {base len : Nat} {S : Nat → Prop}
    (hD : DstReady p m row base len) (hb : ∀ a, S a → isBacked p a = true) (hc : ∀ a, S a → m.clashAt .srcRead a = none)
    (ha : ∀ a, Region p base len a → ¬ S a) : Clear p row (Region p base len) S m.log m := by
  obtain ⟨hw, -, hr, hwr⟩ := hD
  refine ⟨hw, ?_, hb, ?_, ?_, hc, ha, Touched.refl _ _ _ _⟩
  · rintro a ⟨t, ht, rfl⟩
    exact (hr t ht).1
  · rintro a ⟨t, ht, rfl⟩
    exact (hr t ht).2
  · rintro a ⟨t, ht, rfl⟩
    exact (hwr t ht).2

/-- Ready regions with up to two source regions. -/
theorem clear_of_sources {p : Params} {m : Pixmem} {row : Int} {a la b lb c lc : Nat} (hD : DstReady p m row a la)
    (h1 : SrcReady p m a la b lb) (h2 : SrcReady p m a la c lc) :
    Clear p row (Region p a la) (fun x => Region p b lb x ∨ Region p c lc x) m.log m := by
  refine clear_of_ready hD ?_ ?_ ?_
  · rintro x (⟨t, ht, rfl⟩ | ⟨t, ht, rfl⟩)
    · exact (h1.1 t ht).1
    · exact (h2.1 t ht).1
  · rintro x (⟨t, ht, rfl⟩ | ⟨t, ht, rfl⟩)
    · exact (h1.1 t ht).2
    · exact (h2.1 t ht).2
  · rintro x ⟨t, ht, rfl⟩ (⟨u, hu, e⟩ | ⟨u, hu, e⟩)
    · exact h1.2 t ht u hu e
    · exact h2.2 t ht u hu e

theorem srcReady_empty (p : Params) (m : Pixmem) (a la b : Nat) : SrcReady p m a la b 0 :=
  ⟨fun _ h => absurd h (Nat.not_lt_zero _), fun _ _ _ h => absurd h (Nat.not_lt_zero _)⟩

/-- A span whose pixels go through does: each pixel has its effect on the bytes the span started with, and no other byte
changes. -/
theorem runSpan_does {op : PixelOp} {V : Nat → (Nat → Byte) → (Nat → Byte) → Prop} {S : Nat → Prop} {s : State} {w : Word}
    {q : Seq} (he : s.eng = some ⟨w, .spans q⟩) (hfit : spanLen q * q.n ≤ 2 ^ s.cfg.addrW)
    (hclear : Clear s.cfg q.y (Region s.cfg q.dp (spanLen q * q.n)) S s.px.log s.px)
    (hloc : ∀ j, j < spanLen q → Local S (Region s.cfg (dstPx s.cfg q j) q.n) (V j))
    (hop : ∀ j, j < spanLen q → Does s.cfg q.y (Region s.cfg q.dp (spanLen q * q.n)) S
      (Changes (Region s.cfg (dstPx s.cfg q j) q.n) (V j)) (op s q j)) :
    ∃ m, runSpan op s = .next (endSpan (s.setPx m) q) ∧
      (m.wf = true ∧ Touched q.y (Region s.cfg q.dp (spanLen q * q.n)) S s.px.log m.log) ∧
      KeepsOutside s.cfg q.dp (spanLen q * q.n) s.px.byte m.byte ∧ ∀ j, j < spanLen q → V j s.px.byte m.byte := by
  obtain ⟨m, e, h, hout, hin⟩ := upto_does (f := op s q) (spanLen q) (fun j hj x hx => region_of_pixel hj hx)
    (fun i j hi hj hne x hx => pixels_disjoint hfit hi hj hne hx) hloc hop s.px.log s.px hclear
  refine ⟨m, ?_, ⟨h.wf, h.touched⟩, ?_, hin⟩
  · unfold runSpan
    rw [he]
    dsimp only
    rw [show upto (op s q) (q.w - q.i) s.px = _ from e]
  · exact fun x hx => hout x (fun j hj hb => hx (region_of_pixel hj hb))

/-! ### Locality of the pixel effects -/

theorem overPixel_local {S : Nat → Prop} {p : Params} {dp sp n : Nat} {w : (Nat → Byte) → Int} {c : Nat} {da sa : Bool}
    (hS : ∀ k, k < c + sa.toNat → S (addrPlus p sp k)) (hn : c + da.toNat = n)
    (hw : ∀ f f' : Nat → Byte, (∀ x, S x → f x = f' x) → w f = w f') :
    Local S (Region p dp n) (fun f g => OverPixel p dp sp (w f) c da sa f g) := by
  intro f g f' g' hs hf hg hv
  have hsA : sourceAlpha p f sp c sa = sourceAlpha p f' sp c sa := by
    unfold sourceAlpha
    cases sa with
    | false => rfl
    | true => simp [hs _ (hS c (by simp))]
  have hpw : pixelWeight p f sp (w f) c sa = pixelWeight p f' sp (w f') c sa := by
    unfold pixelWeight
    rw [hsA, hw f f' hs]
  refine ⟨fun k hk => ?_, fun hd => ?_⟩
  · have := hv.1 k hk
    rwa [hpw, hw f f' hs, hs _ (hS k (by omega)), hf _ ⟨k, by omega, rfl⟩, hg _ ⟨k, by omega, rfl⟩] at this
  · have := hv.2 hd
    have hc : c < n := by simp [hd] at hn; omega
    rwa [hpw, hsA, hw f f' hs, hf _ ⟨c, hc, rfl⟩, hg _ ⟨c, hc, rfl⟩] at this

theorem colorPixel_local {S : Nat → Prop} {p : Params} {dp n : Nat} {w : (Nat → Byte) → Int} {c : Nat} {da : Bool}
    {color : Nat → Byte} (hn : c + da.toNat = n) (hw : ∀ f f' : Nat → Byte, (∀ x, S x → f x = f' x) → w f = w f') :
    Local S (Region p dp n) (fun f g => ColorPixel p dp (w f) c da color f g) := by
  intro f g f' g' hs hf hg hv
  refine ⟨fun k hk => ?_, fun hd => ?_⟩
  · have := hv.1 k hk
    rwa [hw f f' hs, hf _ ⟨k, by omega, rfl⟩, hg _ ⟨k, by omega, rfl⟩] at this
  · have := hv.2 hd
    have hc : c < n := by simp [hd] at hn; omega
    rwa [hw f f' hs, hf _ ⟨c, hc, rfl⟩, hg _ ⟨c, hc, rfl⟩] at this

/-! ### The kernels' pixels -/

section Kernels

variable {s : State} {w : Word} {q : Seq}

theorem pixel_dst {da : Bool} (hn : 1 ≤ q.n) {j : Nat} (hj : j < spanLen q) :
    ∀ k, k < spanColors q da + da.toNat → Region s.cfg q.dp (spanLen q * q.n) (addrPlus s.cfg (dstPx s.cfg q j) k) :=
  fun _ hk => region_pixel hj (by rwa [spanColors_add hn] at hk)

theorem pixel_apart {da : Bool} (hn : 1 ≤ q.n) (hfit : spanLen q * q.n ≤ 2 ^ s.cfg.addrW) {j : Nat} (hj : j < spanLen q)
    : pixelApart s.cfg (dstPx s.cfg q j) (spanColors q da + da.toNat) :=
  pixelApart_of_le (by
    rw [spanColors_add hn]
    have : 1 * q.n ≤ spanLen q * q.n := Nat.mul_le_mul_right _ (by omega)
    omega)

/-- A solid fill on a ready span. -/
theorem solid_does (da : Bool) (he : s.eng = some ⟨w, .spans q⟩) (hn : 1 ≤ q.n) (hD : SpanDst s q) :
    ∃ m, runSpan (solidPixel da) s = .next (endSpan (s.setPx m) q) ∧
      (m.wf = true ∧ Touched q.y (Region s.cfg q.dp (spanLen q * q.n))
        (fun x => Region s.cfg 0 0 x ∨ Region s.cfg 0 0 x) s.px.log m.log) ∧
      KeepsOutside s.cfg q.dp (spanLen q * q.n) s.px.byte m.byte ∧
      ∀ j, j < spanLen q → ColorPixel s.cfg (dstPx s.cfg q j) (expand (sample (colorAt s.regs (spanColors q da))))
        (spanColors q da) da (colorAt s.regs) s.px.byte m.byte := by
  refine runSpan_does he hD.2.1
    (clear_of_sources hD (srcReady_empty s.cfg s.px q.dp _ 0) (srcReady_empty s.cfg s.px q.dp _ 0))
    (fun j _ => colorPixel_local (spanColors_add hn) (w := fun _ => _) (fun _ _ _ => rfl)) (fun j hj => ?_)
  have := colorPixel_does (row := q.y)
    (S := fun x => Region s.cfg 0 0 x ∨ Region s.cfg 0 0 x) (w := expand (sample (colorAt s.regs (spanColors q da))))
    (color := colorAt s.regs) (pixel_dst (s := s) (da := da) hn hj) (pixel_apart hn hD.2.1 hj)
  rw [spanColors_add hn] at this
  exact this

/-- An overwriting fill on a ready span. -/
theorem overwrite_does (he : s.eng = some ⟨w, .spans q⟩) (hD : SpanDst s q) :
    ∃ m, runSpan overwritePixel s = .next (endSpan (s.setPx m) q) ∧
      (m.wf = true ∧ Touched q.y (Region s.cfg q.dp (spanLen q * q.n))
        (fun x => Region s.cfg 0 0 x ∨ Region s.cfg 0 0 x) s.px.log m.log) ∧
      KeepsOutside s.cfg q.dp (spanLen q * q.n) s.px.byte m.byte ∧
      ∀ j, j < spanLen q → ∀ k, k < q.n → m.byte (addrPlus s.cfg (dstPx s.cfg q j) k) = colorAt s.regs k := by
  refine runSpan_does (V := fun j _ g => ∀ k, k < q.n → g (addrPlus s.cfg (dstPx s.cfg q j) k) = colorAt s.regs k) he
    hD.2.1 (clear_of_sources hD (srcReady_empty s.cfg s.px q.dp _ 0) (srcReady_empty s.cfg s.px q.dp _ 0))
    (fun j _ => ?_) (fun j hj => ?_)
  · intro f g f' g' _ _ hg hv k hk
    rw [← hg _ ⟨k, hk, rfl⟩]
    exact hv k hk
  · have hcol : spanColors q false = q.n := by simp [spanColors]
    have h1 : q.n ≤ 2 ^ s.cfg.addrW := by
      have : 1 * q.n ≤ spanLen q * q.n := Nat.mul_le_mul_right _ (by omega)
      have := hD.2.1
      omega
    unfold overwritePixel
    rw [hcol]
    refine Does.weaken (upto_does (B := fun k x => x = addrPlus s.cfg (dstPx s.cfg q j) k)
      (V := fun k _ g => g (addrPlus s.cfg (dstPx s.cfg q j) k) = colorAt s.regs k) q.n
      (fun k hk x hx => hx ▸ region_pixel hj hk)
      (fun i k hi hk hne x e1 e2 => pixelApart_of_le h1 i k hi hk hne (e1.symm.trans e2))
      (fun k _ f g f' g' _ _ hg hv => by dsimp only at *; rw [← hg _ rfl]; exact hv)
      (fun k hk => putDst_does (region_pixel hj hk))) ?_
    exact fun f g r => ⟨fun x hx => r.1 x (fun k hk e => hx ⟨k, hk, e⟩), r.2⟩

/-- A span-over on a ready span. -/
theorem over_does (da sa : Bool) (pw : State → Int) (he : s.eng = some ⟨w, .spans q⟩) (hn : 1 ≤ q.n) (hD : SpanDst s q)
    (hS : SpanSrc s q (spanColors q da + sa.toNat)) :
    ∃ m, runSpan (overSpanPixel da sa pw) s = .next (endSpan (s.setPx m) q) ∧
      (m.wf = true ∧ Touched q.y (Region s.cfg q.dp (spanLen q * q.n))
        (fun x => Region s.cfg q.sp (spanLen q * (spanColors q da + sa.toNat)) x ∨ Region s.cfg 0 0 x) s.px.log m.log) ∧
      KeepsOutside s.cfg q.dp (spanLen q * q.n) s.px.byte m.byte ∧
      ∀ j, j < spanLen q → OverPixel s.cfg (dstPx s.cfg q j) (srcPx s.cfg q (spanColors q da + sa.toNat) j) (pw s)
        (spanColors q da) da sa s.px.byte m.byte := by
  have hsrc : ∀ j, j < spanLen q → ∀ k, k < spanColors q da + sa.toNat →
      (fun x => Region s.cfg q.sp (spanLen q * (spanColors q da + sa.toNat)) x ∨ Region s.cfg 0 0 x)
        (addrPlus s.cfg (srcPx s.cfg q (spanColors q da + sa.toNat) j) k) := fun j hj k hk => Or.inl (region_pixel hj hk)
  refine runSpan_does he hD.2.1 (clear_of_sources hD hS (srcReady_empty s.cfg s.px q.dp _ 0))
    (fun j hj => overPixel_local (hsrc j hj) (spanColors_add hn) (w := fun _ => pw s) (fun _ _ _ => rfl)) (fun j hj => ?_)
  have := overPixel_does (sa := sa) (row := q.y) (w := pw s)
    (S := (fun x => Region s.cfg q.sp (spanLen q * (spanColors q da + sa.toNat)) x ∨ Region s.cfg 0 0 x))
    (sp := srcPx s.cfg q (spanColors q da + sa.toNat) j) (pixel_dst (s := s) (da := da) hn hj) (hsrc j hj)
    (pixel_apart hn hD.2.1 hj)
  rw [spanColors_add hn] at this
  exact this

/-- A span-with-mask on a ready span: the pixel's weight is its expanded mask byte. -/
theorem mask_does (da sa : Bool) (he : s.eng = some ⟨w, .spans q⟩) (hn : 1 ≤ q.n) (hD : SpanDst s q)
    (hS : SpanSrc s q (spanColors q da + sa.toNat)) (hM : SpanMsk s q) :
    ∃ m, runSpan (maskPixel da sa) s = .next (endSpan (s.setPx m) q) ∧
      (m.wf = true ∧ Touched q.y (Region s.cfg q.dp (spanLen q * q.n))
        (fun x => Region s.cfg q.sp (spanLen q * (spanColors q da + sa.toNat)) x ∨ Region s.cfg q.mp (spanLen q) x) s.px.log m.log) ∧
      KeepsOutside s.cfg q.dp (spanLen q * q.n) s.px.byte m.byte ∧
      ∀ j, j < spanLen q → OverPixel s.cfg (dstPx s.cfg q j) (srcPx s.cfg q (spanColors q da + sa.toNat) j)
        (expand (sample (s.px.byte (mskPx s.cfg q j)))) (spanColors q da) da sa s.px.byte m.byte := by
  have hsrc : ∀ j, j < spanLen q → ∀ k, k < spanColors q da + sa.toNat →
      (fun x => Region s.cfg q.sp (spanLen q * (spanColors q da + sa.toNat)) x ∨ Region s.cfg q.mp (spanLen q) x)
        (addrPlus s.cfg (srcPx s.cfg q (spanColors q da + sa.toNat) j) k) := fun j hj k hk => Or.inl (region_pixel hj hk)
  have hmsk : ∀ j, j < spanLen q →
      (fun x => Region s.cfg q.sp (spanLen q * (spanColors q da + sa.toNat)) x ∨ Region s.cfg q.mp (spanLen q) x)
        (mskPx s.cfg q j) := fun j hj => Or.inr ⟨j, hj, rfl⟩
  refine runSpan_does (V := fun j f g => OverPixel s.cfg (dstPx s.cfg q j)
    (srcPx s.cfg q (spanColors q da + sa.toNat) j) (expand (sample (f (mskPx s.cfg q j)))) (spanColors q da) da sa f g)
    he hD.2.1 (clear_of_sources hD hS hM)
    (fun j hj => overPixel_local (S := (fun x => Region s.cfg q.sp (spanLen q * (spanColors q da + sa.toNat)) x ∨ Region s.cfg q.mp (spanLen q) x))
      (hsrc j hj) (spanColors_add hn)
      (w := fun f => expand (sample (f (mskPx s.cfg q j)))) (fun f f' hf => by rw [hf _ (hmsk j hj)])) (fun j hj => ?_)
  refine readThen_does (hmsk j hj) (R := fun v => Changes _ (OverPixel s.cfg (dstPx s.cfg q j)
    (srcPx s.cfg q (spanColors q da + sa.toNat) j) (expand (sample v)) (spanColors q da) da sa)) (fun v => ?_)
  dsimp only
  split
  · rename_i h0
    refine skip_does (fun f => ?_)
    have hew : pixelWeight s.cfg f (srcPx s.cfg q (spanColors q da + sa.toNat) j) (expand (sample v)) (spanColors q da) sa
        = 0 := by
      rw [h0]
      cases sa <;> simp [pixelWeight, combine, shr8]
    exact ⟨fun k _ => by rw [hew]; simp [OverSample], fun _ => by rw [hew]; simp [OverSample]⟩
  · have := overPixel_does (sa := sa) (row := q.y) (w := expand (sample v))
      (S := (fun x => Region s.cfg q.sp (spanLen q * (spanColors q da + sa.toNat)) x ∨ Region s.cfg q.mp (spanLen q) x))
      (sp := srcPx s.cfg q (spanColors q da + sa.toNat) j) (pixel_dst (s := s) (da := da) hn hj) (hsrc j hj)
      (pixel_apart hn hD.2.1 hj)
    rw [spanColors_add hn] at this
    exact this

/-- A span-with-solid-color on a ready span. -/
theorem color_does (da : Bool) (he : s.eng = some ⟨w, .spans q⟩) (hn : 1 ≤ q.n) (hD : SpanDst s q) (hM : SpanMsk s q) :
    ∃ m, runSpan (colorSpanPixel da) s = .next (endSpan (s.setPx m) q) ∧
      (m.wf = true ∧ Touched q.y (Region s.cfg q.dp (spanLen q * q.n))
        (fun x => Region s.cfg q.mp (spanLen q) x ∨ Region s.cfg 0 0 x) s.px.log m.log) ∧
      KeepsOutside s.cfg q.dp (spanLen q * q.n) s.px.byte m.byte ∧
      ∀ j, j < spanLen q → ColorPixel s.cfg (dstPx s.cfg q j)
        (combine (expand (sample (s.px.byte (mskPx s.cfg q j)))) (expand (sample (colorAt s.regs (spanColors q da)))))
        (spanColors q da) da (colorAt s.regs) s.px.byte m.byte := by
  have hmsk : ∀ j, j < spanLen q →
      (fun x => Region s.cfg q.mp (spanLen q) x ∨ Region s.cfg 0 0 x) (mskPx s.cfg q j) := fun j hj => Or.inl ⟨j, hj, rfl⟩
  refine runSpan_does (V := fun j f g => ColorPixel s.cfg (dstPx s.cfg q j)
    (combine (expand (sample (f (mskPx s.cfg q j)))) (expand (sample (colorAt s.regs (spanColors q da)))))
    (spanColors q da) da (colorAt s.regs) f g)
    he hD.2.1 (clear_of_sources hD hM (srcReady_empty s.cfg s.px q.dp _ 0))
    (fun j hj => colorPixel_local (S := (fun x => Region s.cfg q.mp (spanLen q) x ∨ Region s.cfg 0 0 x)) (spanColors_add hn)
      (w := fun f => combine (expand (sample (f (mskPx s.cfg q j)))) (expand (sample (colorAt s.regs (spanColors q da)))))
      (fun f f' hf => by rw [hf _ (hmsk j hj)])) (fun j hj => ?_)
  refine readThen_does (hmsk j hj) (R := fun v => Changes _ (ColorPixel s.cfg (dstPx s.cfg q j)
    (combine (expand (sample v)) (expand (sample (colorAt s.regs (spanColors q da))))) (spanColors q da) da
    (colorAt s.regs))) (fun v => ?_)
  have := colorPixel_does (row := q.y) (S := fun x => Region s.cfg q.mp (spanLen q) x ∨ Region s.cfg 0 0 x)
    (w := combine (expand (sample v)) (expand (sample (colorAt s.regs (spanColors q da)))))
    (color := colorAt s.regs) (pixel_dst (s := s) (da := da) hn hj) (pixel_apart hn hD.2.1 hj)
  rw [spanColors_add hn] at this
  exact this

/-- A skipping span: no memory access. -/
theorem skip_span (he : s.eng = some ⟨w, .spans q⟩) : runSpan skipPixel s = .next (endSpan s q) := by
  have : ∀ n, upto (skipPixel s q) n s.px = .ok s.px := by
    intro n
    induction n with
    | zero => rfl
    | succ n ih => simp [upto, ih, skipPixel]
  unfold runSpan
  rw [he]
  dsimp only
  rw [this]
  rfl

end Kernels

end Sys2Proof.Machine
end

