-- ==== Sys2Proof/Laws/Glyph.lean ====
section
/-! SUPPORT. The glyph engine: what an emitted run can do, and what it does on ready regions; what a run header can do. -/

namespace Sys2Proof.Machine

open Sys2Proof

theorem glyph_colors_add {s : State} (h : 1 ≤ s.regs.dst.n) : glyphColors s + s.regs.dst.ha.toNat = s.regs.dst.n := by
  unfold glyphColors Desc.colors
  cases s.regs.dst.ha
  · simp
  · simp
    omega

theorem maskCoverage_pure (cov : Byte) : Pure (maskCoverage cov) := fun d m => by
  unfold maskCoverage
  split
  · exact ⟨rfl, rfl⟩
  · exact blendTo_pure _ _ d m

/-! ## What an emitted run can do -/

theorem glyph_colors_le (s : State) : glyphColors s + s.regs.dst.ha.toNat ≤ max s.regs.dst.n 1 := by
  unfold glyphColors Desc.colors
  cases s.regs.dst.ha
  · simp
  · simp
    omega

theorem glyphColorPixel_frames {s : State} {g : Rle} {dp : Nat} {cov : Byte} {full : Bool} :
    Frames (Region s.cfg dp (max s.regs.dst.n 1)) (glyphColorPixel s g dp cov full) :=
  colorPixel_frames.mono (fun _ hx => hx.mono (glyph_colors_le s))

theorem addrPlus_zero {p : Params} {a j : Nat} : addrPlus p (addrPlus p a j) 0 = addrPlus p a j := by
  rw [addrPlus_addrPlus, Nat.add_zero]

theorem region_first {p : Params} {dp n : Nat} (hdp : addrPlus p dp 0 = dp) : Region p dp (max n 1) dp :=
  ⟨0, by omega, hdp.symm⟩

theorem solidGlyphPixel_frames {s : State} {g : Rle} {dp : Nat} (hdp : addrPlus s.cfg dp 0 = dp) :
    Frames (Region s.cfg dp (max s.regs.dst.n 1)) (solidGlyphPixel s g dp) := by
  unfold solidGlyphPixel
  cases g.mode with
  | mask => exact putDst_frames (region_first hdp)
  | solid => exact glyphColorPixel_frames
  | alpha => exact glyphColorPixel_frames
  | nop =>
    intro m m' e
    cases e
    exact Within.refl _ _

theorem covGlyphPixel_frames {s : State} {g : Rle} {dp : Nat} {cov : Byte} (hdp : addrPlus s.cfg dp 0 = dp) :
    Frames (Region s.cfg dp (max s.regs.dst.n 1)) (covGlyphPixel s g dp cov) := by
  unfold covGlyphPixel
  cases g.mode with
  | mask => exact updateDst_frames (maskCoverage_pure cov) (region_first hdp)
  | solid => exact glyphColorPixel_frames
  | alpha => exact glyphColorPixel_frames
  | nop =>
    intro m m' e
    cases e
    exact Within.refl _ _

theorem emitPixel_frames {s : State} {g : Rle} {tag : RunTag} {j : Nat} :
    Frames (Region s.cfg (glyphPx s g j) (max s.regs.dst.n 1)) (emitPixel s g tag j) := by
  cases tag with
  | transparent =>
    intro m m' e
    cases e
    exact Within.refl _ _
  | solid => exact solidGlyphPixel_frames addrPlus_zero
  | intermediate =>
    intro m m' e
    simp only [emitPixel] at e
    split at e
    · rename_i e1
      exact (readSrc_within e1).trans (covGlyphPixel_frames addrPlus_zero _ _ e)
    · cases e

/-- An emitted run answers a next state only after all its pixels. -/
theorem emitRun_next {s t : State} {g : Rle} {run : Run} (h : emitRun s g run = .next t) :
    ∃ m, upto (emitPixel s g run.tag) (min run.len g.ww) s.px = .ok m ∧
      t = (s.setPx m).proceed (.glyph (afterEmit s g run (min run.len g.ww))) := by
  unfold emitRun at h
  dsimp only at h
  split at h
  · rename_i m hm
    cases h
    exact ⟨m, hm, rfl⟩
  · rename_i e _
    cases e <;> cases h

/-- The pixels of an emitted run change nothing but the destination pixels they are at. -/
theorem emitPixels_frame {s : State} {g : Rle} {tag : RunTag} {n l : Nat} {m m' : Pixmem} (hn : 1 ≤ s.regs.dst.n)
    (hl : n ≤ l) (h : upto (emitPixel s g tag) n m = .ok m') :
    Within (Region s.cfg g.dp (l * s.regs.dst.n)) m m' := by
  refine upto_frames (fun j hj => ?_) _ _ h
  have := emitPixel_frames (s := s) (g := g) (tag := tag) (j := j)
  rw [Nat.max_eq_left hn] at this
  exact this.mono (fun x hx => region_of_pixel (by omega) hx)

/-- An emitted run changes nothing but its destination pixels. -/
theorem emitRun_frame {s t : State} {g : Rle} {run : Run} (hn : 1 ≤ s.regs.dst.n) (h : emitRun s g run = .next t) :
    Within (Region s.cfg g.dp (min run.len g.ww * s.regs.dst.n)) s.px t.px := by
  obtain ⟨m, hm, rfl⟩ := emitRun_next h
  simp only [State.proceed_px, State.setPx_px]
  exact emitPixels_frame hn (Nat.le_refl _) hm

/-! ## What an emitted run does on ready regions -/

section Does

variable {s : State} {g : Rle} {S : Nat → Prop} {l : Nat}

theorem colorSample_zero (t d : Byte) : colorSample t 0 d = d := by simp [colorSample]

/-- Turns the effect on one byte into the effect on a pixel whose first byte it is. -/
theorem Does.grow {p : Params} {row : Int} {D S B C : Nat → Prop} {V : (Nat → Byte) → (Nat → Byte) → Prop}
    {f : Pixmem → Except Stop Pixmem} (h : Does p row D S (Changes B V) f) (hs : ∀ x, B x → C x) :
    Does p row D S (Changes C V) f := h.weaken (fun _ _ r => ⟨fun x hx => r.1 x (fun hb => hx (hs x hb)), r.2⟩)

theorem glyphPx_dst (hn : 1 ≤ s.regs.dst.n) {j : Nat} (hj : j < l) :
    ∀ k, k < glyphColors s + s.regs.dst.ha.toNat →
      Region s.cfg g.dp (l * s.regs.dst.n) (addrPlus s.cfg (glyphPx s g j) k) :=
  fun _ hk => region_pixel hj (by rwa [glyph_colors_add hn] at hk)

theorem glyphPx_apart (hn : 1 ≤ s.regs.dst.n) (hfit : l * s.regs.dst.n ≤ 2 ^ s.cfg.addrW) {j : Nat} (hj : j < l) :
    pixelApart s.cfg (glyphPx s g j) (glyphColors s + s.regs.dst.ha.toNat) :=
  pixelApart_of_le (by
    rw [glyph_colors_add hn]
    have : 1 * s.regs.dst.n ≤ l * s.regs.dst.n := Nat.mul_le_mul_right _ (by omega)
    omega)

theorem glyphColor_does (hn : 1 ≤ s.regs.dst.n) (hfit : l * s.regs.dst.n ≤ 2 ^ s.cfg.addrW) {j : Nat} (hj : j < l)
    (w : Int) :
    Does s.cfg (g.r : Int) (Region s.cfg g.dp (l * s.regs.dst.n)) S
      (Changes (Region s.cfg (glyphPx s g j) s.regs.dst.n)
        (ColorPixel s.cfg (glyphPx s g j) w (glyphColors s) s.regs.dst.ha (colorAt s.regs)))
      (colorPixel s.cfg (g.r : Int) (glyphPx s g j) w (glyphColors s) s.regs.dst.ha (colorAt s.regs)) := by
  have := colorPixel_does (row := (g.r : Int)) (S := S) (w := w) (color := colorAt s.regs)
    (glyphPx_dst (g := g) hn hj) (glyphPx_apart hn hfit hj)
  rwa [glyph_colors_add hn] at this

theorem glyphPx_zero {j : Nat} : addrPlus s.cfg (glyphPx s g j) 0 = glyphPx s g j := addrPlus_zero

theorem glyphPx_mem (hn : 1 ≤ s.regs.dst.n) {j : Nat} (hj : j < l) :
    Region s.cfg g.dp (l * s.regs.dst.n) (glyphPx s g j) := by
  rw [← glyphPx_zero]
  exact region_pixel hj hn

theorem glyphPx_own (hn : 1 ≤ s.regs.dst.n) {j : Nat} :
    ∀ x, x = glyphPx s g j → Region s.cfg (glyphPx s g j) s.regs.dst.n x := by
  intro x hx
  rw [hx]
  exact ⟨0, hn, glyphPx_zero.symm⟩

theorem solidGlyph_does (hn : 1 ≤ s.regs.dst.n) (hfit : l * s.regs.dst.n ≤ 2 ^ s.cfg.addrW) {j : Nat} (hj : j < l)
    (cov : Byte) :
    Does s.cfg (g.r : Int) (Region s.cfg g.dp (l * s.regs.dst.n)) S
      (Changes (Region s.cfg (glyphPx s g j) s.regs.dst.n) (GlyphPixel s g.mode (glyphPx s g j) true cov))
      (solidGlyphPixel s g (glyphPx s g j)) := by
  unfold solidGlyphPixel glyphColorPixel
  cases hm : g.mode with
  | mask => exact (putDst_does (glyphPx_mem hn hj)).grow (glyphPx_own hn)
  | solid => exact glyphColor_does hn hfit hj _
  | alpha => exact glyphColor_does hn hfit hj _
  | nop => exact skip_does (fun f => ⟨fun k _ => (colorSample_zero _ _).symm, fun _ => (colorSample_zero _ _).symm⟩)

theorem covGlyph_does (hn : 1 ≤ s.regs.dst.n) (hfit : l * s.regs.dst.n ≤ 2 ^ s.cfg.addrW) {j : Nat} (hj : j < l)
    (cov : Byte) :
    Does s.cfg (g.r : Int) (Region s.cfg g.dp (l * s.regs.dst.n)) S
      (Changes (Region s.cfg (glyphPx s g j) s.regs.dst.n) (GlyphPixel s g.mode (glyphPx s g j) false cov))
      (covGlyphPixel s g (glyphPx s g j) cov) := by
  unfold covGlyphPixel glyphColorPixel
  cases hm : g.mode with
  | mask =>
    refine (updateDst_does (glyphPx_mem hn hj) (maskCoverage_pure cov)
      (F := fun d b => b = if d = 0 then cov else byteOf (blend 255 (sample d) (expand (sample cov)))) (fun d m => ?_)).grow
      (glyphPx_own hn)
    unfold maskCoverage
    split <;> rfl
  | solid => exact glyphColor_does hn hfit hj _
  | alpha => exact glyphColor_does hn hfit hj _
  | nop => exact skip_does (fun f => ⟨fun k _ => (colorSample_zero _ _).symm, fun _ => (colorSample_zero _ _).symm⟩)

theorem glyphPixel_local {mode : GlyphMode} {full : Bool} {cov : (Nat → Byte) → Byte} (hn : 1 ≤ s.regs.dst.n) {j : Nat}
    (hc : ∀ f f' : Nat → Byte, (∀ x, S x → f x = f' x) → cov f = cov f') :
    Local S (Region s.cfg (glyphPx s g j) s.regs.dst.n)
      (fun f h => GlyphPixel s mode (glyphPx s g j) full (cov f) f h) := by
  have hcol := fun (w : (Nat → Byte) → Int) hw => colorPixel_local (S := S) (p := s.cfg) (dp := glyphPx s g j) (w := w)
    (color := colorAt s.regs) (glyph_colors_add (s := s) hn) hw
  cases mode with
  | mask =>
    intro f h f' h' hs hf hh hv
    have hown := glyphPx_own (s := s) (g := g) hn (j := j) _ rfl
    simp only [GlyphPixel] at hv ⊢
    rw [← hc f f' hs, ← hf _ hown, ← hh _ hown]
    exact hv
  | solid => exact hcol (fun f => if full then 256 else expand (sample (cov f))) (fun f f' hs => by rw [hc f f' hs])
  | alpha =>
    exact hcol (fun f => if full then expand (sample (colorAt s.regs s.regs.dst.colors))
      else combine (expand (sample (cov f))) (expand (sample (colorAt s.regs s.regs.dst.colors))))
      (fun f f' hs => by rw [hc f f' hs])
  | nop => exact hcol (fun _ => 0) (fun _ _ _ => rfl)

/-- A run of Solid pixels on a ready region. -/
theorem emitSolid_does {eol : Bool} {len : Nat} (hn : 1 ≤ s.regs.dst.n) (hD : GlyphDst s g (min len g.ww)) :
    ∃ m, emitRun s g ⟨.solid, len, eol⟩ =
        .next ((s.setPx m).proceed (.glyph (afterEmit s g ⟨.solid, len, eol⟩ (min len g.ww)))) ∧ m.wf = true ∧
      KeepsOutside s.cfg g.dp (min len g.ww * s.regs.dst.n) s.px.byte m.byte ∧
      ∀ j, j < min len g.ww → GlyphPixel s g.mode (glyphPx s g j) true 0 s.px.byte m.byte := by
  obtain ⟨m, e, h, hout, hin⟩ := upto_does (f := emitPixel s g .solid)
    (V := fun j => GlyphPixel s g.mode (glyphPx s g j) true 0) (min len g.ww) (fun j hj x hx => region_of_pixel hj hx)
    (fun i j hi hj hne x hx => pixels_disjoint hD.2.1 hi hj hne hx)
    (fun j _ => glyphPixel_local (cov := fun _ => 0) hn (fun _ _ _ => rfl))
    (fun j hj => solidGlyph_does hn hD.2.1 hj 0) s.px.log s.px
    (clear_of_sources hD (srcReady_empty s.cfg s.px g.dp _ 0) (srcReady_empty s.cfg s.px g.dp _ 0))
  exact ⟨m, by simp only [emitRun, e], h.wf, fun x hx => hout x (fun j hj hb => hx (region_of_pixel hj hb)), hin⟩

/-- A run of Intermediate pixels on ready regions: pixel `j` has coverage byte `j`. -/
theorem emitIntermediate_does {eol : Bool} {len : Nat} (hn : 1 ≤ s.regs.dst.n) (hD : GlyphDst s g (min len g.ww))
    (hS : GlyphCov s g g.p (min len g.ww)) :
    ∃ m, emitRun s g ⟨.intermediate, len, eol⟩ =
        .next ((s.setPx m).proceed (.glyph (afterEmit s g ⟨.intermediate, len, eol⟩ (min len g.ww)))) ∧ m.wf = true ∧
      KeepsOutside s.cfg g.dp (min len g.ww * s.regs.dst.n) s.px.byte m.byte ∧
      ∀ j, j < min len g.ww →
        GlyphPixel s g.mode (glyphPx s g j) false (s.px.byte (addrPlus s.cfg g.p j)) s.px.byte m.byte := by
  have hmem : ∀ j, j < min len g.ww → (fun x => Region s.cfg g.p (min len g.ww) x ∨ Region s.cfg 0 0 x)
      (addrPlus s.cfg g.p j) := fun j hj => Or.inl ⟨j, hj, rfl⟩
  have hop : ∀ j, j < min len g.ww → Does s.cfg (g.r : Int) (Region s.cfg g.dp (min len g.ww * s.regs.dst.n))
      (fun x => Region s.cfg g.p (min len g.ww) x ∨ Region s.cfg 0 0 x)
      (Changes (Region s.cfg (glyphPx s g j) s.regs.dst.n)
        (fun f h => GlyphPixel s g.mode (glyphPx s g j) false (f (addrPlus s.cfg g.p j)) f h))
      (emitPixel s g .intermediate j) := fun j hj =>
    readThen_does (p := s.cfg) (a := addrPlus s.cfg g.p j) (hmem j hj)
      (g := fun v => covGlyphPixel s g (glyphPx s g j) v) (R := fun v => Changes (Region s.cfg (glyphPx s g j) s.regs.dst.n)
      (GlyphPixel s g.mode (glyphPx s g j) false v)) (fun v => covGlyph_does hn hD.2.1 hj v)
  obtain ⟨m, e, h, hout, hin⟩ := upto_does (min len g.ww) (fun j hj x hx => region_of_pixel hj hx)
    (fun i j hi hj hne x hx => pixels_disjoint hD.2.1 hi hj hne hx)
    (fun j hj => glyphPixel_local (cov := fun f => f (addrPlus s.cfg g.p j)) hn (fun f f' hs => hs _ (hmem j hj)))
    hop s.px.log s.px (clear_of_sources hD hS (srcReady_empty s.cfg s.px g.dp _ 0))
  exact ⟨m, by simp only [emitRun, e], h.wf, fun x hx => hout x (fun j hj hb => hx (region_of_pixel hj hb)), hin⟩

/-- A Transparent run accesses nothing. -/
theorem emitTransparent {eol : Bool} {len : Nat} :
    emitRun s g ⟨.transparent, len, eol⟩ =
      .next (s.proceed (.glyph (afterEmit s g ⟨.transparent, len, eol⟩ (min len g.ww)))) := by
  have : ∀ n, upto (emitPixel s g .transparent) n s.px = .ok s.px := by
    intro n
    induction n with
    | zero => rfl
    | succ n ih => simp [upto, ih, emitPixel]
  unfold emitRun
  dsimp only
  rw [this]
  rfl

end Does

/-! ## Headers -/

/-- A header answers a next state only where one is expected; its byte is read and logged first. -/
theorem onHeader_next {f : State → Rle → Host.Outcome State Fault Refusal} {s t : State} (h : onHeader s f = .next t) :
    ∃ w g, s.eng = some ⟨w, .glyph g⟩ ∧ g.wantsHeader = true ∧
      f (s.setPx { s.px with log := ⟨g.p, .srcRead⟩ :: s.px.log }) { g with p := addrPlus s.cfg g.p 1 } = .next t := by
  unfold onHeader at h
  split at h
  · rename_i w g he
    split at h
    · rename_i hw
      split at h
      · rename_i e1
        obtain ⟨-, rfl⟩ := readSrc_ok e1
        exact ⟨w, g, he, hw, h⟩
      · rename_i e _
        cases e <;> cases h
    · cases h
  · cases h

/-- When a header byte can be read, the header does what follows. -/
theorem onHeader_eq {f : State → Rle → Host.Outcome State Fault Refusal} {s : State} {w : Word} {g : Rle}
    (he : s.eng = some ⟨w, .glyph g⟩) (hw : g.wantsHeader = true) (hb : isBacked s.cfg g.p = true)
    (hc : s.px.clashAt .srcRead g.p = none) :
    onHeader s f =
      f (s.setPx { s.px with log := ⟨g.p, .srcRead⟩ :: s.px.log }) { g with p := addrPlus s.cfg g.p 1 } := by
  unfold onHeader
  rw [he]
  dsimp only
  rw [if_pos hw, show readSrc s.cfg g.p s.px = _ from read_eq hb hc]

end Sys2Proof.Machine
end

