-- ==== Sys2Proof/Laws/Engine.lean ====
section
/-! SUPPORT. Everything a step of the block can do (`BlockStep`), said once. -/

namespace Sys2Proof.Machine

open Sys2Proof

/-! ## Which instructions a format holds -/

/-- The commands of R83. -/
def commands : List Instr :=
  [.nop, .expand, .combine, .blend, .combine2, .getSolidPainter, .getSpanPainter, .getSpanMaskPainter,
    .getSpanColorPainter, .runKernel, .paintOver, .paintOverClipped, .paintOverMask, .paintGlyph]

theorem decodeOpcode_mem {n : Nat} {i : Instr} (h : decodeOpcode n = some i) : i ∈ commands := by
  unfold decodeOpcode at h
  split at h <;> first
    | (cases h; simp [commands])
    | cases h

theorem decodeCmd_mem {w : Word} {i : Instr} (h : decodeCmd w = .ok i) : i ∈ commands := by
  unfold decodeCmd at h
  split at h
  · cases h
  · split at h
    · cases h
      exact decodeOpcode_mem ‹_›
    · cases h

/-- A selector of R88 names a kernel: its meaning runs a pixel operation over the running span. -/
theorem decodeVariant_kernel {f : Fam} {n : Nat} {i : Instr} (h : decodeVariant f n = some i) :
    ∃ op, PixelFrames op ∧ ∀ s, exec i s = runSpan op s := by
  unfold decodeVariant at h
  split at h
  · cases h
    exact ⟨_, solidPixel_frames _, fun _ => rfl⟩
  · cases h
    exact ⟨_, overwritePixel_frames, fun _ => rfl⟩
  · cases h
    exact ⟨_, solidPixel_frames _, fun _ => rfl⟩
  · cases h
    exact ⟨_, overSpanPixel_frames _ _ _, fun _ => rfl⟩
  · cases h
    exact ⟨_, overSpanPixel_frames _ _ _, fun _ => rfl⟩
  · cases h
    exact ⟨_, overSpanPixel_frames _ _ _, fun _ => rfl⟩
  · cases h
    exact ⟨_, overSpanPixel_frames _ _ _, fun _ => rfl⟩
  · cases h
    exact ⟨_, overSpanPixel_frames _ _ _, fun _ => rfl⟩
  · cases h
    exact ⟨_, overSpanPixel_frames _ _ _, fun _ => rfl⟩
  · cases h
    exact ⟨_, overSpanPixel_frames _ _ _, fun _ => rfl⟩
  · cases h
    exact ⟨_, overSpanPixel_frames _ _ _, fun _ => rfl⟩
  · cases h
    exact ⟨_, skipPixel_frames, fun _ => rfl⟩
  · cases h
    exact ⟨_, skipPixel_frames, fun _ => rfl⟩
  · cases h
    exact ⟨_, skipPixel_frames, fun _ => rfl⟩
  · cases h
    exact ⟨_, skipPixel_frames, fun _ => rfl⟩
  · cases h
    exact ⟨_, maskPixel_frames _ _, fun _ => rfl⟩
  · cases h
    exact ⟨_, maskPixel_frames _ _, fun _ => rfl⟩
  · cases h
    exact ⟨_, maskPixel_frames _ _, fun _ => rfl⟩
  · cases h
    exact ⟨_, maskPixel_frames _ _, fun _ => rfl⟩
  · cases h
    exact ⟨_, colorSpanPixel_frames _, fun _ => rfl⟩
  · cases h
    exact ⟨_, colorSpanPixel_frames _, fun _ => rfl⟩
  · cases h

theorem decodeKsel_kernel {k : BitVec 10} {i : Instr} (h : decodeKsel k = .ok i) :
    ∃ op, PixelFrames op ∧ ∀ s, exec i s = runSpan op s := by
  unfold decodeKsel at h
  split at h
  · cases h
    exact decodeVariant_kernel ‹_›
  · split at h <;> cases h

theorem decodeKsel_error {k : BitVec 10} {e : DecodeError} (h : decodeKsel k = .error e) :
    e = .kindNone ∧ kselKind k = 0 ∧ k.getLsbD 7 = false ∨
      e = .notAKernel ∧ (kselKind k ≠ 0 ∨ k.getLsbD 7 = true) := by
  unfold decodeKsel at h
  split at h
  · cases h
  · split at h
    · rename_i h0
      cases h
      exact Or.inl ⟨rfl, by simp [kselKind, h0.1], h0.2⟩
    · rename_i h0
      cases h
      refine Or.inr ⟨rfl, ?_⟩
      by_cases h7 : k.getLsbD 7 = true
      · exact Or.inr h7
      · refine Or.inl fun hk => h0 ⟨BitVec.eq_of_toNat_eq (by simpa [kselKind] using hk), ?_⟩
        simpa using h7

theorem decodeVariant_lt {f : Fam} {n : Nat} {i : Instr} (h : decodeVariant f n = some i) : n < 128 := by
  unfold decodeVariant at h
  split at h <;> first
    | decide
    | cases h

/-- No kernel has bit 7 set (R88). -/
theorem decodeKsel_bit7 {k : BitVec 10} {i : Instr} (h : decodeKsel k = .ok i) : k.getLsbD 7 = false := by
  unfold decodeKsel at h
  split at h
  · rename_i hv
    have h7 : (k.extractLsb' 0 8).getLsbD 7 = false := Nat.testBit_lt_two_pow (i := 7) (decodeVariant_lt hv)
    simpa using h7
  · split at h <;> cases h

/-- The malformed selectors: bit 7 set, or a kind that is not NONE outside R88 (R124, U16). -/
theorem kselMalformed_iff (k : BitVec 10) : kselMalformed k = true ↔
    k.getLsbD 7 = true ∨ (kselKind k ≠ 0 ∧ ∀ i, decodeKsel k ≠ .ok i) := by
  unfold kselMalformed
  cases hd : decodeKsel k with
  | ok i =>
    simp only [decodeKsel_bit7 hd, Bool.false_eq_true, false_or, false_iff, not_and, not_forall]
    exact fun _ => ⟨i, fun h => h rfl⟩
  | error e =>
    rcases decodeKsel_error hd with ⟨rfl, hk, h7⟩ | ⟨rfl, h⟩
    · simp only [h7, hk, ne_eq, not_true_eq_false, false_and, or_false]
    · simp only [true_iff]
      exact h.symm.imp_right fun h => ⟨h, fun i hi => by cases hi⟩

/-- A selector formed for span-over or span-mask is a kernel (R175, R176). -/
theorem decodeKsel_over (da sa : Bool) (a : Byte) (f : Fam) :
    ∃ i, decodeKsel (kselOf kindOver da sa (alphaClass a) f) = .ok i := by
  unfold alphaClass
  split
  · cases da <;> cases sa <;> cases f <;> exact ⟨_, rfl⟩
  · split
    · cases da <;> cases sa <;> cases f <;> exact ⟨_, rfl⟩
    · cases da <;> cases sa <;> cases f <;> exact ⟨_, rfl⟩

theorem decodeKsel_mask (da sa : Bool) (f : Fam) : ∃ i, decodeKsel (kselOf kindMask da sa 0 f) = .ok i := by
  cases da <;> cases sa <;> cases f <;> exact ⟨_, rfl⟩

/-! ## The span a command starts -/

/-- A span the sequencer may hold (R124, R195). -/
def SpanOk (q : Seq) : Prop :=
  (∃ i, decodeKsel q.k = .ok i) ∧ q.i = 0 ∧ 1 ≤ q.w ∧ q.rect.y0 ≤ q.y ∧ q.y < q.rect.y1 ∧ 1 ≤ q.n

theorem State.spanInv_iff (s : State) : s.SpanInv ↔ ∀ w q, s.eng = some ⟨w, .spans q⟩ → SpanOk q := Iff.rfl

theorem countOk_pos {p : Params} {n : Nat} (h : countOk p n = true) : 1 ≤ n := by
  simp [countOk] at h
  exact h.1

theorem runKernel_spanOk {s : State} (h : runKernelFault s = none) (hw : dim s.regs.kern.w ≠ 0) :
    SpanOk (runKernelSpan s) := by
  unfold runKernelFault at h
  dsimp only at h
  split at h
  · cases h
  · rename_i h1
    split at h
    · cases h
    · rename_i h2
      split at h
      · cases h
      · rename_i h3
        refine ⟨?_, rfl, Nat.one_le_iff_ne_zero.2 hw, ?_, ?_, countOk_pos (p := s.cfg) (n := s.regs.kern.count) (by simpa using h2)⟩
        · cases hd : decodeKsel s.regs.ksel with
          | ok i => exact ⟨i, hd⟩
          | error e =>
            rcases decodeKsel_error hd with ⟨rfl, hk, -⟩ | ⟨rfl, -⟩
            · exact absurd hk h3
            · simp [kselMalformed, hd] at h1
        · simp [runKernelSpan]
        · simp [runKernelSpan]

theorem rect_of_not_empty {r : Rect} (h : ¬ r.isEmpty = true) : r.x0 < r.x1 ∧ r.y0 < r.y1 := by
  simp [Rect.isEmpty] at h
  exact h

theorem firstRow_spanOk {s : State} {k : BitVec 10} {r : Rect} (hk : ∃ i, decodeKsel k = .ok i)
    (he : ¬ r.isEmpty = true) (hn : 1 ≤ s.regs.dst.n) : SpanOk (firstRow s k r) := by
  obtain ⟨hx, hy⟩ := rect_of_not_empty he
  refine ⟨hk, rfl, ?_, Int.le_refl _, hy, hn⟩
  simp only [firstRow]
  omega

theorem nextRow_spanOk {s : State} {q : Seq} (h : SpanOk q) (hy : q.y + 1 < q.rect.y1) : SpanOk (nextRow s q) := by
  obtain ⟨hk, -, hw, h0, -, hn⟩ := h
  refine ⟨hk, rfl, hw, ?_, hy, hn⟩
  simp only [nextRow]
  omega

/-! ## One step of the block -/

/-- What one step of the block makes of a state. -/
inductive BlockStep (s : State) : State → Prop where
  /-- The idle block. -/
  | idle : s.eng = none → BlockStep s s
  /-- An ALU command that ends without fault. -/
  | result (w : Word) (i : Instr) (v : Word) : s.eng = some ⟨w, .start⟩ → decodeCmd w = .ok i →
      i ∈ [Instr.expand, .combine, .blend, .combine2] → BlockStep s (s.setAluR v).finish
  /-- A command that ends without fault and without a register. -/
  | done (w : Word) : s.eng = some ⟨w, .start⟩ → BlockStep s s.finish
  /-- A command that faults. -/
  | fault (w : Word) (c : FaultCode) : s.eng = some ⟨w, .start⟩ → BlockStep s (s.raise c)
  /-- A `GET_*` command that ends without fault. -/
  | selected (w : Word) (i : Instr) (k : BitVec 10) : s.eng = some ⟨w, .start⟩ → decodeCmd w = .ok i →
      i ∈ [Instr.getSolidPainter, .getSpanPainter, .getSpanMaskPainter, .getSpanColorPainter] →
      BlockStep s (s.setKsel k).finish
  /-- A `GET_*` command that finds no family. -/
  | unsupported (w : Word) (i : Instr) : s.eng = some ⟨w, .start⟩ → decodeCmd w = .ok i →
      i ∈ [Instr.getSolidPainter, .getSpanPainter, .getSpanMaskPainter, .getSpanColorPainter] →
      BlockStep s ((s.setKsel 0).raise .unsupported)
  /-- A command that starts its first span. -/
  | startsSpan (w : Word) (q : Seq) : s.eng = some ⟨w, .start⟩ → SpanOk q → BlockStep s (s.proceed (.spans q))
  /-- `PAINT_GLYPH` starts its first row. -/
  | startsGlyph (w : Word) (g : Rle) : s.eng = some ⟨w, .start⟩ → 1 ≤ s.regs.dst.n →
      BlockStep s (s.proceed (.glyph g))
  /-- A span. -/
  | span (w : Word) (q : Seq) (i : Instr) (op : PixelOp) (m : Pixmem) : s.eng = some ⟨w, .spans q⟩ →
      decodeKsel q.k = .ok i → PixelFrames op → upto (op s q) (spanLen q) s.px = .ok m →
      BlockStep s (endSpan (s.setPx m) q)
  /-- A selector that is no kernel; no sequencer state that a run reaches holds one. -/
  | badSelector (w : Word) (q : Seq) (c : FaultCode) : s.eng = some ⟨w, .spans q⟩ →
      (∀ i, decodeKsel q.k ≠ .ok i) → BlockStep s (s.raise c)
  /-- A source byte read, or nothing, and a new decoder state. -/
  | glyphMove (w : Word) (g g' : Rle) (log : List Access) : s.eng = some ⟨w, .glyph g⟩ →
      BlockStep s ((s.setPx { s.px with log := log }).proceed (.glyph g'))
  /-- An emitted run. -/
  | glyphEmit (w : Word) (g g1 g' : Rle) (tag : RunTag) (log : List Access) (n : Nat) (m : Pixmem) :
      s.eng = some ⟨w, .glyph g⟩ → g1.dp = g.dp → n ≤ g.ww → g1.r = g.r →
      upto (emitPixel (s.setPx { s.px with log := log }) g1 tag) n { s.px with log := log } = .ok m →
      BlockStep s ((s.setPx m).proceed (.glyph g'))
  /-- The last row of a glyph. -/
  | glyphDone (w : Word) (g : Rle) : s.eng = some ⟨w, .glyph g⟩ → BlockStep s s.finish

theorem aluCommand_step {s t : State} {w : Word} {i : Instr} {ok : Bool} {v : Int} (he : s.eng = some ⟨w, .start⟩)
    (hd : decodeCmd w = .ok i) (hi : i ∈ [Instr.expand, .combine, .blend, .combine2])
    (h : aluCommand s ok v = .next t) : BlockStep s t := by
  unfold aluCommand at h
  split at h
  · cases h
    exact .result w i _ he hd hi
  · cases h
    exact .fault w _ he

theorem getPainter_step {s t : State} {w : Word} {i : Instr} {sel : Nat → Fam → BitVec 10}
    (he : s.eng = some ⟨w, .start⟩) (hd : decodeCmd w = .ok i)
    (hi : i ∈ [Instr.getSolidPainter, .getSpanPainter, .getSpanMaskPainter, .getSpanColorPainter])
    (h : getPainter s sel = .next t) : BlockStep s t := by
  unfold getPainter at h
  dsimp only at h
  split at h
  · split at h
    · cases h
      exact .unsupported w i he hd hi
    · cases h
      exact .selected w i _ he hd hi
  · cases h
    exact .fault w _ he

theorem paintRows_step {s t : State} {w : Word} {rect : Rect} {ds : List Desc} {sel : Fam → BitVec 10}
    (he : s.eng = some ⟨w, .start⟩) (hn : 1 ≤ s.regs.dst.n) (hs : ∀ f, ∃ i, decodeKsel (sel f) = .ok i)
    (h : paintRows s rect ds sel = .next t) : BlockStep s t := by
  unfold paintRows at h
  split at h
  · cases h
    exact .done w he
  · rename_i hne
    split at h
    · cases h
      exact .fault w _ he
    · rename_i f _
      split at h
      · cases h
      · cases h
        exact .startsSpan w _ he (firstRow_spanOk (hs f) hne hn)

theorem overFault_none {s : State} (h : overFault s = none) : 1 ≤ s.regs.dst.n := by
  unfold overFault at h
  dsimp only at h
  split at h
  · cases h
  · split at h
    · cases h
    · rename_i h2
      simp only [Bool.or_eq_true, Bool.not_eq_true', not_or, Bool.not_eq_false] at h2
      exact countOk_pos h2.1

theorem overMaskFault_none {s : State} (h : overMaskFault s = none) : 1 ≤ s.regs.dst.n := by
  unfold overMaskFault at h
  dsimp only at h
  split at h
  · cases h
  · split at h
    · cases h
    · rename_i h2
      simp only [Bool.or_eq_true, Bool.not_eq_true', not_or, Bool.not_eq_false] at h2
      exact countOk_pos h2.1.1

theorem glyphFault_none {s : State} (h : glyphFault s = none) : 1 ≤ s.regs.dst.n := by
  unfold glyphFault at h
  dsimp only at h
  split at h
  · cases h
  · split at h
    · cases h
    · rename_i h2
      exact countOk_pos (by simpa using h2)

/-- What a command can do when it is executed. -/
theorem command_step {s t : State} {w : Word} {i : Instr} (he : s.eng = some ⟨w, .start⟩) (hd : decodeCmd w = .ok i)
    (h : exec i s = .next t) : BlockStep s t := by
  have hm := decodeCmd_mem hd
  simp only [commands, List.mem_cons, List.not_mem_nil, or_false] at hm
  rcases hm with rfl | rfl | rfl | rfl | rfl | rfl | rfl | rfl | rfl | rfl | rfl | rfl | rfl | rfl
  · cases h
    exact .done w he
  · exact aluCommand_step he hd (by simp) h
  · exact aluCommand_step he hd (by simp) h
  · exact aluCommand_step he hd (by simp) h
  · exact aluCommand_step he hd (by simp) h
  · simp only [exec, execGetSolidPainter] at h
    exact getPainter_step he hd (by simp) h
  · simp only [exec, execGetSpanPainter] at h
    exact getPainter_step he hd (by simp) h
  · simp only [exec, execGetSpanMaskPainter] at h
    exact getPainter_step he hd (by simp) h
  · simp only [exec, execGetSpanColorPainter] at h
    exact getPainter_step he hd (by simp) h
  · simp only [exec, execRunKernel] at h
    split at h
    · cases h
      exact .fault w _ he
    · rename_i hf
      split at h
      · cases h
        exact .done w he
      · rename_i hw
        cases h
        exact .startsSpan w _ he (runKernel_spanOk hf hw)
  · simp only [exec, execPaintOver] at h
    split at h
    · cases h
      exact .fault w _ he
    · exact paintRows_step he (overFault_none ‹_›) (fun f => decodeKsel_over ..) h
  · simp only [exec, execPaintOverClipped] at h
    split at h
    · cases h
      exact .fault w _ he
    · exact paintRows_step he (overFault_none ‹_›) (fun f => decodeKsel_over ..) h
  · simp only [exec, execPaintOverMask] at h
    split at h
    · cases h
      exact .fault w _ he
    · exact paintRows_step he (overMaskFault_none ‹_›) (fun f => decodeKsel_mask ..) h
  · simp only [exec, execPaintGlyph] at h
    split at h
    · cases h
      exact .fault w _ he
    · rename_i hf
      split at h
      · cases h
        exact .done w he
      · split at h
        · cases h
          exact .done w he
        · split at h
          · cases h
            exact .fault w _ he
          · cases h
            exact .startsGlyph w _ he (glyphFault_none hf)

theorem consumeRun_step {s t : State} {w : Word} {g g1 : Rle} {run : Run} {log : List Access}
    (he : s.eng = some ⟨w, .glyph g⟩) (hg : g1 = { g with p := g1.p })
    (h : consumeRun (s.setPx { s.px with log := log }) g1 run = .next t) : BlockStep s t := by
  unfold consumeRun at h
  dsimp only at h
  split at h
  · cases h
    exact .glyphMove w g _ log he
  · obtain ⟨m, hm, rfl⟩ := emitRun_next h
    refine .glyphEmit w g { g1 with extend := 0 } _ run.tag log _ m he ?_ ?_ ?_ hm
    · rw [hg]
    · rw [hg]
      exact Nat.min_le_right _ _
    · rw [hg]
  · cases h
  · cases h

theorem readEntry_ok {p : Params} {a : Nat} {m m' : Pixmem} {b : Byte × Byte × Byte × Byte}
    (h : readEntry p a m = .ok (b, m')) :
    b = (m.byte a, m.byte (addrPlus p a 1), m.byte (addrPlus p a 2), m.byte (addrPlus p a 3)) ∧
      ∃ log, m' = { m with log := log } := by
  unfold readEntry at h
  split at h
  · cases h
  · rename_i h0
    split at h
    · cases h
    · rename_i h1
      split at h
      · cases h
      · rename_i h2
        split at h
        · cases h
        · rename_i h3
          cases h
          obtain ⟨rfl, rfl⟩ := readSrc_ok h0
          obtain ⟨rfl, rfl⟩ := readSrc_ok h1
          obtain ⟨rfl, rfl⟩ := readSrc_ok h2
          obtain ⟨rfl, rfl⟩ := readSrc_ok h3
          exact ⟨rfl, _, rfl⟩

/-- What a row transition of the run decoder can do. -/
theorem glyphMicro_step {s t : State} {w : Word} {g : Rle} (he : s.eng = some ⟨w, .glyph g⟩)
    (h : glyphMicro s g = .next t) : BlockStep s t := by
  have hpx : s.setPx { s.px with log := s.px.log } = s := rfl
  unfold glyphMicro at h
  split at h
  · split at h
    · rename_i b m hr
      obtain ⟨-, log, rfl⟩ := readEntry_ok hr
      cases h
      exact .glyphMove w g _ log he
    · rename_i e _
      cases e <;> cases h
  · cases h
    exact .glyphMove w g _ s.px.log he
  · split at h
    · split at h
      · cases h
        exact .glyphMove w g _ s.px.log he
      · obtain ⟨m, hm, rfl⟩ := emitRun_next h
        exact .glyphEmit w g g _ _ s.px.log _ m he rfl (Nat.min_le_right _ _) rfl hm
    · cases h
      exact .glyphMove w g _ s.px.log he
  · split at h
    · cases h
      exact .glyphMove w g _ s.px.log he
    · cases h
      exact .glyphDone w g he

/-- What a run header can do. -/
theorem header_step {s t : State} {w : Word} {g : Rle} {b : Byte} (he : s.eng = some ⟨w, .glyph g⟩)
    (h : exec (decodeRun b) s = .next t) : BlockStep s t := by
  have key : ∀ f : State → Rle → Host.Outcome State Fault Refusal, onHeader s f = .next t →
      ∃ log g1, f (s.setPx { s.px with log := log }) g1 = .next t ∧ g1 = { g with p := g1.p } := by
    intro f hf
    obtain ⟨w', g', he', -, hn⟩ := onHeader_next hf
    have : g = g' := by simp_all
    subst this
    exact ⟨_, _, hn, rfl⟩
  unfold decodeRun at h
  split at h
  · simp only [exec, execRunExtend] at h
    obtain ⟨log, g1, hn, -⟩ := key _ h
    cases hn
    exact .glyphMove w g _ log he
  · simp only [exec, execRunTransparent] at h
    obtain ⟨log, g1, hn, hg⟩ := key _ h
    exact consumeRun_step he hg hn
  · simp only [exec, execRunSolid] at h
    obtain ⟨log, g1, hn, hg⟩ := key _ h
    exact consumeRun_step he hg hn
  · simp only [exec, execRunIntermediate] at h
    obtain ⟨log, g1, hn, hg⟩ := key _ h
    exact consumeRun_step he hg hn

/-- Everything one step of the block can do. -/
theorem engineStep_cases {s t : State} (h : engineStep s = .next t) : BlockStep s t := by
  unfold engineStep at h
  cases he : s.eng with
  | none =>
    simp only [State.fetch, he, engineMicro] at h
    cases h
    exact .idle he
  | some e =>
    obtain ⟨w, act⟩ := e
    cases act with
    | start =>
      simp only [State.fetch, he, decode] at h
      split at h
      · exact command_step he ‹_› h
      · rename_i e hd
        cases h
        cases e <;> exact .fault w _ he
    | spans q =>
      simp only [State.fetch, he, decode] at h
      split at h
      · rename_i i hd
        obtain ⟨op, hop, hex⟩ := decodeKsel_kernel hd
        rw [hex] at h
        obtain ⟨w', q', m, he', hm, rfl⟩ := runSpan_next h
        have : q = q' := by simp_all
        subst this
        exact .span w q i op m he hd hop hm
      · rename_i e hd
        cases h
        have hno : ∀ i, decodeKsel q.k ≠ .ok i := by
          intro i hi
          rw [hi] at hd
          cases hd
        cases e <;> exact .badSelector w q _ he hno
    | glyph g =>
      by_cases hw : g.wantsHeader = true
      · simp only [State.fetch, he, if_pos hw, decode] at h
        exact header_step he h
      · simp only [State.fetch, he, if_neg hw, engineMicro] at h
        exact glyphMicro_step he h

/-- A step of the block keeps the canonical form of pixel memory. -/
theorem BlockStep.keepsForm {s t : State} (h : BlockStep s t) (hw : s.px.wf = true) : t.px.wf = true := by
  cases h with
  | span w q i op m he hd hop hm =>
    simp only [endSpan_px, State.setPx_px]
    exact (upto_frames (B := fun _ => True) (fun j _ => (hop s q j).mono (fun _ _ => trivial)) _ _ hm hw).1
  | glyphEmit w g g1 g' tag log n m he h1 h2 h3 hm =>
    exact (upto_frames (B := fun _ => True) (fun j _ => emitPixel_frames.mono (fun _ _ => trivial)) _ _ hm hw).1
  | _ => exact hw

end Sys2Proof.Machine
end

