-- ==== Sys2Proof/Laws/Host.lean ====
section
/-! SUPPORT. Everything an access of the host, a reset and a step of the machine can do, said once. -/

namespace Sys2Proof.Machine

open Sys2Proof

/-- What one access of the host makes of a state. -/
inductive HostStep (s : State) : State → Prop where
  /-- An access that is not the block's, or a write that is ignored. -/
  | none : HostStep s s
  /-- A register read. -/
  | read (v : Word) : HostStep s (s.setHostData v)
  /-- A register write. -/
  | write (r : Reg) (v : Word) : HostStep s (writeReg s r v)
  /-- A read of pixel memory. -/
  | memRead (log : List Access) (v : Word) : HostStep s ((s.setPx { s.px with log := log }).setHostData v)
  /-- A write of one byte of pixel memory. -/
  | memWrite (log : List Access) (a : Nat) (v : Byte) :
      HostStep s (s.setPx { s.px with log := log, cells := setCell s.px.cells a v })

theorem hostTouch_ok {s : State} {k : AccessKind} {a : Nat} {m : Pixmem} (h : hostTouch s k a = .ok m) :
    ∃ log, m = { s.px with log := log } := by
  unfold hostTouch at h
  split at h
  · obtain ⟨-, -, rfl⟩ := touch_ok h
    exact ⟨_, rfl⟩
  · split at h
    · cases h
      exact ⟨_, rfl⟩
    · cases h

theorem regAccess_next {s t : State} {a : Nat} {f : Option Reg → State} (h : regAccess s a f = .next t) :
    t = s ∨ t = f (regAt (a - s.cfg.regBase)) := by
  unfold regAccess at h
  split at h
  · split at h
    · cases h
      exact Or.inr rfl
    · cases h
  · cases h
    exact Or.inl rfl

/-- Everything an access of the host can do. -/
theorem hostAccess_cases {s t : State} {op : HostOp} (h : hostAccess s op = .next t) : HostStep s t := by
  cases op with
  | write a v =>
    rcases regAccess_next (f := fun r => match r with
      | some r => writeReg s r v
      | .none => s) h with rfl | rfl
    · exact .none
    · cases regAt (a - s.cfg.regBase) with
      | some r => exact .write r v
      | none => exact .none
  | read a =>
    rcases regAccess_next (f := fun r => match r with
      | some r => s.setHostData (readReg s r)
      | .none => s.setHostData 0) h with rfl | rfl
    · exact .none
    · cases regAt (a - s.cfg.regBase) with
      | some r => exact .read _
      | none => exact .read _
  | memWrite a v =>
    simp only [hostAccess, hostMemWrite] at h
    split at h
    · rename_i m hm
      obtain ⟨log, rfl⟩ := hostTouch_ok hm
      cases h
      exact .memWrite log a v
    · rename_i e _
      cases e <;> cases h
  | memRead a =>
    simp only [hostAccess, hostMemRead] at h
    split at h
    · rename_i m hm
      obtain ⟨log, rfl⟩ := hostTouch_ok hm
      cases h
      exact .memRead log _
    · rename_i e _
      cases e <;> cases h

/-- What a host register write can do: it changes the status, starts a command, or stores bits. -/
theorem writeReg_cases (s : State) (r : Reg) (v : Word) :
    writeReg s r v = s.setStatus (statusWrite s.status v) ∨ writeReg s r v = s.setStatus (statusDropped s.status) ∨
      s.busy = false ∧ writeReg s r v = s.accept v ∨
      writeReg s r v = s.setRegs (putReg s.cfg s.regs v r) := by
  cases r <;> first
    | exact Or.inr (Or.inr (Or.inr rfl))
    | exact Or.inl rfl
    | (unfold writeReg
       dsimp only
       by_cases hb : s.busy = true
       · simp [hb]
       · simp [hb])

/-- What a reset can do. -/
theorem resetBlock_next {s t : State} (h : resetBlock s = .next t) :
    ∃ m, resetPx s = .ok m ∧ t = { State.resetWith s.cfg with px := m, inputs := s.inputs, hostData := s.hostData } := by
  unfold resetBlock at h
  split at h
  · rename_i m hm
    cases h
    exact ⟨m, hm, rfl⟩
  · rename_i e _
    cases e <;> cases h

/-- What a reset does to pixel memory: some bytes take free values, and no others change. -/
theorem resetPx_ok {s : State} {m : Pixmem} (h : resetPx s = .ok m) :
    ∃ as log, m = { s.px.havoc as with log := log } ∧ (s.busy = false → as = []) := by
  unfold resetPx at h
  split at h
  · rename_i hb
    split at h
    · cases h
      exact ⟨_, _, rfl, fun hf => by simp [hb] at hf⟩
    · cases h
  · cases h
    exact ⟨[], _, rfl, fun _ => rfl⟩

/-- A step of the machine is a step of the block or the next event of the schedule. -/
theorem step_cases {s t : State} (h : step s = .next t) :
    s.inputs = [] ∧ engineStep s = .next t ∨
      ∃ e rest, s.inputs = e :: rest ∧ onEvent (s.setInputs rest) e = .next t := by
  unfold step machineStep at h
  split at h
  · exact Or.inl ⟨‹_›, h⟩
  · exact Or.inr ⟨_, _, ‹_›, h⟩

/-- With no event to come, a step is a step of the block. -/
theorem step_quiet {s : State} (h : s.inputs = []) : step s = engineStep s := by
  unfold step machineStep
  rw [h]

/-- A run whose first step answers a next state goes on from there. -/
theorem run_next {k : Nat} {s t : State} (h : step s = .next t) :
    Host.Core.run Sys2Proof.core (k + 1) s = Host.Core.run Sys2Proof.core k t := by
  have h' : Sys2Proof.core.step s = .next t := h
  simp only [Host.Core.run, h']

/-- What the engine does with the word of a command, the selector of a span and the header of a glyph row. -/
theorem engineStep_command {s : State} {w : Word} {i : Instr} (he : s.eng = some ⟨w, .start⟩)
    (hd : decodeCmd w = .ok i) : engineStep s = exec i s := by
  simp only [engineStep, State.fetch, he, decode, hd]

theorem engineStep_span {s : State} {w : Word} {q : Seq} {i : Instr} (he : s.eng = some ⟨w, .spans q⟩)
    (hd : decodeKsel q.k = .ok i) : engineStep s = exec i s := by
  simp only [engineStep, State.fetch, he, decode, hd]

theorem engineStep_header {s : State} {w : Word} {g : Rle} (he : s.eng = some ⟨w, .glyph g⟩)
    (hw : g.wantsHeader = true) : engineStep s = exec (decodeRun (s.px.byte g.p)) s := by
  simp only [engineStep, State.fetch, he, if_pos hw, decode]

theorem engineStep_micro {s : State} {w : Word} {g : Rle} (he : s.eng = some ⟨w, .glyph g⟩)
    (hw : g.wantsHeader = false) : engineStep s = glyphMicro s g := by
  simp only [engineStep, State.fetch, he, hw, engineMicro]
  rfl

end Sys2Proof.Machine
end

