-- ==== Sys2Proof/Laws/PerInstr.lean ====
section
/-! SUPPORT. One lemma per instruction: no encoding sets a reserved bit. -/

namespace Sys2Proof.Laws.ReservedBits

open Sys2Proof

/-- The encoding of an instruction has its reserved bits 0: bits [31:8] of a command (R81), bit 7 of a selector (R84). A
run header has none (R94). -/
def Statement (i : Instr) : Prop :=
  match encode i with
  | .cmd w => w.toNat < 256
  | .ksel k => k.getLsbD 7 = false
  | .run _ => True

theorem nop : Statement (.nop) := by
  simp [Statement, encode]

theorem expand : Statement (.expand) := by
  simp [Statement, encode]

theorem combine : Statement (.combine) := by
  simp [Statement, encode]

theorem blend : Statement (.blend) := by
  simp [Statement, encode]

theorem combine2 : Statement (.combine2) := by
  simp [Statement, encode]

theorem getSolidPainter : Statement (.getSolidPainter) := by
  simp [Statement, encode]

theorem getSpanPainter : Statement (.getSpanPainter) := by
  simp [Statement, encode]

theorem getSpanMaskPainter : Statement (.getSpanMaskPainter) := by
  simp [Statement, encode]

theorem getSpanColorPainter : Statement (.getSpanColorPainter) := by
  simp [Statement, encode]

theorem runKernel : Statement (.runKernel) := by
  simp [Statement, encode]

theorem paintOver : Statement (.paintOver) := by
  simp [Statement, encode]

theorem paintOverClipped : Statement (.paintOverClipped) := by
  simp [Statement, encode]

theorem paintOverMask : Statement (.paintOverMask) := by
  simp [Statement, encode]

theorem paintGlyph : Statement (.paintGlyph) := by
  simp [Statement, encode]

theorem kSolidAlpha (fam : Fam) : Statement (.kSolidAlpha fam) := by
  cases fam <;> rfl

theorem kSolidOverwrite (fam : Fam) : Statement (.kSolidOverwrite fam) := by
  cases fam <;> rfl

theorem kSolidDa (fam : Fam) : Statement (.kSolidDa fam) := by
  cases fam <;> rfl

theorem kOverGeneral (fam : Fam) : Statement (.kOverGeneral fam) := by
  cases fam <;> rfl

theorem kOverGeneralDa (fam : Fam) : Statement (.kOverGeneralDa fam) := by
  cases fam <;> rfl

theorem kOverGeneralSa (fam : Fam) : Statement (.kOverGeneralSa fam) := by
  cases fam <;> rfl

theorem kOverGeneralDaSa (fam : Fam) : Statement (.kOverGeneralDaSa fam) := by
  cases fam <;> rfl

theorem kOverOpaque (fam : Fam) : Statement (.kOverOpaque fam) := by
  cases fam <;> rfl

theorem kOverOpaqueDa (fam : Fam) : Statement (.kOverOpaqueDa fam) := by
  cases fam <;> rfl

theorem kOverOpaqueSa (fam : Fam) : Statement (.kOverOpaqueSa fam) := by
  cases fam <;> rfl

theorem kOverOpaqueDaSa (fam : Fam) : Statement (.kOverOpaqueDaSa fam) := by
  cases fam <;> rfl

theorem kOverSkip (fam : Fam) : Statement (.kOverSkip fam) := by
  cases fam <;> rfl

theorem kOverSkipDa (fam : Fam) : Statement (.kOverSkipDa fam) := by
  cases fam <;> rfl

theorem kOverSkipSa (fam : Fam) : Statement (.kOverSkipSa fam) := by
  cases fam <;> rfl

theorem kOverSkipDaSa (fam : Fam) : Statement (.kOverSkipDaSa fam) := by
  cases fam <;> rfl

theorem kMask (fam : Fam) : Statement (.kMask fam) := by
  cases fam <;> rfl

theorem kMaskDa (fam : Fam) : Statement (.kMaskDa fam) := by
  cases fam <;> rfl

theorem kMaskSa (fam : Fam) : Statement (.kMaskSa fam) := by
  cases fam <;> rfl

theorem kMaskDaSa (fam : Fam) : Statement (.kMaskDaSa fam) := by
  cases fam <;> rfl

theorem kColor (fam : Fam) : Statement (.kColor fam) := by
  cases fam <;> rfl

theorem kColorDa (fam : Fam) : Statement (.kColorDa fam) := by
  cases fam <;> rfl

theorem runExtend (m : Nat) : Statement (.runExtend m) := trivial

theorem runTransparent (f : Nat) : Statement (.runTransparent f) := trivial

theorem runSolid (f : Nat) (eol : Bool) : Statement (.runSolid f eol) := trivial

theorem runIntermediate (f : Nat) (eol : Bool) : Statement (.runIntermediate f eol) := trivial

end Sys2Proof.Laws.ReservedBits
end

