-- ==== Sys2Proof/Laws/Replay.lean ====
section
/-! SUPPORT. What one row of a command does depends on the bytes and not on the row it is, nor on the accesses before it: an
operation that goes through on a memory goes through, with the same bytes, on a memory whose log rules out no more. -/

namespace Sys2Proof.Machine

open Sys2Proof

/-- The same access of the row `y` and of the row `y'`. -/
inductive SameAccess (y y' : Int) : AccessKind → AccessKind → Prop where
  | srcRead : SameAccess y y' .srcRead .srcRead
  | dstRead : SameAccess y y' (.dstRead y) (.dstRead y')
  | dstWrite : SameAccess y y' (.dstWrite y) (.dstWrite y')

/-- `m'` has the bytes and the draws of `m`, and each of its logged accesses is one of `m`. -/
structure Mirror (y y' : Int) (m m' : Pixmem) : Prop where
  cells : m'.cells = m.cells
  draws : m'.draws = m.draws
  log : ∀ a k', ⟨a, k'⟩ ∈ m'.log → ∃ k, ⟨a, k⟩ ∈ m.log ∧ SameAccess y y' k k'

/-- A memory with an empty log mirrors every memory with its bytes and draws. -/
theorem Mirror.of_empty {y y' : Int} {m m' : Pixmem} (hc : m'.cells = m.cells) (hd : m'.draws = m.draws)
    (hl : m'.log = []) : Mirror y y' m m' := ⟨hc, hd, fun a k h => by simp [hl] at h⟩

theorem Mirror.byte {y y' : Int} {m m' : Pixmem} (h : Mirror y y' m m') : m'.byte = m.byte := by
  funext a
  simp [Pixmem.byte, h.cells]

/-- Within one row, what two accesses rule out is the same for every row. -/
theorem clash_same {y y' : Int} {j j' k k' : AccessKind} (hj : SameAccess y y' j j') (hk : SameAccess y y' k k')
    (h : clash j k = none) : clash j' k' = none := by
  cases hj <;> cases hk <;> simp_all [clash]

theorem Mirror.clashAt {y y' : Int} {m m' : Pixmem} (h : Mirror y y' m m') {k k' : AccessKind} {a : Nat}
    (hk : SameAccess y y' k k') (hc : m.clashAt k a = none) : m'.clashAt k' a = none :=
  clashAt_none_iff.2 fun j' hj' =>
    let ⟨_, hj, hs⟩ := h.log a j' hj'
    clash_same hs hk (clashAt_none_iff.1 hc _ hj)

/-- Both memories log the same access, and take the same bytes and draws. -/
theorem Mirror.cons {y y' : Int} {m m' n n' : Pixmem} (h : Mirror y y' m m') {k k' : AccessKind} {a : Nat}
    (hk : SameAccess y y' k k') (hc : n'.cells = n.cells) (hd : n'.draws = n.draws) (hn : n.log = ⟨a, k⟩ :: m.log)
    (hn' : n'.log = ⟨a, k'⟩ :: m'.log) : Mirror y y' n n' := by
  refine ⟨hc, hd, fun b j hj => ?_⟩
  rw [hn'] at hj
  rcases List.mem_cons.1 hj with e | hj
  · cases e
    exact ⟨k, by simp [hn], hk⟩
  · obtain ⟨j0, h0, hs⟩ := h.log b j hj
    exact ⟨j0, by simp [hn, h0], hs⟩

theorem read_replays {p : Params} {y y' : Int} {m m' n : Pixmem} {k k' : AccessKind} {a : Nat} {b : Byte}
    (h : Mirror y y' m m') (hk : SameAccess y y' k k') (e : m.read p k a = .ok (b, n)) :
    ∃ n', m'.read p k' a = .ok (b, n') ∧ Mirror y y' n n' := by
  obtain ⟨rfl, rfl⟩ := read_ok e
  have ht : ∃ x, m.touch p k a = .ok x := by
    unfold Pixmem.read at e
    split at e
    · exact ⟨_, ‹_›⟩
    · cases e
  obtain ⟨x, ht⟩ := ht
  obtain ⟨hb, hc, -⟩ := touch_ok ht
  refine ⟨{ m' with log := ⟨a, k'⟩ :: m'.log }, ?_, h.cons hk h.cells h.draws rfl rfl⟩
  rw [read_eq hb (h.clashAt hk hc), h.byte]

theorem write_replays {p : Params} {y y' : Int} {m m' n : Pixmem} {k k' : AccessKind} {a : Nat} {v : Byte}
    (h : Mirror y y' m m') (hk : SameAccess y y' k k') (e : m.write p k a v = .ok n) :
    ∃ n', m'.write p k' a v = .ok n' ∧ Mirror y y' n n' := by
  have ht : ∃ x, m.touch p k a = .ok x := by
    unfold Pixmem.write at e
    split at e
    · exact ⟨_, ‹_›⟩
    · cases e
  have hn := write_ok e
  subst hn
  obtain ⟨x, ht⟩ := ht
  obtain ⟨hb, hc, -⟩ := touch_ok ht
  exact ⟨_, write_eq hb (h.clashAt hk hc), h.cons hk (by simp [h.cells]) h.draws rfl rfl⟩

/-! ## The parts of a pixel -/

/-- `f'` on row `y'` does what `f` does on row `y`. -/
def Replays (y y' : Int) (f f' : Pixmem → Except Stop Pixmem) : Prop :=
  ∀ m m' n, Mirror y y' m m' → f m = .ok n → ∃ n', f' m' = .ok n' ∧ Mirror y y' n n'

/-- A byte computation that looks at nothing but the draw counter. -/
def Replayable (f : Byte → Pixmem → Byte × Pixmem) : Prop :=
  ∀ y y' d m m', Mirror y y' m m' → (f d m').1 = (f d m).1 ∧ Mirror y y' (f d m).2 (f d m').2

theorem store8_replayable (p : Params) (g : Byte → Int) : Replayable (fun d => store8 p (g d)) := by
  intro y y' d m m' h
  unfold store8
  dsimp only
  split
  · exact ⟨rfl, h⟩
  · split
    · exact ⟨rfl, h⟩
    · exact ⟨by simp [Pixmem.drawByte, h.draws], h.cells, by simp [Pixmem.drawByte, h.draws], h.log⟩

theorem blendTo_replayable (t w : Int) : Replayable (blendTo t w) := fun _ _ _ _ _ h => ⟨rfl, h⟩

theorem skip_replays {y y' : Int} : Replays y y' (fun m => .ok m) (fun m => .ok m) := fun m m' n h e => by
  cases e
  exact ⟨m', rfl, h⟩

variable {p : Params} {y y' : Int}

/-- One source read, then what depends on its byte. -/
theorem readThen_replays {a : Nat} {g g' : Byte → Pixmem → Except Stop Pixmem} (hg : ∀ b, Replays y y' (g b) (g' b)) :
    Replays y y'
      (fun m => match readSrc p a m with
        | .ok (b, m1) => g b m1
        | .error e => .error e)
      (fun m => match readSrc p a m with
        | .ok (b, m1) => g' b m1
        | .error e => .error e) := by
  intro m m' n h e
  dsimp only at e ⊢
  split at e
  · rename_i b m1 e1
    obtain ⟨n1, e1', h1⟩ := read_replays h .srcRead e1
    have : readSrc p a m' = .ok (b, n1) := e1'
    rw [this]
    exact hg b m1 n1 n h1 e
  · cases e

theorem putDst_replays {a : Nat} {v : Byte} : Replays y y' (putDst p y a v) (putDst p y' a v) :=
  fun _ _ _ h e => write_replays h .dstWrite e

theorem updateDst_replays {a : Nat} {f : Byte → Pixmem → Byte × Pixmem} (hf : Replayable f) :
    Replays y y' (updateDst p y a f) (updateDst p y' a f) := by
  intro m m' n h e
  unfold updateDst at e ⊢
  split at e
  · rename_i d m1 e1
    obtain ⟨n1, e1', h1⟩ := read_replays h .dstRead e1
    obtain ⟨hb, h2⟩ := hf y y' d m1 n1 h1
    rw [e1']
    simp only [hb]
    exact write_replays h2 .dstWrite e
  · cases e

theorem ifAlpha_replays {da : Bool} {f f' : Pixmem → Except Stop Pixmem} (h : Replays y y' f f') :
    Replays y y' (ifAlpha da f) (ifAlpha da f') := by
  cases da
  · exact skip_replays
  · exact h

theorem upto_replays {f f' : Nat → Pixmem → Except Stop Pixmem} {n : Nat} (h : ∀ k, Replays y y' (f k) (f' k)) :
    Replays y y' (upto f n) (upto f' n) := by
  induction n with
  | zero => exact skip_replays
  | succ n ih =>
    intro m m' x hm e
    unfold upto at e ⊢
    split at e
    · rename_i m1 e1
      obtain ⟨n1, e1', h1⟩ := ih m m' m1 hm e1
      rw [e1']
      exact h n m1 n1 x h1 e
    · cases e

/-- The channels of a pixel, then its alpha byte. -/
theorem pixelLoop_replays {f f' : Nat → Pixmem → Except Stop Pixmem} {g g' : Pixmem → Except Stop Pixmem} {c : Nat}
    {da : Bool} (hf : ∀ k, Replays y y' (f k) (f' k)) (hg : Replays y y' g g') :
    Replays y y'
      (fun m => match upto f c m with
        | .ok m1 => ifAlpha da g m1
        | .error e => .error e)
      (fun m => match upto f' c m with
        | .ok m1 => ifAlpha da g' m1
        | .error e => .error e) := by
  intro m m' n h e
  dsimp only at e ⊢
  split at e
  · rename_i m1 e1
    obtain ⟨n1, e1', h1⟩ := upto_replays hf m m' m1 h e1
    rw [e1']
    exact ifAlpha_replays hg m1 n1 n h1 e
  · cases e

theorem rawCopy_replays {dp sp c : Nat} {da : Bool} : Replays y y' (rawCopy p y dp sp c da) (rawCopy p y' dp sp c da) :=
  pixelLoop_replays (fun _ => readThen_replays fun _ => putDst_replays) putDst_replays

theorem overBlend_replays {dp sp : Nat} {sA w t : Int} {c : Nat} {da : Bool} :
    Replays y y' (overBlend p y dp sp sA w t c da) (overBlend p y' dp sp sA w t c da) :=
  pixelLoop_replays (fun _ => readThen_replays fun _ => updateDst_replays (store8_replayable p _))
    (updateDst_replays (store8_replayable p _))

theorem rawColor_replays {dp c : Nat} {da : Bool} {color : Nat → Byte} :
    Replays y y' (rawColor p y dp c da color) (rawColor p y' dp c da color) :=
  pixelLoop_replays (fun _ => putDst_replays) putDst_replays

theorem colorBlend_replays {dp : Nat} {w : Int} {c : Nat} {da : Bool} {color : Nat → Byte} :
    Replays y y' (colorBlend p y dp w c da color) (colorBlend p y' dp w c da color) :=
  pixelLoop_replays (fun _ => updateDst_replays (blendTo_replayable _ _)) (updateDst_replays (blendTo_replayable _ _))

theorem colorPixel_replays {dp : Nat} {w : Int} {c : Nat} {da : Bool} {color : Nat → Byte} :
    Replays y y' (colorPixel p y dp w c da color) (colorPixel p y' dp w c da color) := by
  intro m m' n h e
  unfold colorPixel at e ⊢
  split at e
  · rw [if_pos ‹_›]
    exact skip_replays m m' n h e
  · rw [if_neg ‹_›]
    split at e
    · rw [if_pos ‹_›]
      exact rawColor_replays m m' n h e
    · rw [if_neg ‹_›]
      exact colorBlend_replays m m' n h e

/-- `OVER_PIXEL` after its source alpha is known (R125). -/
theorem overMux_replays {dp sp : Nat} {sA w ew : Int} {c : Nat} {da : Bool} : Replays y y'
    (fun m => if ew = 0 then .ok m else if ew = 256 then rawCopy p y dp sp c da m
      else overBlend p y dp sp sA w (256 - ew) c da m)
    (fun m => if ew = 0 then .ok m else if ew = 256 then rawCopy p y' dp sp c da m
      else overBlend p y' dp sp sA w (256 - ew) c da m) := by
  by_cases h0 : ew = 0
  · simp only [if_pos h0]
    exact skip_replays
  · by_cases h1 : ew = 256
    · simp only [if_neg h0, if_pos h1]
      exact rawCopy_replays
    · simp only [if_neg h0, if_neg h1]
      exact overBlend_replays

theorem overPixel_replays {dp sp : Nat} {w : Int} {c : Nat} {da sa : Bool} :
    Replays y y' (overPixel p y dp sp w c da sa) (overPixel p y' dp sp w c da sa) := by
  cases sa
  · exact overMux_replays (sA := 255) (ew := effWeight false 255 w)
  · intro m m' n h e
    unfold overPixel srcAlpha at e ⊢
    simp only [if_true] at e ⊢
    split at e
    · rename_i sA m1 e1
      split at e1
      · rename_i b m2 e2
        cases e1
        obtain ⟨n1, e2', h1⟩ := read_replays h .srcRead e2
        have : readSrc p (addrPlus p sp c) m' = .ok (b, n1) := e2'
        rw [this]
        exact overMux_replays (sA := sample b) (ew := effWeight true (sample b) w) m1 n1 n h1 e
      · cases e1
    · cases e

/-! ## Spans -/

/-- A pixel operation that looks at no more of the state than the parameters, the colors and the plane alpha, and at no more
of the span than its pointers, its length and its count. -/
def PixelReplays (op : PixelOp) : Prop :=
  ∀ (s t : State) (q q' : Seq) (j : Nat), t.cfg = s.cfg → t.regs.color = s.regs.color →
    t.regs.kern.alpha = s.regs.kern.alpha → q'.n = q.n → q'.dp = q.dp → q'.sp = q.sp → q'.mp = q.mp →
    Replays q.y q'.y (op s q j) (op t q' j)

theorem colorAt_congr {r r' : Regs} (h : r'.color = r.color) : colorAt r' = colorAt r := by
  funext i
  simp [colorAt, h]

theorem solidPixel_replays (da : Bool) : PixelReplays (solidPixel da) := by
  intro s t q q' j hp hc _ hn hd _ _
  unfold solidPixel
  simp only [dstPx, spanColors, hp, hn, hd, colorAt_congr hc]
  exact colorPixel_replays

theorem overwritePixel_replays : PixelReplays overwritePixel := by
  intro s t q q' j hp hc _ hn hd _ _
  unfold overwritePixel
  simp only [dstPx, spanColors, hp, hn, hd, colorAt_congr hc]
  exact upto_replays fun _ => putDst_replays

theorem overSpanPixel_replays (da sa : Bool) {w : State → Int}
    (hw : ∀ s t : State, t.regs.kern.alpha = s.regs.kern.alpha → w t = w s) : PixelReplays (overSpanPixel da sa w) := by
  intro s t q q' j hp _ ha hn hd hs _
  unfold overSpanPixel
  simp only [dstPx, srcPx, spanColors, hp, hn, hd, hs, hw s t ha]
  exact overPixel_replays

theorem planeWeight_congr (s t : State) (h : t.regs.kern.alpha = s.regs.kern.alpha) : planeWeight t = planeWeight s := by
  simp [planeWeight, h]

theorem skipPixel_replays : PixelReplays skipPixel := fun _ _ _ _ _ _ _ _ _ _ _ _ => skip_replays

theorem maskPixel_replays (da sa : Bool) : PixelReplays (maskPixel da sa) := by
  intro s t q q' j hp _ _ hn hd hs hm
  unfold maskPixel
  simp only [dstPx, srcPx, mskPx, spanColors, hp, hn, hd, hs, hm]
  refine readThen_replays fun b => ?_
  by_cases h0 : expand (sample b) = 0
  · simp only [if_pos h0]
    exact skip_replays
  · simp only [if_neg h0]
    exact overPixel_replays

theorem colorSpanPixel_replays (da : Bool) : PixelReplays (colorSpanPixel da) := by
  intro s t q q' j hp hc _ hn hd _ hm
  unfold colorSpanPixel
  simp only [dstPx, mskPx, spanColors, hp, hn, hd, hm, colorAt_congr hc]
  exact readThen_replays fun _ => colorPixel_replays

theorem decodeVariant_replays {f : Fam} {n : Nat} {i : Instr} (h : decodeVariant f n = some i) :
    ∃ op, PixelReplays op ∧ ∀ s, exec i s = runSpan op s := by
  unfold decodeVariant at h
  split at h
  · cases h
    exact ⟨_, solidPixel_replays _, fun _ => rfl⟩
  · cases h
    exact ⟨_, overwritePixel_replays, fun _ => rfl⟩
  · cases h
    exact ⟨_, solidPixel_replays _, fun _ => rfl⟩
  · cases h
    exact ⟨_, overSpanPixel_replays _ _ planeWeight_congr, fun _ => rfl⟩
  · cases h
    exact ⟨_, overSpanPixel_replays _ _ planeWeight_congr, fun _ => rfl⟩
  · cases h
    exact ⟨_, overSpanPixel_replays _ _ planeWeight_congr, fun _ => rfl⟩
  · cases h
    exact ⟨_, overSpanPixel_replays _ _ planeWeight_congr, fun _ => rfl⟩
  · cases h
    exact ⟨_, overSpanPixel_replays _ _ fun _ _ _ => rfl, fun _ => rfl⟩
  · cases h
    exact ⟨_, overSpanPixel_replays _ _ fun _ _ _ => rfl, fun _ => rfl⟩
  · cases h
    exact ⟨_, overSpanPixel_replays _ _ fun _ _ _ => rfl, fun _ => rfl⟩
  · cases h
    exact ⟨_, overSpanPixel_replays _ _ fun _ _ _ => rfl, fun _ => rfl⟩
  · cases h
    exact ⟨_, skipPixel_replays, fun _ => rfl⟩
  · cases h
    exact ⟨_, skipPixel_replays, fun _ => rfl⟩
  · cases h
    exact ⟨_, skipPixel_replays, fun _ => rfl⟩
  · cases h
    exact ⟨_, skipPixel_replays, fun _ => rfl⟩
  · cases h
    exact ⟨_, maskPixel_replays _ _, fun _ => rfl⟩
  · cases h
    exact ⟨_, maskPixel_replays _ _, fun _ => rfl⟩
  · cases h
    exact ⟨_, maskPixel_replays _ _, fun _ => rfl⟩
  · cases h
    exact ⟨_, maskPixel_replays _ _, fun _ => rfl⟩
  · cases h
    exact ⟨_, colorSpanPixel_replays _, fun _ => rfl⟩
  · cases h
    exact ⟨_, colorSpanPixel_replays _, fun _ => rfl⟩
  · cases h

/-- The meaning of a selector of R88 runs a pixel operation that does on every row what it does on one. -/
theorem decodeKsel_replays {k : BitVec 10} {i : Instr} (h : decodeKsel k = .ok i) :
    ∃ op, PixelReplays op ∧ ∀ s, exec i s = runSpan op s := by
  unfold decodeKsel at h
  split at h
  · cases h
    exact decodeVariant_replays ‹_›
  · split at h <;> cases h

end Sys2Proof.Machine
end

