-- ==== Sys2Proof/Tests/Slice0.lean ====
section
/-! SUPPORT. Tests of one step each. Expected values are worked examples and vectors of 95_test_vectors.md (cited by their
ids) or hand calculation from the cited rule. The words of the decode tests are written out from R83, R88 and R89. -/

namespace Sys2Proof.Tests

open Sys2Proof Sys2Proof.Machine

/-! ## Small states -/

/-- Bytes from an address on, in canonical form. -/
def cells (base : Nat) (bs : List Nat) : List Host.Cell :=
  (bs.zipIdx).filterMap (fun b => if b.1 = 0 then none else some (base + b.2, BitVec.ofNat 8 b.1))

/-- Registers with `COLOR[0]`, `COLOR[1]`, ... set. -/
def withColor (r : Regs) (cs : List Nat) : Regs :=
  { r with color := (cs.zipIdx).foldl (fun c v => putColor c v.2 (BitVec.ofNat 8 v.1)) r.color }

/-- A running `RUN_KERNEL` span of `w` pixels: destination at 0x1000, source at 0x2000, mask at 0x3000. -/
def span (k n w : Nat) (dst src msk color : List Nat) (alpha : Nat) : State :=
  { State.reset with
    px := ⟨cells 0x1000 dst ++ cells 0x2000 src ++ cells 0x3000 msk, [], 0⟩
    regs := withColor { Regs.zero with kern := { Regs.zero.kern with alpha := BitVec.ofNat 8 alpha } } color
    eng := some ⟨0x20, .spans ⟨BitVec.ofNat 10 k, n, 0, 0, 0x1000, 0x2000, 0x3000, w, ⟨0, w, 0, 1⟩⟩⟩ }

/-- A command word accepted with the given registers. -/
def command (w : Word) (r : Regs) : State := { State.reset with regs := r }.accept w

/-- The ALU operand registers. -/
def aluRegs (a b c d : Int) : Regs :=
  { Regs.zero with alu := ⟨BitVec.ofInt 32 a, BitVec.ofInt 32 b, BitVec.ofInt 32 c, BitVec.ofInt 32 d, 7⟩ }

/-- The kernel operand registers, `KSEL` = 0x3FF, the pointers of `span`. -/
def kernRegs (n flags alpha w : Nat) : Regs :=
  { Regs.zero with
    ksel := 0x3FF
    kern := ⟨0x1000, 0x2000, 0x3000, BitVec.ofNat 32 w, BitVec.ofNat 8 n, BitVec.ofNat 2 flags, BitVec.ofNat 8 alpha⟩ }

/-- The buffers of program P2: a 3 × 2 RGB destination at (0, 0) and a 2 × 2 RGBA source at (1, 1). -/
def paintRegs (alpha : Nat) : Regs :=
  { kernRegs 0 0 alpha 0 with
    dst := ⟨0x1000, 9, 0, 0, 3, 2, 0x003⟩
    src := ⟨0x2000, 8, 1, 1, 2, 2, 0x104⟩ }

/-- A one-row glyph: `stream` at 0x5100, the row at 0x3000, `FMT` and the colors of the destination. -/
def glyph (g : Rle) (fmt : BitVec 9) (color stream dst : List Nat) : State :=
  { State.reset with
    px := ⟨cells 0x3000 dst ++ cells 0x5100 stream, [], 0⟩
    regs := withColor { Regs.zero with
      dst := { Desc.zero with stride := 8, fmt := fmt }
      glyph := ⟨0x5000, 0x5100, 0x3000, 6, 2, 0, 0⟩ } color
    eng := some ⟨0x40, .glyph g⟩ }

/-- The decoder of `glyph` in a phase. -/
def decoder (phase : Phase) (mode : GlyphMode) (extend sx ww : Nat) : Rle :=
  ⟨mode, 0, 0x3000, 0x3000, 0x5100, phase, extend, sx, ww, none⟩

/-! ## What a test looks at -/

/-- The bytes from an address on after a step. -/
def bytes (base n : Nat) (o : Host.Outcome State Fault Refusal) : Option (List Nat) :=
  match o with
  | .next s => some ((List.range n).map (fun i => (s.px.byte (base + i)).toNat))
  | .fault _ => none
  | .refused _ => none

/-- `STATUS`, `ALU_R` and `KSEL` after a step. -/
def result (o : Host.Outcome State Fault Refusal) : Option (Word × Int × BitVec 10) :=
  match o with
  | .next s => some (statusWord s.busy s.status, s.regs.alu.r.toInt, s.regs.ksel)
  | .fault _ => none
  | .refused _ => none

/-- What the block is doing after a step. -/
def activity (o : Host.Outcome State Fault Refusal) : Option Activity :=
  match o with
  | .next s => s.eng.map Engine.act
  | .fault _ => none
  | .refused _ => none

/-- What the host's read returns. -/
def hostValue (o : Host.Outcome State Fault Refusal) : Option Word :=
  match o with
  | .next s => some s.hostData
  | .fault _ => none
  | .refused _ => none

/-! ## Well-formedness: an ill-formed term for each check -/

theorem test_wf_extend_refused : wfExtend 64 = false ∧ (Instr.runExtend 64).wf = false := by decide
theorem test_wf_transparent_refused : wfTransparent 64 = false ∧ (Instr.runTransparent 64).wf = false := by decide
theorem test_wf_long_refused :
    wfLong 32 = false ∧ (Instr.runSolid 32 true).wf = false ∧ (Instr.runIntermediate 32 false).wf = false := by decide
theorem test_wf_largest_accepted :
    (Instr.runExtend 63).wf = true ∧ (Instr.runTransparent 63).wf = true ∧ (Instr.runSolid 31 true).wf = true := by decide

/-! ## Decoding: words written out bit by bit -/

theorem test_decode_control : decodeCmd 0b00000000000000000000000000000000#32 = .ok .nop := rfl
theorem test_decode_alu :
    decodeCmd 0b00000001#32 = .ok .expand ∧ decodeCmd 0b00000010#32 = .ok .combine ∧
    decodeCmd 0b00000011#32 = .ok .blend ∧ decodeCmd 0b00000100#32 = .ok .combine2 := ⟨rfl, rfl, rfl, rfl⟩
theorem test_decode_dispatch :
    decodeCmd 0b00010000#32 = .ok .getSolidPainter ∧ decodeCmd 0b00010001#32 = .ok .getSpanPainter ∧
    decodeCmd 0b00010010#32 = .ok .getSpanMaskPainter ∧ decodeCmd 0b00010011#32 = .ok .getSpanColorPainter :=
  ⟨rfl, rfl, rfl, rfl⟩
theorem test_decode_orchestration :
    decodeCmd 0b00100000#32 = .ok .runKernel ∧ decodeCmd 0b00110000#32 = .ok .paintOver ∧
    decodeCmd 0b00110001#32 = .ok .paintOverClipped ∧ decodeCmd 0b00110010#32 = .ok .paintOverMask ∧
    decodeCmd 0b01000000#32 = .ok .paintGlyph := ⟨rfl, rfl, rfl, rfl, rfl⟩
/-- Vectors of R82: a reserved bit, and an opcode R83 does not list. -/
theorem test_decode_illegal :
    decodeCmd 0x00000100#32 = .error .reservedBits ∧ decodeCmd 0x00000005#32 = .error .unknownOpcode := ⟨rfl, rfl⟩
/-- `FAM` = C3 (01), `VAR`, `SA`, `DA`, `KIND` (R84 to R87). -/
theorem test_decode_solid :
    decodeKsel 0b01_000_0_0_001#10 = .ok (.kSolidAlpha .c3) ∧ decodeKsel 0b01_001_0_0_001#10 = .ok (.kSolidOverwrite .c3) ∧
    decodeKsel 0b01_000_0_1_001#10 = .ok (.kSolidDa .c3) := ⟨rfl, rfl, rfl⟩
theorem test_decode_over_general :
    decodeKsel 0b00_000_0_0_010#10 = .ok (.kOverGeneral .c1) ∧ decodeKsel 0b00_000_0_1_010#10 = .ok (.kOverGeneralDa .c1) ∧
    decodeKsel 0b00_000_1_0_010#10 = .ok (.kOverGeneralSa .c1) ∧
    decodeKsel 0b00_000_1_1_010#10 = .ok (.kOverGeneralDaSa .c1) := ⟨rfl, rfl, rfl, rfl⟩
theorem test_decode_over_opaque :
    decodeKsel 0b10_001_0_0_010#10 = .ok (.kOverOpaque .c4) ∧ decodeKsel 0b10_001_0_1_010#10 = .ok (.kOverOpaqueDa .c4) ∧
    decodeKsel 0b10_001_1_0_010#10 = .ok (.kOverOpaqueSa .c4) ∧
    decodeKsel 0b10_001_1_1_010#10 = .ok (.kOverOpaqueDaSa .c4) := ⟨rfl, rfl, rfl, rfl⟩
theorem test_decode_over_skip :
    decodeKsel 0b11_010_0_0_010#10 = .ok (.kOverSkip .gen) ∧ decodeKsel 0b11_010_0_1_010#10 = .ok (.kOverSkipDa .gen) ∧
    decodeKsel 0b11_010_1_0_010#10 = .ok (.kOverSkipSa .gen) ∧
    decodeKsel 0b11_010_1_1_010#10 = .ok (.kOverSkipDaSa .gen) := ⟨rfl, rfl, rfl, rfl⟩
theorem test_decode_mask :
    decodeKsel 0b00_000_0_0_011#10 = .ok (.kMask .c1) ∧ decodeKsel 0b00_000_0_1_011#10 = .ok (.kMaskDa .c1) ∧
    decodeKsel 0b00_000_1_0_011#10 = .ok (.kMaskSa .c1) ∧ decodeKsel 0b00_000_1_1_011#10 = .ok (.kMaskDaSa .c1) :=
  ⟨rfl, rfl, rfl, rfl⟩
theorem test_decode_color :
    decodeKsel 0b01_000_0_0_100#10 = .ok (.kColor .c3) ∧ decodeKsel 0b01_000_0_1_100#10 = .ok (.kColorDa .c3) := ⟨rfl, rfl⟩
/-- `KIND` 0, `KIND` 5, `VAR` 3, and a solid with `SA` = 1. -/
theorem test_decode_no_kernel :
    decodeKsel 0b00_000_0_0_000#10 = .error .kindNone ∧ decodeKsel 0b00_000_0_0_101#10 = .error .notAKernel ∧
    decodeKsel 0b00_011_0_0_010#10 = .error .notAKernel ∧ decodeKsel 0b00_000_1_0_001#10 = .error .notAKernel :=
  ⟨rfl, rfl, rfl, rfl⟩
/-- The reserved bit 7 with `KIND` 0 and with a kernel's other bits (U16), and `KIND` 0 with other bits but not bit 7. -/
theorem test_decode_bit7 :
    decodeKsel 0b00_100_0_0_000#10 = .error .notAKernel ∧ decodeKsel 0b00_100_0_0_001#10 = .error .notAKernel ∧
    decodeKsel 0b01_000_0_1_000#10 = .error .kindNone := ⟨rfl, rfl, rfl⟩
theorem test_decode_headers :
    decodeRun 0b000001_00#8 = .runExtend 1 ∧ decodeRun 0b000001_01#8 = .runTransparent 1 ∧
    decodeRun 0b00010_1_10#8 = .runSolid 2 true ∧ decodeRun 0b00011_0_11#8 = .runIntermediate 3 false :=
  ⟨rfl, rfl, rfl, rfl⟩
/-- R99: a Solid run of 33 pixels without the end-of-line flag (vector G20 writes it `04 02`). -/
theorem test_pseudo_item : (RunItem.solid 33 false).bytes = [0x04#8, 0x02#8] := by decide

/-! ## Commands -/

theorem test_nop : result (step (command 0 Regs.zero)) = some (0x002, 0, 0) := by decide
/-- Vectors A3 and A7. -/
theorem test_expand : result (step (command 1 (aluRegs 128 0 0 0))) = some (0x002, 129, 0) := by decide
theorem test_expand_range : result (step (command 1 (aluRegs 256 0 0 0))) = some (0x404, 7, 0) := by decide
/-- Vectors A15 and A18: a negative product rounds down. -/
theorem test_combine : result (step (command 2 (aluRegs (-255) 128 0 0))) = some (0x002, -128, 0) := by decide
theorem test_combine_range : result (step (command 2 (aluRegs 257 1 0 0))) = some (0x404, 7, 0) := by decide
/-- Vectors A24 and A27. -/
theorem test_blend : result (step (command 3 (aluRegs 255 0 255 0))) = some (0x002, 254, 0) := by decide
theorem test_blend_range : result (step (command 3 (aluRegs 256 0 1 0))) = some (0x404, 7, 0) := by decide
/-- Vectors A29 and A33. -/
theorem test_combine2 : result (step (command 4 (aluRegs 255 256 255 256))) = some (0x002, 510, 0) := by decide
theorem test_combine2_range : result (step (command 4 (aluRegs 0 0 0 257))) = some (0x404, 7, 0) := by decide
/-- Vectors D1 and D14. -/
theorem test_get_solid :
    result (step (command 0x10 (withColor (kernRegs 3 0 0 0) [0, 0, 0, 255]))) = some (0x002, 0, 0x121) := by decide
theorem test_get_solid_count : result (step (command 0x10 (kernRegs 0 3 0 0))) = some (0x204, 0, 0x3FF) := by decide
/-- Vectors D8 and D16. -/
theorem test_get_span : result (step (command 0x11 (kernRegs 4 3 254 0))) = some (0x002, 0, 0x11A) := by decide
theorem test_get_span_unsupported :
    result (step ({ command 0x11 (kernRegs 3 0 0 0) with
      cfg := { Params.default with famC3 := false, famC4 := false, famGen := false } })) = some (0x104, 0, 0) := by decide
/-- Vectors D10 and D13. -/
theorem test_get_span_mask : result (step (command 0x12 (kernRegs 2 3 0 0))) = some (0x002, 0, 0x01B) := by decide
theorem test_get_span_color : result (step (command 0x13 (kernRegs 4 3 0 0))) = some (0x002, 0, 0x10C) := by decide
/-- Vector K5: a C1 selector on three color channels; and the span of a legal one (R124). -/
theorem test_run_kernel_mismatch :
    result (step (command 0x20 { kernRegs 3 0 0 1 with ksel := 0x001 })) = some (0x404, 0, 1) := by decide
theorem test_run_kernel :
    activity (step (command 0x20 { kernRegs 3 0 0 5 with ksel := 0x101 })) =
      some (.spans ⟨0x101, 3, 0, 0, 0x1000, 0x2000, 0x3000, 5, ⟨0, 5, 0, 1⟩⟩) := by decide
/-- Vector O1: intersection [1,3) × [1,2), selector 0x132. The addresses are R192's. -/
theorem test_paint_over :
    activity (step (command 0x30 (paintRegs 255))) =
      some (.spans ⟨0x132, 3, 1, 0, 0x100C, 0x2000, 0, 2, ⟨1, 3, 1, 2⟩⟩) := by decide
/-- Vector O9. -/
theorem test_paint_over_malformed :
    result (step (command 0x30 { paintRegs 255 with src := ⟨0x2000, 8, 1, 1, 0x80000000, 2, 0x104⟩ })) =
      some (0x404, 0, 0x3FF) := by decide
/-- Vectors O2 and O4: a clip to one pixel, and an inverted clip. -/
theorem test_paint_over_clipped :
    activity (step (command 0x31 { paintRegs 255 with clip := ⟨2, 0, 3, 5⟩ })) =
      some (.spans ⟨0x132, 3, 1, 0, 0x100F, 0x2004, 0, 1, ⟨2, 3, 1, 2⟩⟩) := by decide
theorem test_paint_over_clipped_empty :
    result (step (command 0x31 { paintRegs 255 with clip := ⟨3, 0, 1, 5⟩ })) = some (0x002, 0, 0x3FF) := by decide
/-- Program P5: gray buffers under a mask at (1, 0); its FMT error first. -/
theorem test_paint_over_mask :
    activity (step (command 0x32 { Regs.zero with
      dst := ⟨0x1000, 2, 0, 0, 2, 1, 1⟩
      src := ⟨0x1100, 2, 0, 0, 2, 1, 1⟩
      msk := ⟨0x1200, 2, 1, 0, 2, 1, 1⟩ })) =
      some (.spans ⟨0x003, 1, 0, 0, 0x1001, 0x1101, 0x1200, 1, ⟨1, 2, 0, 1⟩⟩) := by decide
theorem test_paint_over_mask_shape :
    result (step (command 0x32 { Regs.zero with
      dst := ⟨0x1000, 2, 0, 0, 2, 1, 1⟩
      src := ⟨0x1100, 2, 0, 0, 2, 1, 1⟩
      msk := ⟨0x1200, 2, 0, 0, 2, 1, 2⟩ })) = some (0x204, 0, 0) := by decide
/-- Vectors G11 and G21. -/
theorem test_paint_glyph_nop :
    result (step (command 0x40 { Regs.zero with
      dst := { Desc.zero with fmt := 3 }, glyph := ⟨0, 0, 0, 2, 1, 0, 0⟩ })) = some (0x002, 0, 0) := by decide
theorem test_paint_glyph_malformed :
    result (step (command 0x40 { Regs.zero with
      dst := { Desc.zero with fmt := 3 }, glyph := ⟨0, 0, 0, 0x80000000, 1, 0, 0⟩ })) = some (0x404, 0, 0) := by decide

/-! ## Kernels -/

/-- Vector F3. -/
theorem test_solid_alpha :
    bytes 0x1000 3 (step (span 0x101 3 1 [0, 100, 255] [] [] [200, 100, 0, 128] 0)) = some [100, 100, 126] := by decide
/-- Vector F1. -/
theorem test_solid_overwrite :
    bytes 0x1000 6 (step (span 0x121 3 2 [1, 2, 3, 4, 5, 6] [] [] [7, 8, 9, 0] 0)) = some [7, 8, 9, 7, 8, 9] := by decide
/-- Vectors F5 and F6. -/
theorem test_solid_da_raw :
    bytes 0x1000 4 (step (span 0x109 4 1 [11, 22, 33, 44] [] [] [200, 100, 0, 255] 0)) = some [200, 100, 0, 255] := by decide
theorem test_solid_da :
    bytes 0x1000 4 (step (span 0x109 4 1 [0, 100, 255, 0] [] [] [200, 100, 0, 64] 0)) = some [50, 100, 191, 63] := by decide
/-- Vector SO16. -/
theorem test_over_general : bytes 0x1000 1 (step (span 0x002 1 1 [200] [50] [] [] 128)) = some [124] := by decide
/-- Vector SO6. -/
theorem test_over_general_da :
    bytes 0x1000 2 (step (span 0x00A 2 1 [200, 100] [50] [] [] 128)) = some [124, 177] := by decide
/-- Vector SO5. -/
theorem test_over_general_sa : bytes 0x1000 1 (step (span 0x012 1 1 [200] [64, 128] [] [] 255)) = some [163] := by decide
/-- Vectors SO1 and SO8. -/
theorem test_over_general_da_sa :
    bytes 0x1000 4 (step (span 0x11A 4 1 [0, 0, 200, 255] [100, 50, 0, 128] [] [] 128)) = some [50, 25, 149, 254] := by
  decide
theorem test_over_general_small_weight :
    bytes 0x1000 2 (step (span 0x01A 2 1 [9, 8] [1, 1] [] [] 100)) = some [9, 8] := by decide
/-- Vector SO17. -/
theorem test_over_opaque :
    bytes 0x1000 3 (step (span 0x022 1 3 [10, 20, 30] [1, 2, 3] [] [] 77)) = some [1, 2, 3] := by decide
/-- Vector SO15. -/
theorem test_over_opaque_da :
    bytes 0x1000 4 (step (span 0x12A 4 1 [1, 2, 3, 4] [10, 20, 30] [] [] 77)) = some [10, 20, 30, 255] := by decide
/-- Vectors SO11 and SO13: the sum 500 wraps to 244. -/
theorem test_over_opaque_sa_wraps : bytes 0x1000 1 (step (span 0x032 1 1 [255] [255, 10] [] [] 77)) = some [244] := by decide
theorem test_over_opaque_sa :
    bytes 0x1000 3 (step (span 0x132 3 1 [1, 2, 3] [10, 20, 30, 255] [] [] 77)) = some [10, 20, 30] := by decide
/-- Vectors SO3 and SO7. -/
theorem test_over_opaque_da_sa :
    bytes 0x1000 4 (step (span 0x13A 4 1 [0, 0, 200, 255] [100, 50, 0, 128] [] [] 77)) = some [100, 50, 99, 254] := by decide
theorem test_over_opaque_clear_source :
    bytes 0x1000 4 (step (span 0x13A 4 1 [9, 8, 7, 6] [255, 255, 255, 0] [] [] 77)) = some [9, 8, 7, 6] := by decide
/-- Vector SO9, and the other three skipping variants by R142. -/
theorem test_over_skip : bytes 0x1000 1 (step (span 0x042 1 1 [9] [255] [] [] 77)) = some [9] := by decide
theorem test_over_skip_da : bytes 0x1000 2 (step (span 0x04A 2 1 [9, 8] [255] [] [] 77)) = some [9, 8] := by decide
theorem test_over_skip_sa : bytes 0x1000 1 (step (span 0x052 1 1 [9] [255, 255] [] [] 77)) = some [9] := by decide
theorem test_over_skip_da_sa :
    bytes 0x1000 4 (step (span 0x15A 4 1 [9, 8, 7, 6] [255, 255, 255, 255] [] [] 77)) = some [9, 8, 7, 6] := by decide
/-- Vector SM2. -/
theorem test_mask :
    bytes 0x1000 6 (step (span 0x103 3 2 [10, 20, 30, 200, 200, 200] [250, 250, 250, 0, 0, 0] [64, 255] [] 0)) =
      some [69, 77, 84, 0, 0, 0] := by decide
/-- By R148 and R125: (200·129 >> 8) + (100·127 >> 8) and (255·129 >> 8) + (50·127 >> 8). -/
theorem test_mask_da : bytes 0x1000 2 (step (span 0x00B 2 1 [100, 50] [200] [128] [] 0)) = some [149, 152] := by decide
/-- Vector SM6. -/
theorem test_mask_sa : bytes 0x1000 1 (step (span 0x013 1 1 [255] [255, 10] [255] [] 0)) = some [244] := by decide
/-- Vectors SM1 and SM4. -/
theorem test_mask_da_sa :
    bytes 0x1000 8 (step (span 0x01B 2 4 [100, 255, 100, 255, 100, 255, 0, 0] [200, 255, 200, 255, 100, 128, 60, 60]
      [0, 128, 255, 255] [] 0)) = some [100, 255, 149, 254, 149, 254, 60, 60] := by decide
theorem test_mask_clear_source : bytes 0x1000 2 (step (span 0x01B 2 1 [7, 7] [7, 0] [255] [] 0)) = some [7, 7] := by decide
/-- Worked example L1.3 and vector SC4. -/
theorem test_color :
    bytes 0x1000 4 (step (span 0x004 1 4 [50, 50, 50, 50] [] [0, 128, 255, 0] [100, 255] 0)) = some [50, 75, 100, 50] := by
  decide
theorem test_color_small_weight :
    bytes 0x1000 2 (step (span 0x004 1 2 [0, 255] [] [1, 1] [255, 255] 0)) = some [0, 255] := by decide
/-- Vectors SC5 and SC2 (its third pixel). -/
theorem test_color_da : bytes 0x1000 2 (step (span 0x00C 2 1 [0, 0] [] [255] [200, 128] 0)) = some [100, 128] := by decide
theorem test_color_da_partial :
    bytes 0x1000 4 (step (span 0x10C 4 1 [10, 20, 30, 40] [] [128] [200, 100, 0, 128] 0)) = some [58, 40, 22, 94] := by decide

/-! ## Run headers -/

/-- R90, both values of `EXTEND_CHAIN`: an Extend of 1 after one of 2. -/
theorem test_extend :
    activity (step (glyph (decoder .emit .mask 2 0 6) 0x101 [] [0x04] [])) =
      some (.glyph { decoder .emit .mask 1 0 6 with p := 0x5101 }) := by decide
theorem test_extend_add :
    activity (step { glyph (decoder .emit .mask 2 0 6) 0x101 [] [0x04] [] with
      cfg := { Params.default with extendChain := .add } }) =
      some (.glyph { decoder .emit .mask 3 0 6 with p := 0x5101 }) := by decide
/-- The first run of worked example L1.4, and that of vector G2, cut by the skip. -/
theorem test_transparent :
    activity (step (glyph (decoder .emit .mask 0 0 6) 0x101 [] [0x05, 0x16] [])) =
      some (.glyph { decoder .emit .mask 0 0 4 with p := 0x5101, dp := 0x3002 }) := by decide
theorem test_transparent_skip :
    activity (step (glyph (decoder .skip .mask 0 2 4) 0x101 [] [0x0D, 0x0E] [])) =
      some (.glyph { decoder .emit .mask 0 0 4 with p := 0x5101, pend := some ⟨.transparent, 2, false⟩ }) := by decide
/-- Vector G7: five pixels clipped to a width of three; vector G10: alpha mode. -/
theorem test_solid_clipped :
    bytes 0x3000 5 (step (glyph (decoder .emit .mask 0 0 3) 0x101 [] [0x26] [])) = some [255, 255, 255, 0, 0] := by decide
theorem test_solid_alpha_mode :
    bytes 0x3000 4 (step (glyph (decoder .emit .alpha 0 0 2) 0x104 [200, 100, 0, 128] [0x02, 0x07, 0xFF] [])) =
      some [100, 50, 0, 128] := by decide
/-- Vector G6: first paint and blend in mask mode; vector G16: alpha mode, weight 0 and then a blend. -/
theorem test_intermediate :
    bytes 0x3000 4 (step (glyph (decoder .emit .mask 0 0 4) 0x101 [] [0x1F, 0x80, 0x80, 0x80, 0x00] [0, 100, 255, 100])) =
      some [128, 178, 255, 100] := by decide
theorem test_intermediate_alpha_mode :
    bytes 0x3000 4 (step (glyph (decoder .emit .alpha 0 0 2) 0x102 [200, 100] [0x0F, 0x01, 0xC8] [10, 20, 10, 20])) =
      some [10, 20, 67, 91] := by decide

/-! ## Rows, the register space and reset -/

/-- R211: the entry -1 passes a row over (vector G8). -/
theorem test_blank_row :
    activity (step { glyph (decoder .rowStart .mask 0 0 0) 0x101 [] [] [] with
      px := ⟨cells 0x5000 [255, 255, 255, 255], [], 0⟩ }) =
      some (.glyph (decoder .rowEnd .mask 0 0 0)) := by decide
/-- R65: the entry bytes 02 00 00 00 are 2. -/
theorem test_row_start :
    activity (step { glyph (decoder .rowStart .mask 0 0 0) 0x101 [] [] [] with
      px := ⟨cells 0x5000 [2, 0, 0, 0], [], 0⟩ }) =
      some (.glyph { decoder .emit .mask 0 0 6 with p := 0x5102 }) := by decide
/-- R24 and R25 with the defaults of R8. -/
theorem test_id_and_config :
    hostValue (hostAccess State.reset (.read 0x000)) = some 0x424C4E44 ∧
    hostValue (hostAccess State.reset (.read 0x004)) = some 0x0000200F := by decide
/-- R245: a write to `K_N` of a running block sets `WERR`. -/
theorem test_write_while_busy :
    result (hostAccess (command 0 Regs.zero) (.write 0x050 7)) = some (0x009, 0, 0) := by decide
/-- U3: a span whose destination is its source stops, and MEM_BACKED ends where it ends. -/
theorem test_overlap_refused :
    step { span 0x022 1 1 [1] [] [] [] 0 with
      eng := some ⟨0x20, .spans ⟨0x022, 1, 0, 0, 0x1000, 0x1000, 0, 1, ⟨0, 1, 0, 1⟩⟩⟩ } = .refused .bufferOverlap := rfl
theorem test_unbacked_fault :
    step { span 0x022 1 1 [1] [] [] [] 0 with cfg := { Params.default with backed := [(0, 0x2000)] } } =
      .fault (.unbackedAddress 0x2000) := rfl

/-! ## Witnesses: for each statement with hypotheses, concrete states that meet all of them, clause by clause -/

/-- An outcome is a next state. -/
def goes (o : Host.Outcome State Fault Refusal) : Bool :=
  match o with
  | .next _ => true
  | .fault _ => false
  | .refused _ => false

/-- The state after a step that goes on. -/
def after (o : Host.Outcome State Fault Refusal) : State :=
  match o with
  | .next s => s
  | .fault _ => State.reset
  | .refused _ => State.reset

theorem next_after {o : Host.Outcome State Fault Refusal} (h : goes o = true) : o = .next (after o) := by
  cases o with
  | next s => rfl
  | fault f => cases h
  | refused r => cases h

theorem next_exists {o : Host.Outcome State Fault Refusal} (h : goes o = true) : ∃ t, o = .next t := ⟨_, next_after h⟩

/-- The state of a block with a schedule. -/
def scheduled (es : List Event) : State := { State.reset with inputs := es }

theorem witness_DecodeEncode :
    ∀ i ∈ [Instr.runExtend 63, .runTransparent 63, .runSolid 31 true, .runIntermediate 31 false, .kOverSkip .gen, .nop],
      i.wf = true := by decide

theorem witness_EncodeDecode :
    decode (.cmd 0x40) = .ok .paintGlyph ∧ decode (.ksel 0x35A) = .ok (.kOverSkipDaSa .gen) ∧
    decode (.run 0xFF) = .ok (.runIntermediate 31 true) := ⟨rfl, rfl, rfl⟩

theorem witness_EveryByteIsAHeader :
    (0xFC#8).toNat % 4 = 0 ∧ (0xFD#8).toNat % 4 = 1 ∧ (0xFE#8).toNat % 4 = 2 ∧ (0xFF#8).toNat % 4 = 3 := by decide

theorem witness_PseudoItemsHaveTheirLength : 1 ≤ 4096 ∧ 4096 ≤ 4096 ∧ 1 ≤ 2048 ∧ 2048 ≤ 2048 := by decide

theorem witness_IllegalCommandFaults :
    let s := scheduled [.host (.write 0x010 0x41), .run]
    s.eng = none ∧ s.inputs = .host (.write (s.cfg.regBase + 0x010) 0x41) :: .run :: [] ∧
      (0x41#32).toNat ∉ [0x00, 0x01, 0x02, 0x03, 0x04, 0x10, 0x11, 0x12, 0x13, 0x20, 0x30, 0x31, 0x32, 0x40] := by decide

theorem witness_StepRunsFetchedInstruction_command :
    (command 1 Regs.zero).inputs = [] ∧ (command 1 Regs.zero).eng = some ⟨1, .start⟩ ∧ decodeCmd 1 = .ok .expand :=
  ⟨rfl, rfl, rfl⟩

theorem witness_StepRunsFetchedInstruction_span :
    { span 0x022 1 1 [9] [8] [] [] 0 with inputs := [.run] }.inputs = .run :: [] ∧
    ∃ w q, (span 0x022 1 1 [9] [8] [] [] 0).eng = some ⟨w, .spans q⟩ ∧ decodeKsel q.k = .ok (.kOverOpaque .c1) :=
  ⟨rfl, _, _, rfl, rfl⟩

theorem witness_StepRunsFetchedInstruction_header :
    (glyph (decoder .emit .mask 0 0 6) 0x101 [] [0x05] []).eng = some ⟨0x40, .glyph (decoder .emit .mask 0 0 6)⟩ ∧
    (decoder .emit .mask 0 0 6).wantsHeader = true := ⟨rfl, rfl⟩

theorem witness_StepRunsFetchedInstruction_idle : State.reset.inputs = [] ∧ State.reset.eng = none := ⟨rfl, rfl⟩

/-- A step that stores: vector SM1. -/
def storing : State :=
  span 0x01B 2 4 [100, 255, 100, 255, 100, 255, 0, 0] [200, 255, 200, 255, 100, 128, 60, 60] [0, 128, 255, 255] [] 0

theorem witness_StepKeepsMemoryCanonical : storing.px.wf = true ∧ ∃ t, step storing = .next t :=
  ⟨by decide, next_exists (by decide)⟩

theorem witness_StepKeepsStatusExclusive : storing.StatusInv ∧ ∃ t, step storing = .next t :=
  ⟨by unfold State.StatusInv; decide, next_exists (by decide)⟩

theorem witness_StepKeepsAddressRegisters :
    let s := { command 0x11 (kernRegs 4 3 254 0) with cfg := { Params.default with addrW := 16 } }
    s.regs.AddrInv s.cfg ∧ ∃ t, step s = .next t := ⟨by unfold Regs.AddrInv; decide, next_exists (by decide)⟩

theorem spanInv_storing : storing.SpanInv := by
  intro w q h
  cases h
  exact ⟨⟨_, rfl⟩, rfl, by decide, by decide, by decide, by decide⟩

theorem witness_StepKeepsSpanLegal : storing.SpanInv ∧ ∃ t, step storing = .next t :=
  ⟨spanInv_storing, next_exists (by decide)⟩

theorem witness_CommandsWriteOnlyTheirRegisters_alu :
    let s := command 1 (aluRegs 128 0 0 0)
    s.inputs = [] ∧ ∃ t, step s = .next t ∧ t.regs.alu.r ≠ s.regs.alu.r :=
  ⟨rfl, _, next_after (by decide), by decide⟩

theorem witness_CommandsWriteOnlyTheirRegisters_ksel :
    let s := command 0x12 (kernRegs 2 3 0 0)
    s.inputs = [] ∧ ∃ t, step s = .next t ∧ t.regs.ksel ≠ s.regs.ksel :=
  ⟨rfl, _, next_after (by decide), by decide⟩

/-- A `GET_*` command that finds no family: `KSEL` becomes 0. -/
theorem witness_FaultsHaveNoPartialEffects :
    let s := { command 0x11 (kernRegs 3 0 0 0) with cfg := { Params.default with famC3 := false, famGen := false } }
    s.inputs = [] ∧ s.SpanInv ∧ s.status.fault = false ∧ ∃ t, step s = .next t ∧ t.status.fault = true := by
  refine ⟨rfl, ?_, rfl, _, next_after ?_, ?_⟩
  · intro w q h
    cases h
  · decide
  · decide

theorem witness_ResetState :
    let s := scheduled [.reset (some (.read 0))]
    s.cfg.legal = true ∧ s.inputs = .reset (some (.read 0)) :: [] ∧ ∃ t, step s = .next t :=
  ⟨by decide, rfl, next_exists (by decide)⟩

theorem witness_ResetAndPixelMemory_idle :
    (scheduled [.reset none]).inputs = .reset none :: [] ∧ (scheduled [.reset none]).eng = none := ⟨rfl, rfl⟩

/-- A reset of a command that has a span left to run. -/
theorem witness_ResetAndPixelMemory_running :
    let s := { span 0x022 1 1 [9] [8] [] [] 0 with inputs := [.reset none] }
    s.inputs = .reset none :: [] ∧ s.eng ≠ none ∧ s.px.wf = true ∧
    ∃ m, runOut (commandFuel (s.setInputs [])) (s.setInputs []) = .ok m := by
  refine ⟨rfl, by decide, by decide, (after (step (span 0x022 1 1 [9] [8] [] [] 0))).px, ?_⟩
  rfl

theorem witness_WriteStoresTheRegisterBits :
    State.reset.eng = none ∧ State.reset.cfg.addrW ≤ 32 ∧
    storedBits State.reset.cfg 0x008 = some 2 ∧ storedBits State.reset.cfg 0x014 = some 10 ∧
    storedBits State.reset.cfg 0x040 = some 32 ∧ storedBits State.reset.cfg 0x058 = some 8 ∧
    storedBits State.reset.cfg 0x100 = some 8 ∧ storedBits State.reset.cfg 0x1FC = some 8 ∧
    storedBits State.reset.cfg 0x258 = some 9 ∧ storedBits State.reset.cfg 0x298 = some 32 ∧
    storedBits { Params.default with addrW := 16 } 0x288 = some 16 := by decide

theorem witness_WriteStoresTheRegisterBits_readOnly :
    State.reset.eng = none ∧ ∀ off ∈ [0x000, 0x004, 0x030], off ∈ [0x000, 0x004, 0x030] := by decide

theorem witness_UnmappedOffsets :
    ∀ off ∈ [0x018, 0x034, 0x0FC, 0x21C, 0x27C, 0x29C, 0xFFC], off < 0x1000 ∧ off % 4 = 0 ∧
      storedBits State.reset.cfg off = none ∧ specialOffset off = false := by decide

theorem witness_WritesWhileBusy :
    (command 0 Regs.zero).eng ≠ none ∧
    ∀ off ∈ [0x000, 0x008, 0x00C, 0x010, 0x034, 0x298, 0xFFC], off < 0x1000 ∧ off % 4 = 0 := by decide

theorem witness_AcceptedCommand :
    State.reset.eng = none ∧ decodeCmd 0x40 = .ok .paintGlyph ∧ decodeCmd 0x100 = .error .reservedBits :=
  ⟨rfl, rfl, rfl⟩

theorem witness_InterruptLevel : State.reset.eng = none := rfl

theorem witness_HostMemoryBytes :
    State.reset.eng = none ∧ State.reset.px.wf = true ∧ isBacked State.reset.cfg 0 = true ∧
    isBacked State.reset.cfg 0xFFFFFFFF = true := by decide

/-- A running block that has read 0, read and written 1, read 2 in the destination, and met the host's read of 4 and write
of 5. -/
def accessed : State :=
  { storing with px := { storing.px with
      log := [⟨5, .hostWrite⟩, ⟨4, .hostRead⟩, ⟨2, .dstRead 0⟩, ⟨1, .dstWrite 0⟩, ⟨1, .dstRead 0⟩, ⟨0, .srcRead⟩] } }

theorem onlyHost_iff (m : Pixmem) (a : Nat) :
    m.OnlyHostAt a ↔ ∀ e ∈ m.log, e.addr = a → e.kind = .hostRead ∨ e.kind = .hostWrite :=
  ⟨fun h e he ha => h e.kind (ha ▸ he), fun h k hk => h ⟨a, k⟩ hk rfl⟩

theorem witness_HostMemoryBytes_running :
    accessed.eng ≠ none ∧ accessed.px.wf = true ∧ (∀ a ∈ [0, 1, 2, 4, 5, 6], isBacked accessed.cfg a = true) ∧
    (∀ a ∈ [0, 1, 2], ¬ accessed.px.OnlyHostAt a) ∧ (∀ a ∈ [4, 5, 6], accessed.px.OnlyHostAt a) ∧
    ⟨1, .dstWrite 0⟩ ∈ accessed.px.log ∧ (∀ row, ⟨0, .dstWrite row⟩ ∉ accessed.px.log) ∧
    ⟨4, .hostRead⟩ ∈ accessed.px.log ∧ ⟨5, .hostWrite⟩ ∈ accessed.px.log := by
  simp only [onlyHost_iff]
  refine ⟨by decide, by decide, by decide, by decide, by decide, by decide, ?_, by decide, by decide⟩
  intro row h
  simp [accessed] at h

/-- Old log entries at which a later access is refused, with other accesses logged since. -/
theorem witness_OutsideTheModelStops_accesses :
    isBacked Params.default 0x100000000 = false ∧ isBacked Params.default 0xFFFFFFFF = true ∧
    0xFFF < 0x1000 ∧ 0xFFF % 4 ≠ 0 ∧
    ⟨1, .dstWrite 0⟩ ∈ accessed.px.log ∧ ⟨1, .hostWrite⟩ ∉ accessed.px.log ∧
    ⟨0, .srcRead⟩ ∈ accessed.px.log ∧ (∀ e ∈ accessed.px.log, e.addr = 0 → e.kind = .srcRead) ∧
    ⟨2, .dstRead 0⟩ ∈ accessed.px.log ∧ (0 : Int) ≠ 1 ∧
    (∀ a ∈ [1, 2], ∀ e ∈ accessed.px.log, e.addr = a → e.kind = .dstRead 0 ∨ e.kind = .dstWrite 0) := by decide

theorem witness_OutsideTheModelStops_stride :
    let s := command 0x30 { paintRegs 255 with dst := ⟨0x1000, 8, 0, 0, 3, 2, 0x003⟩ }
    overFault s = none ∧ (overRect s).isEmpty = false ∧ famSel s.cfg s.regs.dst.colors ≠ none ∧
    s.regs.dst.Short := by decide

/-- A source too narrow for its width, and with 16 addresses a destination whose second row wraps onto the first. -/
theorem witness_OutsideTheModelStops_buffers :
    (⟨0x2000, 7, 1, 1, 2, 2, 0x104⟩ : Desc).Short ∧
    (let p := { Params.default with addrW := 4 }
     let d := (paintRegs 255).dst
     ¬ d.Short ∧ d.RowsShareByte p ∧ overFault { command 0x30 (paintRegs 255) with cfg := p } = none) ∧
    (let r := { Regs.zero with dst := ⟨0, 2, 0, 0, 2, 1, 1⟩, src := ⟨8, 2, 0, 0, 2, 1, 1⟩, msk := ⟨16, 1, 0, 0, 2, 1, 1⟩ }
     let s := command 0x32 r
     overMaskFault s = none ∧ ((overRect s).inter s.regs.msk.bounds).isEmpty = false ∧
     famSel s.cfg s.regs.dst.colors ≠ none ∧ s.regs.msk.Short) :=
  ⟨by decide, ⟨by decide, ⟨0, 1, 0, 7, by decide⟩, by decide⟩, by decide⟩

theorem witness_ExpandCommand :
    let a := fun x => (command 1 (aluRegs x 0 0 0)).regs.alu.a.toInt
    (0 ≤ a 255 ∧ a 255 ≤ 255) ∧ ¬ (0 ≤ a 256 ∧ a 256 ≤ 255) ∧ ¬ (0 ≤ a (-1) ∧ a (-1) ≤ 255) := by decide

theorem witness_CombineCommand :
    let r := fun x w => (command 2 (aluRegs x w 0 0)).regs.alu
    ((-255 ≤ (r (-255) 256).a.toInt ∧ (r (-255) 256).a.toInt ≤ 256) ∧
      (0 ≤ (r (-255) 256).b.toInt ∧ (r (-255) 256).b.toInt ≤ 256)) ∧
    ¬ (-255 ≤ (r (-256) 0).a.toInt ∧ (r (-256) 0).a.toInt ≤ 256) ∧ ¬ (0 ≤ (r 0 257).b.toInt ∧ (r 0 257).b.toInt ≤ 256) := by
  decide

theorem witness_BlendCommand :
    let r := fun x y z => (command 3 (aluRegs x y z 0)).regs.alu
    ((0 ≤ (r 255 0 256).a.toInt ∧ (r 255 0 256).a.toInt ≤ 255) ∧ (0 ≤ (r 255 0 256).b.toInt ∧ (r 255 0 256).b.toInt ≤ 255) ∧
      (0 ≤ (r 255 0 256).c.toInt ∧ (r 255 0 256).c.toInt ≤ 256)) ∧
    ¬ (0 ≤ (r 0 0 257).c.toInt ∧ (r 0 0 257).c.toInt ≤ 256) := by decide

theorem witness_Combine2Command :
    let r := fun x y z u => (command 4 (aluRegs x y z u)).regs.alu
    ((0 ≤ (r 255 256 255 256).a.toInt ∧ (r 255 256 255 256).a.toInt ≤ 255) ∧
      (0 ≤ (r 255 256 255 256).b.toInt ∧ (r 255 256 255 256).b.toInt ≤ 256) ∧
      (0 ≤ (r 255 256 255 256).c.toInt ∧ (r 255 256 255 256).c.toInt ≤ 255) ∧
      (0 ≤ (r 255 256 255 256).d.toInt ∧ (r 255 256 255 256).d.toInt ≤ 256)) ∧
    ¬ (0 ≤ (r 0 0 0 257).d.toInt ∧ (r 0 0 0 257).d.toInt ≤ 256) := by decide

theorem witness_BlendLiesBetween :
    (0 : Int) ≤ 255 ∧ (255 : Int) ≤ 255 ∧ (0 : Int) ≤ 0 ∧ (0 : Int) ≤ 255 ∧ (0 : Int) ≤ 256 ∧ (256 : Int) ≤ 256 := by decide

theorem witness_PremultipliedNeverOverflows :
    Params.default.combine2Fused = false ∧ (0 : Int) ≤ 100 ∧ (100 : Int) ≤ 128 ∧ (128 : Int) ≤ 255 ∧ (0 : Int) ≤ 255 ∧
    (255 : Int) ≤ 255 ∧ (0 : Int) ≤ 129 ∧ (129 : Int) ≤ 256 ∧ combine (expand 128) 129 ≠ 0 ∧ (129 : Int) ≠ 0 := by decide

theorem witness_NopCommand :
    let s := scheduled [.host (.write 0x010 0), .run]
    s.eng = none ∧ s.inputs = .host (.write (s.cfg.regBase + 0x010) 0) :: .run :: [] := by decide

/-- Parameters with the family C1 alone. -/
def onlyC1 : Params := { Params.default with famC3 := false, famC4 := false, famGen := false }

theorem witness_GetPainters :
    ¬ CountLegal Params.default 0 ∧ ¬ CountLegal Params.default 33 ∧ CountLegal Params.default 32 ∧
    CountLegal onlyC1 3 ∧ famSel onlyC1 3 = none ∧ famSel Params.default 3 = some .c3 ∧
    famSel Params.default 0 = some .gen := by decide

theorem witness_SelectedKernelRuns :
    let s := command 0x10 (kernRegs 1 1 0 0)
    let t := after (exec .getSolidPainter s)
    let u := { t with regs := { t.regs with kern := { t.regs.kern with w := 0x7FFFFFFF } } }
    exec .getSolidPainter s = .next t ∧ t.status.done = true ∧ s.status.done = false ∧ u.cfg = t.cfg ∧
    u.regs.ksel = t.regs.ksel ∧ u.regs.kern.n = t.regs.kern.n ∧ u.regs.kern.w.getLsbD 31 = false :=
  ⟨next_after (by decide), by decide, by decide, by decide, by decide, by decide, by decide⟩

theorem witness_SelectedKernelRuns_families :
    famSel Params.default 1 = some .c1 ∧ famSel Params.default 3 = some .c3 ∧ famSel Params.default 4 = some .c4 ∧
    famSel Params.default 2 = some .gen ∧ famSel { Params.default with famC3 := false } 3 = some .gen := by decide

/-- Vectors K1 and K12: a selector with bit 7 set is malformed whatever its kind, and before `K_N` is looked at. -/
theorem test_run_kernel_bit7 :
    result (step (command 0x20 { kernRegs 1 0 0 1 with ksel := 0x080 })) = some (0x404, 0, 0x080) ∧
    result (step (command 0x20 { kernRegs 0 0 0 1 with ksel := 0x080 })) = some (0x404, 0, 0x080) := by decide

/-- For each clause of R124 a register set at which it is the first to apply. -/
theorem witness_RunKernelTests :
    let f := fun k n w p => runKernelFault { command 0x20 { kernRegs n 0 0 w with ksel := k } with cfg := p }
    f 0x001 1 0x80000000 Params.default = some .illegalOperand ∧ f 0x080 1 1 Params.default = some .illegalOperand ∧
    f 0x005 1 1 Params.default = some .illegalOperand ∧
    f 0x001 33 1 Params.default = some .precondition ∧ f 0x000 1 1 Params.default = some .unsupported ∧
    f 0x001 3 1 Params.default = some .illegalOperand ∧ f 0x101 3 1 onlyC1 = some .unsupported ∧
    f 0x301 32 0x7FFFFFFF Params.default = none ∧ f 0x001 1 0 Params.default = none := by decide

/-- `RUN_KERNEL` of `MASK_DA_SA` (vector SM1). -/
def runMask : State :=
  { command 0x20 { kernRegs 2 3 0 4 with ksel := 0x01B } with px := storing.px }

theorem witness_RunKernelCompletes :
    runMask.inputs = [] ∧ runMask.eng = some ⟨0x20, .start⟩ ∧ runKernelFault runMask = none ∧
    dim runMask.regs.kern.w ≠ 0 ∧
    (let q := runKernelSpan runMask
     SpanDst runMask q ∧ SpanSrc runMask q (q.n - (kselDa q.k).toNat + (q.k.getLsbD 4).toNat) ∧ SpanMsk runMask q) := by
  decide

theorem witness_Spans :
    ∃ q, storing.eng = some ⟨0x20, .spans q⟩ ∧ 1 ≤ q.n ∧ SpanDst storing q ∧ SpanMsk storing q ∧
      ∀ da sa : Bool, SpanSrc storing q (q.n - da.toNat + sa.toNat) := by
  refine ⟨_, rfl, ?_, ?_, ?_, ?_⟩
  all_goals decide

theorem witness_VariantsAgree :
    decodeKsel 0x013 = .ok (.kMaskSa .c1) ∧ decodeKsel 0x313 = .ok (.kMaskSa .gen) ∧
    (0x013#10).toNat % 256 = (0x313#10).toNat % 256 ∧
    (span 0x01A 2 1 [9, 8] [1, 1] [] [] 255).regs.kern.alpha = 255 ∧
    (span 0x01A 2 1 [9, 8] [1, 1] [] [] 0).regs.kern.alpha = 0 ∧
    ∃ t, exec (.kOverGeneralDaSa .c1) (span 0x01A 2 1 [9, 8] [1, 1] [] [] 0) = .next t :=
  ⟨rfl, rfl, by decide, by decide, by decide, next_exists (by decide)⟩

/-- A glyph row that stores (vector G6). -/
def emitting : State := glyph (decoder .emit .mask 0 0 4) 0x101 [] [0x1F, 0x80, 0x80, 0x80, 0x00] [0, 100, 255, 100]

theorem witness_BlockWritesOnlyDestination :
    storing.inputs = [] ∧ storing.px.wf = true ∧ goes (step storing) = true ∧
    emitting.inputs = [] ∧ emitting.px.wf = true ∧ goes (step emitting) = true ∧ 1 ≤ emitting.regs.dst.n ∧
    runMask.inputs = [] ∧ runMask.px.wf = true ∧ goes (step runMask) = true := by decide

/-- For each clause of R196 to R198 registers at which it is the first to apply. -/
theorem witness_PaintOver :
    let s := fun r => command 0x30 r
    overFault (s { paintRegs 255 with src := ⟨0x2000, 8, 1, 1, 0x80000000, 2, 0x104⟩ }) = some .illegalOperand ∧
    overFault (s { paintRegs 255 with dst := ⟨0x1000, 9, 0, 0, 3, 2, 0x000⟩ }) = some .precondition ∧
    overFault (s { paintRegs 255 with src := ⟨0x2000, 8, 1, 1, 2, 2, 0x004⟩ }) = some .precondition ∧
    overFault (s (paintRegs 255)) = none ∧ (overRect (s (paintRegs 255))).isEmpty = false ∧
    overFault (s { paintRegs 255 with src := ⟨0x2000, 8, 3, 1, 2, 2, 0x104⟩ }) = none ∧
    (overRect (s { paintRegs 255 with src := ⟨0x2000, 8, 3, 1, 2, 2, 0x104⟩ })).isEmpty = true ∧
    famSel Params.default (paintRegs 255).dst.colors = some .c3 ∧ famSel onlyC1 (paintRegs 255).dst.colors = none ∧
    (∀ d ∈ [(paintRegs 255).dst, (paintRegs 255).src], d.stop Params.default = none) := by decide

theorem witness_PaintOverMask :
    let r := fun n k => { Regs.zero with
      dst := ⟨0x1000, 2, 0, 0, 2, 1, n⟩, src := ⟨0x1100, 2, 0, 0, 2, 1, 1⟩, msk := ⟨0x1200, 2, 1, 0, 2, 1, k⟩ }
    overMaskFault (command 0x32 { r 1 1 with msk := ⟨0, 0, 0, 0, 0, 0x80000000, 1⟩ }) = some .illegalOperand ∧
    overMaskFault (command 0x32 (r 1 33)) = some .precondition ∧ overMaskFault (command 0x32 (r 1 2)) = some .precondition ∧
    overMaskFault (command 0x32 (r 0x101 1)) = some .precondition ∧ overMaskFault (command 0x32 (r 1 1)) = none ∧
    (∀ d ∈ [(r 1 1).dst, (r 1 1).src, (r 1 1).msk], d.stop Params.default = none) := by decide

theorem witness_RowsAdvance :
    let q := fun y1 => (⟨0x132, 3, 1, 0, 0x1000, 0x2000, 0, 2, ⟨1, 3, 1, y1⟩⟩ : Seq)
    (q 3).y + 1 < (q 3).rect.y1 ∧ (q 2).rect.y1 ≤ (q 2).y + 1 := by decide

theorem witness_IntersectionLaws : Rect.isEmpty ⟨3, 1, 0, 5⟩ = true ∧
    (⟨0x1000, 9, 0x7FFFFFFF, 0, 3, 2, 3⟩ : Desc).bounds = ⟨2147483647, 2147483650, 0, 2⟩ := by decide

/-- `PAINT_OVER` of one gray pixel column of two rows, at its command and at its first row. -/
def painting : State :=
  { command 0x30 { kernRegs 0 0 255 0 with dst := ⟨0x1000, 4, 0, 0, 1, 2, 1⟩, src := ⟨0x2000, 4, 0, 0, 1, 2, 1⟩ } with
    px := ⟨cells 0x1000 [9] ++ cells 0x2000 [7], [], 0⟩ }

/-- Its sequencer at the first row. -/
def paintingRow : Seq := ⟨0x022, 1, 0, 0, 0x1000, 0x2000, 0, 1, ⟨0, 1, 0, 2⟩⟩

theorem witness_PaintWritesInsideTheRectangle :
    let s := after (step painting)
    s.inputs = [] ∧ s.px.wf = true ∧ s.eng = some ⟨0x30, .spans paintingRow⟩ ∧
    paintingRow.dp = pixelAddr s.cfg s.regs.dst paintingRow.rect.x0 paintingRow.y ∧ paintingRow.i = 0 ∧
    paintingRow.w = (paintingRow.rect.x1 - paintingRow.rect.x0).toNat ∧ paintingRow.n = s.regs.dst.n ∧
    1 ≤ paintingRow.n ∧ goes (step s) = true ∧ (after (step s)).px.byte 0x1000 ≠ s.px.byte 0x1000 := by decide

/-- Its second row, after the first has accessed memory, and the `RUN_KERNEL` of that row. -/
def paintingSecond : State := after (step (after (step painting)))

def secondRow : Seq := { paintingRow with y := 1, dp := 0x1004, sp := 0x2004 }

def paintingKernel : State :=
  { command 0x20 { kernRegs 1 0 255 1 with ksel := 0x022, kern := ⟨0x1004, 0x2004, 0, 1, 1, 0, 255⟩ } with
    px := { paintingSecond.px with log := [] } }

theorem witness_PaintRowEqualsRunKernel :
    let s := paintingSecond
    let t := paintingKernel
    s.SpanInv ∧ s.inputs = [] ∧ t.inputs = [] ∧ s.eng = some ⟨0x30, .spans secondRow⟩ ∧ t.eng = some ⟨0x20, .start⟩ ∧
    t.cfg = s.cfg ∧ t.px.cells = s.px.cells ∧ t.px.draws = s.px.draws ∧ t.px.log = [] ∧ s.px.log ≠ [] ∧
    t.regs.ksel = secondRow.k ∧ t.regs.kern.dptr.toNat = secondRow.dp ∧
    t.regs.kern.sptr.toNat = secondRow.sp ∧ t.regs.kern.mptr.toNat = secondRow.mp ∧
    t.regs.kern.w.toNat = secondRow.w ∧ secondRow.w < 2 ^ 31 ∧ t.regs.kern.n.toNat = secondRow.n ∧
    t.regs.kern.alpha = s.regs.kern.alpha ∧ t.regs.color = s.regs.color ∧ runKernelFault t = none ∧
    ∃ s', step s = .next s' := by
  have he : paintingSecond.eng = some ⟨0x30, .spans secondRow⟩ := by decide
  have hinv : paintingSecond.SpanInv := by
    intro w q h
    rw [he] at h
    cases h
    exact ⟨⟨_, rfl⟩, rfl, by decide⟩
  have hrun : ∃ s', step paintingSecond = .next s' := next_exists (by decide)
  and_intros
  all_goals first | exact hinv | exact hrun | decide

theorem backed_default {a : Nat} (h : a < 2 ^ 32) : isBacked Params.default a = true := by
  have h' : a < 4294967296 := h
  simp [isBacked, Params.default, h']

theorem witness_PaintOverCompletes :
    let s := painting
    let r := overRect s
    let w := (r.x1 - r.x0).toNat
    let dp := fun y => pixelAddr s.cfg s.regs.dst r.x0 y
    let sp := fun y => pixelAddr s.cfg s.regs.src r.x0 y
    s.inputs = [] ∧ s.eng = some ⟨0x30, .start⟩ ∧ s.px.wf = true ∧ s.px.log = [] ∧
    (∀ a, a < 2 ^ s.cfg.addrW → isBacked s.cfg a = true) ∧ overFault s = none ∧ r.isEmpty = false ∧
    famSel s.cfg s.regs.dst.colors = some .c1 ∧ s.regs.dst.stop s.cfg = none ∧ s.regs.src.stop s.cfg = none ∧
    w * s.regs.dst.n ≤ 2 ^ s.cfg.addrW ∧
    (∀ y y', r.y0 ≤ y → y < r.y1 → r.y0 ≤ y' → y' < r.y1 →
      (y ≠ y' → Apart s.cfg (dp y) (w * s.regs.dst.n) (dp y') (w * s.regs.dst.n)) ∧
      Apart s.cfg (dp y) (w * s.regs.dst.n) (sp y') (w * s.regs.src.n)) := by
  refine ⟨rfl, rfl, by decide, rfl, fun a h => backed_default h, by decide, by decide, by decide, by decide, by decide,
    by decide, ?_⟩
  intro y y' h1 h2 h3 h4
  have e0 : (overRect painting).y0 = 0 := by decide
  have e1 : (overRect painting).y1 = 2 := by decide
  rw [e0] at h1 h3
  rw [e1] at h2 h4
  have hy : y = 0 ∨ y = 1 := by omega
  have hy' : y' = 0 ∨ y' = 1 := by omega
  rcases hy with rfl | rfl <;> rcases hy' with rfl | rfl <;> decide

/-- For each clause of R226 registers at which it is the first to apply. -/
theorem witness_PaintGlyph :
    let s := fun w h (fmt : BitVec 9) ca => command 0x40 (withColor { Regs.zero with
      dst := { Desc.zero with fmt := fmt }, glyph := ⟨0, 0, 0, w, h, 0, 0⟩ } [0, 0, 0, ca])
    glyphFault (s 0x80000000 1 3 9) = some .illegalOperand ∧ glyphFault (s 1 1 0 9) = some .precondition ∧
    glyphFault (s 0 1 3 9) = none ∧ glyphFault (s 1 1 3 9) = none ∧
    colorAt (s 1 1 3 0).regs 3 = 0 ∧ colorAt (s 1 1 3 9).regs 3 ≠ 0 ∧ famSel onlyC1 3 = none ∧
    famSel Params.default 3 ≠ none ∧ (s 1 1 0x101 0).regs.dst.colors = 0 ∧ (s 1 1 3 0).regs.dst.colors = 3 := by decide

theorem witness_GlyphRowStarts :
    let s := glyph (decoder .rowStart .mask 0 0 0) 0x101 [] [] []
    s.inputs = [] ∧ s.eng = some ⟨0x40, .glyph (decoder .rowStart .mask 0 0 0)⟩ ∧
    Open s.cfg s.px .srcRead (addrPlus s.cfg s.regs.glyph.rowtab.toNat (4 * (s.regs.glyph.skipy.toNat % 2 ^ 31 + 0))) 4 := by
  decide

/-- A header byte that can be read, in both phases, and the three runs it may stand for. -/
theorem witness_Headers :
    (decoder .skip .mask 1 2 4).wantsHeader = true ∧ (decoder .emit .mask 1 0 4).wantsHeader = true ∧
    (let s := glyph (decoder .skip .mask 1 2 4) 0x101 [] [0x05] []
     s.eng = some ⟨0x40, .glyph (decoder .skip .mask 1 2 4)⟩ ∧ isBacked s.cfg (decoder .skip .mask 1 2 4).p = true ∧
     s.px.clashAt .srcRead (decoder .skip .mask 1 2 4).p = none) := by decide

theorem witness_SkippedRuns :
    (decoder .skip .mask 1 2 4).phase = .skip ∧ 0 < (decoder .skip .mask 1 2 4).sx ∧
    HeaderRun (.runTransparent 63) 1 ⟨.transparent, 128, false⟩ ∧ HeaderRun (.runSolid 31 true) 1 ⟨.solid, 64, true⟩ ∧
    HeaderRun (.runIntermediate 31 false) 1 ⟨.intermediate, 64, false⟩ :=
  ⟨rfl, by decide, Or.inl ⟨_, rfl, rfl⟩, Or.inr (Or.inl ⟨_, _, rfl, rfl⟩), Or.inr (Or.inr ⟨_, _, rfl, rfl⟩)⟩

/-- The three kinds of run on ready regions, longer than the width that is left. -/
theorem witness_EmittedRuns :
    let g := decoder .emit .mask 0 0 4
    let g' := { g with p := addrPlus emitting.cfg g.p 1, extend := 0 }
    emitting.eng = some ⟨0x40, .glyph g⟩ ∧ g.phase = .emit ∧ 0 < g.ww ∧ g.pend = none ∧ 1 ≤ emitting.regs.dst.n ∧
    isBacked emitting.cfg g.p = true ∧ emitting.px.clashAt .srcRead g.p = none ∧
    EmitReady (emitting.noteRead g.p) g' ⟨.transparent, 5, false⟩ ∧
    EmitReady (emitting.noteRead g.p) g' ⟨.solid, 5, true⟩ ∧
    EmitReady (emitting.noteRead g.p) g' ⟨.intermediate, 5, true⟩ := by
  refine ⟨by decide, by decide, by decide, by decide, by decide, by decide, by decide, trivial, ?_, ?_⟩
  · unfold EmitReady
    decide
  · unfold EmitReady
    decide

theorem witness_RowTransitions :
    let s := glyph { decoder .emit .mask 0 0 4 with pend := some ⟨.solid, 9, true⟩ } 0x101 [] [] []
    s.inputs = [] ∧ s.eng = some ⟨0x40, .glyph { decoder .emit .mask 0 0 4 with pend := some ⟨.solid, 9, true⟩ }⟩ ∧
    1 ≤ s.regs.dst.n ∧ EmitReady s { decoder .emit .mask 0 0 4 with pend := some ⟨.solid, 9, true⟩ } ⟨.solid, 9, true⟩ ∧
    (decoder .skip .mask 0 0 4).sx = 0 ∧ (decoder .emit .mask 0 0 0).ww = 0 ∧
    (decoder .rowEnd .mask 0 0 0).r + 1 < s.regs.glyph.h.toNat % 2 ^ 31 ∧
    s.regs.glyph.h.toNat % 2 ^ 31 ≤ { decoder .rowEnd .mask 0 0 0 with r := 1 }.r + 1 := by
  refine ⟨by decide, by decide, by decide, ?_, by decide, by decide, by decide, by decide⟩
  unfold EmitReady
  decide

/-- A glyph of one pixel in empty memory, which is one long stream of Extend headers: the state two steps after its command,
when the row start has read its table entry. -/
def extending : State :=
  after (step (after (step (command 0x40 { Regs.zero with
    dst := { Desc.zero with fmt := 0x101 }, glyph := ⟨0x5000, 0x5100, 0x3000, 1, 1, 0, 0⟩ }))))

theorem witness_EndlessExtendStaysBusy : extending.EndlessExtend ∧ extending.px.log.length = 4 := by
  have hlog : ∀ e ∈ extending.px.log, e.kind = .srcRead := by decide
  have hcells : extending.px.cells = [] := by decide
  have hcfg : extending.cfg = Params.default := by decide
  refine ⟨⟨by decide, ⟨0x40, decoder .emit .mask 0 0 1, by decide, by decide, by decide⟩, fun a ha => ?_⟩, by decide⟩
  rw [hcfg] at ha ⊢
  refine ⟨backed_default ha, by simp [Pixmem.byte, hcells, cellAt, unlisted], ?_⟩
  rw [Pixmem.clashAt, List.findSome?_eq_none_iff]
  intro e he
  rw [hlog e he]
  split <;> rfl

end Sys2Proof.Tests
end

section
/-! The statements of 10_state.md: the invariants of every step, the frame of the block and the register map. -/

namespace Sys2Proof.Machine

open Sys2Proof

/-! ## Predicates that every step keeps -/

/-- A predicate kept by a step of the block, an access of the host and a reset, and that says nothing of the schedule, is
kept by every step of the machine. -/
theorem step_keeps {P : State → Prop} (hinputs : ∀ s es, P s → P (s.setInputs es))
    (hblock : ∀ s t, P s → BlockStep s t → P t) (hhost : ∀ s t, P s → HostStep s t → P t)
    (hreset : ∀ s t, P s → resetBlock s = .next t → P t) {s t : State} (hs : P s) (h : step s = .next t) : P t := by
  rcases step_cases h with ⟨-, he⟩ | ⟨e, rest, -, he⟩
  · exact hblock s t hs (engineStep_cases he)
  · have hs' : P (s.setInputs rest) := hinputs s rest hs
    cases e with
    | host op => exact hhost _ t hs' (hostAccess_cases he)
    | reset lost => exact hreset _ t hs' he
    | run => exact hblock _ t hs' (engineStep_cases he)

/-- What a span ends with: the next row, or `done`. -/
theorem endSpan_cases (s : State) (q : Seq) :
    endSpan s q = s.proceed (.spans (nextRow s q)) ∨ endSpan s q = s.finish := by
  unfold endSpan
  split
  · exact Or.inl rfl
  · exact Or.inr rfl

theorem busy_of_eng {s : State} {e : Engine} (h : s.eng = some e) : s.busy = true := by simp [State.busy, h]

theorem busy_of_idle {s : State} (h : s.eng = none) : s.busy = false := by simp [State.busy, h]

@[simp] theorem State.proceed_busy (s : State) (act : Activity) : (s.proceed act).busy = s.busy := by
  simp [State.busy]

/-! ## The status (R27, R250) -/

/-- The invariant speaks of `BUSY` and the status alone. -/
theorem State.StatusInv.congr {s t : State} (h : s.StatusInv) (hb : t.busy = s.busy) (hs : t.status = s.status) :
    t.StatusInv := by
  unfold State.StatusInv
  rw [hb, hs]
  exact h

theorem State.StatusInv.finish {s : State} (h : s.StatusInv) (hb : s.busy = true) : s.finish.StatusInv := by
  obtain ⟨hbusy, -, hnone, -⟩ := h
  obtain ⟨-, hf⟩ := hbusy hb
  exact ⟨fun hn => by simp at hn, fun _ => hf, hnone, fun hn => by simp [hf] at hn⟩

theorem faultCode_range (c : FaultCode) : 1 ≤ c.code.toNat ∧ c.code.toNat ≤ 4 := by
  cases c <;> decide

theorem State.raise_statusInv (s : State) (c : FaultCode) : (s.raise c).StatusInv :=
  ⟨fun hn => by simp at hn, fun hn => by simp at hn, fun hn => by simp at hn, fun _ => faultCode_range c⟩

theorem State.accept_statusInv (s : State) (v : Word) : (s.accept v).StatusInv :=
  ⟨fun _ => ⟨rfl, rfl⟩, fun _ => rfl, fun _ => rfl, fun hn => by simp at hn⟩

/-- Clearing flags sets none, and `FCODE` is cleared exactly with `FAULT` (R246). -/
theorem State.StatusInv.statusWrite {s : State} (h : s.StatusInv) (v : Word) :
    (s.setStatus (statusWrite s.status v)).StatusInv := by
  obtain ⟨hbusy, hdone, hnone, hsome⟩ := h
  refine ⟨fun hb => ?_, fun hd => ?_, fun hf => ?_, fun hf => ?_⟩
  · obtain ⟨hd, hf⟩ := hbusy hb
    simp [Machine.statusWrite, hd, hf]
  · have hd' : s.status.done = true := by
      simp only [Machine.statusWrite, State.setStatus_status, Bool.and_eq_true] at hd
      exact hd.1
    simp [Machine.statusWrite, hdone hd']
  · simp only [Machine.statusWrite, State.setStatus_status] at hf ⊢
    cases hv : v.getLsbD 2 with
    | true => rfl
    | false =>
      rw [hv, Bool.not_false, Bool.and_true] at hf
      exact hnone hf
  · simp only [Machine.statusWrite, State.setStatus_status, Bool.and_eq_true, Bool.not_eq_true'] at hf ⊢
    obtain ⟨hf, hv⟩ := hf
    rw [hv]
    exact hsome hf

theorem State.StatusInv.dropped {s : State} (h : s.StatusInv) : (s.setStatus (statusDropped s.status)).StatusInv := h

theorem BlockStep.keepsStatusInv {s t : State} (h : BlockStep s t) (hs : s.StatusInv) : t.StatusInv := by
  cases h with
  | idle _ => exact hs
  | result w i v he _ _ => exact State.StatusInv.finish (s := s.setAluR v) hs (busy_of_eng he)
  | done w he => exact hs.finish (busy_of_eng he)
  | fault w c _ => exact s.raise_statusInv c
  | selected w i k he _ _ => exact State.StatusInv.finish (s := s.setKsel k) hs (busy_of_eng he)
  | unsupported w i _ _ _ => exact State.raise_statusInv _ _
  | startsSpan w q _ _ => exact hs.congr (by simp) rfl
  | startsGlyph w g _ _ => exact hs.congr (by simp) rfl
  | span w q i op m he _ _ _ =>
    rcases endSpan_cases (s.setPx m) q with e | e <;> rw [e]
    · exact hs.congr (by simp) rfl
    · exact State.StatusInv.finish (s := s.setPx m) hs (busy_of_eng he)
  | badSelector w q c _ _ => exact s.raise_statusInv c
  | glyphMove w g g' log _ => exact hs.congr (by simp) rfl
  | glyphEmit w g g1 g' tag log n m _ _ _ _ _ => exact hs.congr (by simp) rfl
  | glyphDone w g he => exact hs.finish (busy_of_eng he)

theorem HostStep.keepsStatusInv {s t : State} (h : HostStep s t) (hs : s.StatusInv) : t.StatusInv := by
  cases h with
  | none => exact hs
  | read v => exact hs
  | memRead log v => exact hs
  | memWrite log a v => exact hs
  | write r v =>
    rcases writeReg_cases s r v with e | e | ⟨-, e⟩ | e <;> rw [e]
    · exact hs.statusWrite v
    · exact hs.dropped
    · exact s.accept_statusInv v
    · exact hs

theorem resetBlock_statusInv {s t : State} (h : resetBlock s = .next t) : t.StatusInv := by
  obtain ⟨m, -, rfl⟩ := resetBlock_next h
  exact ⟨fun hn => Bool.noConfusion hn, fun _ => rfl, fun _ => rfl, fun hn => Bool.noConfusion hn⟩

/-- Settles O9: every end of a command and every flag write keeps the invariant, which `step_keeps` lifts to a step. -/
theorem stepKeepsStatusExclusive : Obligations.StepKeepsStatusExclusive := fun _ _ hs h =>
  step_keeps (P := State.StatusInv) (fun _ _ hs => hs) (fun _ _ hs h => h.keepsStatusInv hs)
    (fun _ _ hs h => h.keepsStatusInv hs) (fun _ _ _ h => resetBlock_statusInv h) hs h

/-! ## The parameters and the registers across a step (R8, R48) -/

theorem BlockStep.cfg {s t : State} (h : BlockStep s t) : t.cfg = s.cfg := by
  cases h with
  | span w q i op m _ _ _ _ => simp
  | _ => rfl

theorem HostStep.cfg {s t : State} (h : HostStep s t) : t.cfg = s.cfg := by
  cases h with
  | write r v => rcases writeReg_cases s r v with e | e | ⟨-, e⟩ | e <;> rw [e] <;> rfl
  | _ => rfl

/-- What a step of the block does to the registers: nothing, `ALU_R`, or `KSEL` (R48). -/
inductive BlockRegs (s t : State) : Prop where
  | same : t.regs = s.regs → BlockRegs s t
  | aluR (w : Word) (i : Instr) (v : Word) : s.eng = some ⟨w, .start⟩ → decodeCmd w = .ok i →
      i ∈ [Instr.expand, .combine, .blend, .combine2] → t.status.done = true → t.regs = (s.setAluR v).regs → BlockRegs s t
  | ksel (w : Word) (i : Instr) (k : BitVec 10) : s.eng = some ⟨w, .start⟩ → decodeCmd w = .ok i →
      i ∈ [Instr.getSolidPainter, .getSpanPainter, .getSpanMaskPainter, .getSpanColorPainter] →
      (t.status.done = true ∨ t.status.fault = true ∧ t.status.fcode = 1) → t.regs = (s.setKsel k).regs → BlockRegs s t

theorem BlockStep.regs {s t : State} (h : BlockStep s t) : BlockRegs s t := by
  cases h with
  | result w i v he hd hi => exact .aluR w i v he hd hi rfl rfl
  | selected w i k he hd hi => exact .ksel w i k he hd hi (Or.inl rfl) rfl
  | unsupported w i he hd hi => exact .ksel w i 0 he hd hi (Or.inr ⟨rfl, rfl⟩) rfl
  | span w q i op m _ _ _ _ => exact .same (by simp)
  | _ => exact .same rfl

/-! ## The address registers (R23, R40) -/

theorem BlockStep.keepsAddrInv {s t : State} {p : Params} (h : BlockStep s t) (hs : s.regs.AddrInv p) :
    t.regs.AddrInv p := by
  cases h.regs with
  | same e => rw [e]; exact hs
  | aluR w i v _ _ _ _ e => rw [e]; exact hs
  | ksel w i k _ _ _ _ e => rw [e]; exact hs

theorem addrBits_lt (p : Params) (v : Word) : (addrBits p v).toNat < 2 ^ p.addrW :=
  calc (addrBits p v).toNat ≤ v.toNat % 2 ^ p.addrW := by
        rw [addrBits, BitVec.toNat_ofNat]
        exact Nat.mod_le _ _
    _ < 2 ^ p.addrW := Nat.mod_lt _ (Nat.two_pow_pos _)

theorem Desc.put_base_lt {p : Params} {d : Desc} (f : DescField) (v : Word) (h : d.base.toNat < 2 ^ p.addrW) :
    (d.put p f v).base.toNat < 2 ^ p.addrW := by
  cases f with
  | base => exact addrBits_lt p v
  | _ => exact h

/-- A host write stores only the low ADDR_W bits in an address register and leaves the others alone. -/
theorem putReg_addrInv {p : Params} {r : Regs} (h : r.AddrInv p) (v : Word) (x : Reg) : (putReg p r v x).AddrInv p := by
  obtain ⟨hdp, hsp, hmp, hdst, hsrc, hmsk, hrow, hdata, hgdp⟩ := h
  have hv := addrBits_lt p v
  cases x with
  | kDptr => exact ⟨hv, hsp, hmp, hdst, hsrc, hmsk, hrow, hdata, hgdp⟩
  | kSptr => exact ⟨hdp, hv, hmp, hdst, hsrc, hmsk, hrow, hdata, hgdp⟩
  | kMptr => exact ⟨hdp, hsp, hv, hdst, hsrc, hmsk, hrow, hdata, hgdp⟩
  | dst f => exact ⟨hdp, hsp, hmp, Desc.put_base_lt f v hdst, hsrc, hmsk, hrow, hdata, hgdp⟩
  | src f => exact ⟨hdp, hsp, hmp, hdst, Desc.put_base_lt f v hsrc, hmsk, hrow, hdata, hgdp⟩
  | msk f => exact ⟨hdp, hsp, hmp, hdst, hsrc, Desc.put_base_lt f v hmsk, hrow, hdata, hgdp⟩
  | gRowtab => exact ⟨hdp, hsp, hmp, hdst, hsrc, hmsk, hv, hdata, hgdp⟩
  | gData => exact ⟨hdp, hsp, hmp, hdst, hsrc, hmsk, hrow, hv, hgdp⟩
  | gDptr => exact ⟨hdp, hsp, hmp, hdst, hsrc, hmsk, hrow, hdata, hv⟩
  | _ => exact ⟨hdp, hsp, hmp, hdst, hsrc, hmsk, hrow, hdata, hgdp⟩

theorem HostStep.keepsAddrInv {s t : State} (h : HostStep s t) (hs : s.regs.AddrInv s.cfg) : t.regs.AddrInv s.cfg := by
  cases h with
  | write r v =>
    rcases writeReg_cases s r v with e | e | ⟨-, e⟩ | e <;> rw [e]
    · exact hs
    · exact hs
    · exact hs
    · exact putReg_addrInv hs v r
  | _ => exact hs

theorem Regs.zero_addrInv (p : Params) : Regs.zero.AddrInv p := by
  have h : (0 : Word).toNat < 2 ^ p.addrW := Nat.two_pow_pos _
  exact ⟨h, h, h, h, h, h, h, h, h⟩

/-- The address registers are in range for the parameters `p`, and these are the block's. -/
def State.AddrInvAt (p : Params) (s : State) : Prop := s.cfg = p ∧ s.regs.AddrInv p

/-- Settles O10: only a host write stores an address register, and it stores ADDR_W bits. -/
theorem stepKeepsAddressRegisters : Obligations.StepKeepsAddressRegisters := by
  intro s t hs h
  have ht : t.AddrInvAt s.cfg := by
    refine step_keeps (P := State.AddrInvAt s.cfg) (fun _ _ hu => hu) ?_ ?_ ?_ ⟨rfl, hs⟩ h
    · rintro u u' ⟨hc, hu⟩ hb
      exact ⟨hb.cfg.trans hc, hb.keepsAddrInv hu⟩
    · rintro u u' ⟨hc, hu⟩ hh
      rw [← hc] at hu ⊢
      exact ⟨hh.cfg, hh.keepsAddrInv hu⟩
    · rintro u u' ⟨hc, -⟩ hr
      obtain ⟨m, -, rfl⟩ := resetBlock_next hr
      exact ⟨hc, Regs.zero_addrInv _⟩
  obtain ⟨hc, hr⟩ := ht
  exact ⟨by rwa [hc], hc⟩

/-! ## The registers the block writes (R48) -/

/-- Settles O13: the three cases of `BlockRegs`. -/
theorem commandsWriteOnlyTheirRegisters : Obligations.CommandsWriteOnlyTheirRegisters := by
  intro s t hi h
  rw [step_quiet hi] at h
  cases (engineStep_cases h).regs with
  | same e => exact ⟨by rw [e], fun hne => absurd (by rw [e]) hne, fun hne => absurd (by rw [e]) hne⟩
  | aluR w i v he hd hm hdone e =>
    exact ⟨by rw [e]; rfl, fun _ => ⟨hdone, w, i, he, hd, hm⟩, fun hne => absurd (by rw [e]; rfl) hne⟩
  | ksel w i k he hd hm hend e =>
    exact ⟨by rw [e]; rfl, fun hne => absurd (by rw [e]; rfl) hne, fun _ => ⟨hend, w, i, he, hd, hm⟩⟩

/-! ## The bytes the block writes (R54, R155, R232) -/

theorem Within.keepsOutside {p : Params} {base len : Nat} {m m' : Pixmem} (h : Within (Region p base len) m m')
    (hw : m.wf = true) : KeepsOutside p base len m.byte m'.byte := (h hw).2

/-- A step at a command word leaves pixel memory alone. -/
theorem BlockStep.px_of_start {s t : State} {w : Word} (h : BlockStep s t) (he : s.eng = some ⟨w, .start⟩) :
    t.px = s.px := by
  cases h with
  | span w' q i op m he' _ _ _ => simp [he] at he'
  | glyphMove w' g g' log he' => simp [he] at he'
  | glyphEmit w' g g1 g' tag log n m he' _ _ _ _ => simp [he] at he'
  | _ => rfl

/-- A step at a span changes only bytes of its remaining destination pixels. -/
theorem BlockStep.within_span {s t : State} {w : Word} {q : Seq} (h : BlockStep s t) (he : s.eng = some ⟨w, .spans q⟩)
    (hn : 1 ≤ q.n) : Within (Region s.cfg q.dp (spanLen q * q.n)) s.px t.px := by
  cases h with
  | span w' q' i op m he' _ hop hm =>
    have hq : q' = q := by simp_all
    subst hq
    simp only [endSpan_px, State.setPx_px]
    exact upto_frames (fun j hj => (hop.of_pos hn j).mono (fun _ hx => region_of_pixel hj hx)) _ _ hm
  | glyphMove w' g g' log he' => simp [he] at he'
  | glyphEmit w' g g1 g' tag log n m he' _ _ _ _ => simp [he] at he'
  | _ => exact Within.of_cells rfl

/-- A step of the run decoder changes only bytes of the row's remaining destination pixels. -/
theorem BlockStep.within_glyph {s t : State} {w : Word} {g : Rle} (h : BlockStep s t) (he : s.eng = some ⟨w, .glyph g⟩)
    (hn : 1 ≤ s.regs.dst.n) : Within (Region s.cfg g.dp (g.ww * s.regs.dst.n)) s.px t.px := by
  cases h with
  | span w' q i op m he' _ _ _ => simp [he] at he'
  | glyphEmit w' g' g1 g2 tag log n m he' hdp hle _ hm =>
    have hg : g' = g := by simp_all
    subst hg
    rw [← hdp]
    have hlog : Within (Region s.cfg g1.dp (g'.ww * s.regs.dst.n)) s.px { s.px with log := log } := Within.of_cells rfl
    exact hlog.trans (emitPixels_frame hn hle hm)
  | _ => exact Within.of_cells rfl

/-- Settles O45: the frame of each kind of step of the block. -/
theorem blockWritesOnlyDestination : Obligations.BlockWritesOnlyDestination := by
  intro s t hi hw h
  rw [step_quiet hi] at h
  have hb := engineStep_cases h
  exact ⟨fun _ he => hb.px_of_start he, fun _ _ he hn => (hb.within_span he hn).keepsOutside hw,
    fun _ _ he hn => (hb.within_glyph he hn).keepsOutside hw⟩

/-! ## The register map (R23, R39, R40) -/

/-- The offset of a descriptor field within its set (R23). -/
def DescField.offset : DescField → Nat
  | .base => 0x00
  | .stride => 0x04
  | .x => 0x08
  | .y => 0x0C
  | .width => 0x10
  | .height => 0x14
  | .fmt => 0x18

/-- The offset of a register (R23): `regAt` read backwards, as `regAt_offset` says. -/
def Reg.offset : Reg → Nat
  | .id => 0x000
  | .config => 0x004
  | .ctrl => 0x008
  | .status => 0x00C
  | .cmd => 0x010
  | .ksel => 0x014
  | .aluA => 0x020
  | .aluB => 0x024
  | .aluC => 0x028
  | .aluD => 0x02C
  | .aluR => 0x030
  | .kDptr => 0x040
  | .kSptr => 0x044
  | .kMptr => 0x048
  | .kW => 0x04C
  | .kN => 0x050
  | .kFlags => 0x054
  | .kAlpha => 0x058
  | .color i => 0x100 + 4 * i
  | .dst f => 0x200 + f.offset
  | .src f => 0x220 + f.offset
  | .msk f => 0x240 + f.offset
  | .clipX0 => 0x260
  | .clipY0 => 0x264
  | .clipX1 => 0x268
  | .clipY1 => 0x26C
  | .gRowtab => 0x280
  | .gData => 0x284
  | .gDptr => 0x288
  | .gW => 0x28C
  | .gH => 0x290
  | .gSkipx => 0x294
  | .gSkipy => 0x298

/-- The stored bits of a descriptor field (R23). -/
def DescField.bits (p : Params) : DescField → Nat
  | .base => p.addrW
  | .fmt => 9
  | _ => 32

/-- The stored bits of a read-write register (R23): `storedBits` by register, as `storedBits_of_regAt` says. -/
def Reg.bits (p : Params) : Reg → Option Nat
  | .id | .config | .status | .cmd | .aluR => none
  | .ctrl | .kFlags => some 2
  | .ksel => some 10
  | .kN | .kAlpha => some 8
  | .color _ => some 8
  | .dst f | .src f | .msk f => some (f.bits p)
  | .kDptr | .kSptr | .kMptr | .gRowtab | .gData | .gDptr => some p.addrW
  | _ => some 32

theorem descField_offset {n : Nat} {f : DescField} (h : descField n = some f) : f.offset = n := by
  unfold descField at h
  split at h <;> cases h <;> rfl

theorem singleReg_offset {n : Nat} {r : Reg} (h : singleReg n = some r) : r.offset = n ∧ ∀ i, r ≠ .color i := by
  unfold singleReg at h
  split at h <;> cases h <;> exact ⟨rfl, fun _ => Reg.noConfusion⟩

/-- A register of a descriptor's set lies at its field's offset from the set's `base`. -/
theorem descReg_offset {mk : DescField → Reg} {base off : Nat} {r : Reg}
    (hmk : ∀ f, (mk f).offset = base + f.offset ∧ ∀ i, mk f ≠ .color i) (hl : base ≤ off)
    (h : (descField (off - base)).map mk = some r) : r.offset = off ∧ ∀ i, r ≠ .color i := by
  obtain ⟨f, hf, rfl⟩ := Option.map_eq_some_iff.1 h
  obtain ⟨ho, hc⟩ := hmk f
  rw [descField_offset hf] at ho
  exact ⟨by omega, hc⟩

/-- The register at an aligned offset is the one of that offset, and there are 64 colors. -/
theorem regAt_offset {off : Nat} {r : Reg} (h : regAt off = some r) (ha : off % 4 = 0) :
    r.offset = off ∧ ∀ i, r = .color i → i < 64 := by
  have noColor (h : r.offset = off ∧ ∀ i, r ≠ .color i) : r.offset = off ∧ ∀ i, r = .color i → i < 64 :=
    ⟨h.1, fun i hi => absurd hi (h.2 i)⟩
  unfold regAt at h
  split at h
  · cases h
    exact ⟨by simp only [Reg.offset]; omega, fun i hi => by cases hi; omega⟩
  · split at h
    · rename_i hd
      exact noColor (descReg_offset (fun _ => ⟨rfl, fun _ => Reg.noConfusion⟩) hd.1 h)
    · split at h
      · rename_i hs
        exact noColor (descReg_offset (fun _ => ⟨rfl, fun _ => Reg.noConfusion⟩) hs.1 h)
      · split at h
        · rename_i hm
          exact noColor (descReg_offset (fun _ => ⟨rfl, fun _ => Reg.noConfusion⟩) hm.1 h)
        · exact noColor (singleReg_offset h)

theorem storedBits_color (p : Params) {i : Nat} (hi : i < 64) : storedBits p (0x100 + 4 * i) = some 8 := by
  unfold storedBits
  rw [if_neg (by omega), if_neg (by omega), if_pos (by omega)]

/-- `storedBits` says of an offset what `Reg.bits` says of its register. -/
theorem storedBits_of_regAt (p : Params) {off : Nat} {r : Reg} (h : regAt off = some r) (ha : off % 4 = 0) :
    storedBits p off = r.bits p := by
  obtain ⟨rfl, hi⟩ := regAt_offset h ha
  cases r with
  | color i => exact storedBits_color p (hi i rfl)
  | dst f => cases f <;> rfl
  | src f => cases f <;> rfl
  | msk f => cases f <;> rfl
  | _ => rfl

/-- Every offset with stored bits is an aligned one of a register. -/
theorem regAt_of_storedBits {p : Params} {off n : Nat} (h : storedBits p off = some n) :
    off < 0x1000 ∧ off % 4 = 0 ∧ ∃ r, regAt off = some r := by
  unfold storedBits at h
  split at h
  · rename_i ho
    rcases ho with rfl | rfl <;> exact ⟨by omega, rfl, _, rfl⟩
  · split at h
    · subst off
      exact ⟨by omega, rfl, _, rfl⟩
    · split at h
      · rename_i ho
        rcases ho with rfl | rfl | ⟨hl, hu, ha⟩
        · exact ⟨by omega, rfl, _, rfl⟩
        · exact ⟨by omega, rfl, _, rfl⟩
        · exact ⟨by omega, ha, _, if_pos ⟨hl, hu⟩⟩
      · split at h
        · rename_i ho
          rcases ho with rfl | rfl | rfl <;> exact ⟨by omega, rfl, _, rfl⟩
        · split at h
          · rename_i ho
            simp only [List.mem_cons, List.not_mem_nil, or_false] at ho
            rcases ho with rfl | rfl | rfl | rfl | rfl | rfl | rfl | rfl | rfl <;> exact ⟨by omega, rfl, _, rfl⟩
          · split at h
            · rename_i ho
              simp only [List.mem_cons, List.not_mem_nil, or_false] at ho
              rcases ho with rfl | rfl | rfl | rfl | rfl | rfl | rfl | rfl | rfl | rfl | rfl | rfl | rfl | rfl | rfl |
                rfl | rfl | rfl | rfl | rfl | rfl | rfl | rfl | rfl | rfl | rfl | rfl | rfl <;>
                exact ⟨by omega, rfl, _, rfl⟩
            · cases h

/-- A register without stored bits is one of `specialOffset`. -/
theorem specialOffset_of_bits {p : Params} {r : Reg} (h : r.bits p = none) : specialOffset r.offset = true := by
  cases r <;> cases h <;> rfl

/-- Apart from the special registers, an offset without stored bits is not mapped (R39). -/
theorem regAt_unlisted {p : Params} {off : Nat} (ha : off % 4 = 0) (hb : storedBits p off = none)
    (hs : specialOffset off = false) : regAt off = none := by
  cases h : regAt off with
  | none => rfl
  | some r =>
    have hsp := specialOffset_of_bits ((storedBits_of_regAt p h ha).symm.trans hb)
    rw [(regAt_offset h ha).1, hs] at hsp
    cases hsp

/-! ## Register accesses of the host (R70, R247) -/

/-- An aligned access inside the register space reaches the register at its offset. -/
theorem regAccess_at (s : State) {off : Nat} (f : Option Reg → State) (hl : off < 0x1000) (ha : off % 4 = 0) :
    regAccess s (s.cfg.regBase + off) f = .next (f (regAt off)) := by
  have hw : inWindow s.cfg (s.cfg.regBase + off) = true := by simp [inWindow, hl]
  simp only [regAccess, hw, if_true, Nat.add_sub_cancel_left, ha]

theorem hostAccess_write_mapped (s : State) {off : Nat} {r : Reg} (v : Word) (hl : off < 0x1000) (ha : off % 4 = 0)
    (hr : regAt off = some r) : hostAccess s (.write (s.cfg.regBase + off) v) = .next (writeReg s r v) := by
  simp only [hostAccess, hostWrite, regAccess_at s _ hl ha, hr]

theorem hostAccess_read_mapped (s : State) {off : Nat} {r : Reg} (hl : off < 0x1000) (ha : off % 4 = 0)
    (hr : regAt off = some r) :
    hostAccess s (.read (s.cfg.regBase + off)) = .next (s.setHostData (readReg s r)) := by
  simp only [hostAccess, hostRead, regAccess_at s _ hl ha, hr]

theorem hostAccess_write_unmapped (s : State) {off : Nat} (v : Word) (hl : off < 0x1000) (ha : off % 4 = 0)
    (hr : regAt off = none) : hostAccess s (.write (s.cfg.regBase + off) v) = .next s := by
  simp only [hostAccess, hostWrite, regAccess_at s _ hl ha, hr]

theorem hostAccess_read_unmapped (s : State) {off : Nat} (hl : off < 0x1000) (ha : off % 4 = 0)
    (hr : regAt off = none) : hostAccess s (.read (s.cfg.regBase + off)) = .next (s.setHostData 0) := by
  simp only [hostAccess, hostRead, regAccess_at s _ hl ha, hr]

/-- Settles O18: such an offset holds no register. -/
theorem unmappedOffsets : Obligations.UnmappedOffsets := by
  intro s off v hl ha hb hs
  have hr := regAt_unlisted ha hb hs
  exact ⟨hostAccess_write_unmapped s v hl ha hr, hostAccess_read_unmapped s hl ha hr⟩

/-! ## Reading back a write (R40) -/

/-- An idle block stores a write to any register but `STATUS` and `CMD` (R247). -/
theorem writeReg_idle {s : State} {r : Reg} (v : Word) (hb : s.busy = false) (hs : r ≠ .status) (hc : r ≠ .cmd) :
    writeReg s r v = s.setRegs (putReg s.cfg s.regs v r) := by
  cases r with
  | status => exact absurd rfl hs
  | cmd => exact absurd rfl hc
  | ctrl => rfl
  | _ => simp [writeReg, hb]

theorem addrBits_toNat (p : Params) (v : Word) : (addrBits p v).toNat = v.toNat % 2 ^ p.addrW := by
  have hle : v.toNat % 2 ^ p.addrW ≤ v.toNat := Nat.mod_le _ _
  rw [addrBits, BitVec.toNat_ofNat, Nat.mod_eq_of_lt (Nat.lt_of_le_of_lt hle v.isLt)]

theorem toNat_word (v : Word) : v.toNat = v.toNat % 2 ^ 32 := (Nat.mod_eq_of_lt v.isLt).symm

/-- The low bits of a word, as a read extends them to 32 bits. -/
theorem lowBits_toNat {n : Nat} (v : Word) : ((v.extractLsb' 0 n).zeroExtend 32).toNat = v.toNat % 2 ^ n := by
  have hlt : v.toNat % 2 ^ n < 2 ^ 32 := Nat.lt_of_le_of_lt (Nat.mod_le _ _) v.isLt
  simpa using hlt

theorem colorAt_putColor_same (r : Regs) {i : Nat} (b : Byte) (hi : i < 64) :
    colorAt { r with color := putColor r.color i b } i = b := by
  simp [colorAt, putColor, hi]

theorem colorAt_putColor_ne (r : Regs) {i j : Nat} (b : Byte) (hij : i ≠ j) :
    colorAt { r with color := putColor r.color i b } j = colorAt r j := by
  simp [colorAt, putColor, Vector.getElem?_setIfInBounds_ne hij]

theorem Desc.get_put_same {p : Params} (d : Desc) (f : DescField) (v : Word) :
    ((d.put p f v).get f).toNat = v.toNat % 2 ^ f.bits p := by
  cases f with
  | base => exact addrBits_toNat _ v
  | fmt => exact lowBits_toNat v
  | _ => exact toNat_word v

theorem Desc.get_put_ne {p : Params} (d : Desc) {f f' : DescField} (v : Word) (hne : f' ≠ f) :
    (d.put p f v).get f' = d.get f' := by
  cases f <;> cases f' <;> first | rfl | exact absurd rfl hne

/-- A stored write reads back as its stored bits. -/
theorem readReg_putReg_same {s : State} {r : Reg} {n : Nat} (v : Word) (hb : r.bits s.cfg = some n)
    (hi : ∀ i, r = .color i → i < 64) :
    (readReg (s.setRegs (putReg s.cfg s.regs v r)) r).toNat = v.toNat % 2 ^ n := by
  cases r with
  | id | config | status | cmd | aluR => cases hb
  | ctrl | ksel | kN | kFlags | kAlpha =>
    cases hb
    exact lowBits_toNat v
  | color i =>
    cases hb
    simp only [readReg, State.setRegs_regs, putReg, colorAt_putColor_same _ _ (hi i rfl)]
    exact lowBits_toNat v
  | dst f | src f | msk f =>
    cases hb
    exact Desc.get_put_same _ f v
  | kDptr | kSptr | kMptr | gRowtab | gData | gDptr =>
    cases hb
    exact addrBits_toNat _ v
  | _ =>
    cases hb
    exact toNat_word v

/-- A stored write leaves every other register as it reads. -/
theorem readReg_putReg_ne {s : State} {r r' : Reg} (v : Word) (hne : r' ≠ r) :
    readReg (s.setRegs (putReg s.cfg s.regs v r)) r' = readReg s r' := by
  cases r with
  | color i =>
    cases r' with
    | color j =>
      have hij : i ≠ j := fun e => hne (by rw [e])
      simp only [readReg, State.setRegs_regs, putReg, colorAt_putColor_ne _ _ hij]
    | _ => rfl
  | dst f =>
    cases r' with
    | dst f' => exact Desc.get_put_ne _ v (fun e => hne (by rw [e]))
    | _ => rfl
  | src f =>
    cases r' with
    | src f' => exact Desc.get_put_ne _ v (fun e => hne (by rw [e]))
    | _ => rfl
  | msk f =>
    cases r' with
    | msk f' => exact Desc.get_put_ne _ v (fun e => hne (by rw [e]))
    | _ => rfl
  | _ => cases r' <;> first | rfl | exact absurd rfl hne

/-- The read-only registers of R23. -/
theorem regAt_readOnly {off : Nat} (h : off ∈ [0x000, 0x004, 0x030]) :
    off < 0x1000 ∧ off % 4 = 0 ∧ ∃ r ∈ [Reg.id, .config, .aluR], regAt off = some r := by
  simp only [List.mem_cons, List.not_mem_nil, or_false] at h
  rcases h with rfl | rfl | rfl
  · exact ⟨by decide, rfl, .id, by simp, rfl⟩
  · exact ⟨by decide, rfl, .config, by simp, rfl⟩
  · exact ⟨by decide, rfl, .aluR, by simp, rfl⟩

/-- A write to a read-only register stores nothing (R247). -/
theorem writeReg_readOnly {s : State} {r : Reg} (v : Word) (hb : s.busy = false) (hr : r ∈ [Reg.id, .config, .aluR]) :
    writeReg s r v = s := by
  simp only [List.mem_cons, List.not_mem_nil, or_false] at hr
  rcases hr with rfl | rfl | rfl <;> simp [writeReg, hb] <;> rfl

/-- Settles O17: the register map takes the offset to its register, whose write is stored and read back. -/
theorem writeStoresTheRegisterBits : Obligations.WriteStoresTheRegisterBits := by
  refine ⟨?_, ?_⟩
  · intro s off n v he _ hb
    obtain ⟨hl, ha, r, hr⟩ := regAt_of_storedBits hb
    obtain ⟨ho, hi⟩ := regAt_offset hr ha
    rw [storedBits_of_regAt s.cfg hr ha] at hb
    have hw : writeReg s r v = s.setRegs (putReg s.cfg s.regs v r) :=
      writeReg_idle v (busy_of_idle he) (fun e => by subst e; cases hb) (fun e => by subst e; cases hb)
    refine ⟨s.setRegs (putReg s.cfg s.regs v r), _, ?_, hostAccess_read_mapped _ hl ha hr,
      readReg_putReg_same v hb hi, he, rfl, rfl, rfl, ?_⟩
    · rw [hostAccess_write_mapped s v hl ha hr, hw]
    · intro off' _ ha' hne q q' hq hq'
      refine readReg_putReg_ne v fun e => hne ?_
      rw [← (regAt_offset hq ha').1, e, ho]
  · intro s off v he ho
    have hb := busy_of_idle he
    obtain ⟨hl, ha, r, hr, hat⟩ := regAt_readOnly ho
    rw [hostAccess_write_mapped s v hl ha hat, writeReg_readOnly v hb hr]

end Sys2Proof.Machine
end

section
/-! The statements of 20_memory.md: the canonical form, the host's bytes, the accesses outside the spec's model, and the
row table of a glyph. -/

namespace Sys2Proof.Machine

open Sys2Proof

/-! ## The canonical form across a step (R60, R61) -/

theorem HostStep.keepsForm {s t : State} (h : HostStep s t) (hw : s.px.wf = true) : t.px.wf = true := by
  cases h with
  | write r v => rcases writeReg_cases s r v with e | e | ⟨-, e⟩ | e <;> rw [e] <;> exact hw
  | memWrite log a v => exact cellsWf_setCell _ a v hw
  | _ => exact hw

theorem resetBlock_keepsForm {s t : State} (h : resetBlock s = .next t) (hw : s.px.wf = true) : t.px.wf = true := by
  obtain ⟨m, hm, rfl⟩ := resetBlock_next h
  obtain ⟨as, log, rfl, -⟩ := resetPx_ok hm
  exact (havoc_spec as s.px hw).1

/-- Settles O8: bytes change only by `setCell`, in a step of the block, a host write and a reset alike. -/
theorem stepKeepsMemoryCanonical : Obligations.StepKeepsMemoryCanonical := fun _ _ hs h =>
  step_keeps (P := fun s => s.px.wf = true) (fun _ _ hs => hs) (fun _ _ hs h => h.keepsForm hs)
    (fun _ _ hs h => h.keepsForm hs) (fun _ _ hs h => resetBlock_keepsForm h hs) hs h

/-! ## Which accesses rule each other out (U3, U5, R75) -/

/-- A host access and another access are kept apart by the name of R75 alone. -/
theorem clash_of_host {k : AccessKind} (k' : AccessKind) (h : k = .hostRead ∨ k = .hostWrite) :
    clash k k' = none ∨ clash k k' = some .hostInterference := by
  rcases h with rfl | rfl <;> cases k' <;> simp [clash]

theorem clash_hostWrite_iff (k : AccessKind) : clash k .hostWrite = none ↔ k = .hostRead ∨ k = .hostWrite := by
  cases k <;> simp [clash]

theorem clash_hostWrite_name (k : AccessKind) :
    clash k .hostWrite = none ∨ clash k .hostWrite = some .hostInterference := by
  cases k <;> simp [clash]

theorem clash_hostRead_iff (k : AccessKind) : clash k .hostRead = none ↔ ∀ row, k ≠ .dstWrite row := by
  cases k <;> simp [clash]

theorem clash_hostRead_name (k : AccessKind) :
    clash k .hostRead = none ∨ clash k .hostRead = some .hostInterference := by
  cases k <;> simp [clash]

/-- Only the host's write gives a source read another name than `bufferOverlap`. -/
theorem clash_srcRead_name {k : AccessKind} (h : k ≠ .hostWrite) :
    clash k .srcRead = none ∨ clash k .srcRead = some .bufferOverlap := by
  cases k <;> simp_all [clash]

theorem clash_rows_write {row row' : Int} (h : row ≠ row') {k : AccessKind} (hk : k = .dstRead row ∨ k = .dstWrite row) :
    clash k (.dstWrite row') = some .rowsShareBytes := by
  rcases hk with rfl | rfl <;> simp [clash, h]

/-- A read in another row meets a write of a row, and no read. -/
theorem clash_rows_read {row row' : Int} (h : row ≠ row') :
    clash (.dstRead row) (.dstRead row') = none ∧ clash (.dstWrite row) (.dstRead row') = some .rowsShareBytes := by
  simp [clash, h]

/-- An access is refused after one that rules it out. -/
theorem refuses_of_clash {p : Params} {m : Pixmem} {k k' : AccessKind} {a : Nat} (hb : isBacked p a = true)
    (hk : ⟨a, k'⟩ ∈ m.log) (hc : clash k' k ≠ none) : ∃ r, m.Refuses p k a r :=
  (clashAt_some hk hc).imp fun _ hr => touch_refused hb hr

/-- The refusal has the one name that the byte's logged accesses give. -/
theorem refuses_of_only {p : Params} {m : Pixmem} {k k' : AccessKind} {a : Nat} {r : Refusal} (hb : isBacked p a = true)
    (hk : ⟨a, k'⟩ ∈ m.log) (hc : clash k' k ≠ none)
    (hall : ∀ k', ⟨a, k'⟩ ∈ m.log → clash k' k = none ∨ clash k' k = some r) : m.Refuses p k a r :=
  touch_refused hb (clashAt_eq hk hc hall)

/-! ## The host's accesses to pixel memory (R47, R74, R75) -/

theorem hostTouch_idle {s : State} {a : Nat} (k : AccessKind) (he : s.eng = none) (hb : isBacked s.cfg a = true) :
    hostTouch s k a = .ok s.px := by
  simp [hostTouch, busy_of_idle he, hb]

theorem hostTouch_running {s : State} (k : AccessKind) (a : Nat) (he : s.eng ≠ none) :
    hostTouch s k a = s.px.touch s.cfg k a := by
  obtain ⟨e, he⟩ := Option.ne_none_iff_exists'.1 he
  simp [hostTouch, busy_of_eng he]

theorem touch_unbacked {p : Params} {a : Nat} (m : Pixmem) (k : AccessKind) (hb : isBacked p a = false) :
    m.touch p k a = .error (.fault (.unbackedAddress a)) := by
  simp [Pixmem.touch, hb]

theorem hostTouch_unbacked {s : State} {a : Nat} (k : AccessKind) (hb : isBacked s.cfg a = false) :
    hostTouch s k a = .error (.fault (.unbackedAddress a)) := by
  cases hbusy : s.busy with
  | true => simp [hostTouch, hbusy, touch_unbacked _ _ hb]
  | false => simp [hostTouch, hbusy, hb]

theorem memWrite_stops {s : State} {a : Nat} {e : Stop} (v : Byte) (h : hostTouch s .hostWrite a = .error e) :
    hostAccess s (.memWrite a v) = e.outcome := by
  simp only [hostAccess, hostMemWrite, h]

theorem memRead_stops {s : State} {a : Nat} {e : Stop} (h : hostTouch s .hostRead a = .error e) :
    hostAccess s (.memRead a) = e.outcome := by
  simp only [hostAccess, hostMemRead, h]

/-- A host write that goes through sets its byte and changes nothing else but the access log. -/
theorem memWrite_goes {s : State} {a : Nat} {log : List Access} (v : Byte) (hw : s.px.wf = true)
    (h : hostTouch s .hostWrite a = .ok { s.px with log := log }) :
    ∃ t, hostAccess s (.memWrite a v) = .next t ∧ t.px.byte a = v ∧ (∀ x, x ≠ a → t.px.byte x = s.px.byte x) ∧
      t = { s with px := t.px } ∧ t.px.log = log := by
  have hbyte : ∀ x, cellAt (setCell s.px.cells a v) x = if x = a then v else s.px.byte x :=
    fun x => cellAt_setCell s.px.cells a v x hw
  refine ⟨s.setPx { s.px with log := log, cells := setCell s.px.cells a v }, ?_, ?_, fun x hx => ?_, rfl, rfl⟩
  · simp only [hostAccess, hostMemWrite, h]
  · exact (hbyte a).trans (if_pos rfl)
  · exact (hbyte x).trans (if_neg hx)

/-- A host read that goes through returns its byte and changes nothing else but the access log. -/
theorem memRead_goes {s : State} {a : Nat} {log : List Access}
    (h : hostTouch s .hostRead a = .ok { s.px with log := log }) :
    hostAccess s (.memRead a) =
      .next { s with px := { s.px with log := log }, hostData := (s.px.byte a).zeroExtend 32 } := by
  simp only [hostAccess, hostMemRead, h]
  rfl

/-- While the block is idle, a host access to a backed byte goes through (R47, R61, R74). -/
theorem host_bytes_idle {s : State} {a : Nat} (v : Byte) (he : s.eng = none) (hw : s.px.wf = true)
    (hb : isBacked s.cfg a = true) :
    (∃ t, hostAccess s (.memWrite a v) = .next t ∧ t.px.byte a = v ∧ (∀ x, x ≠ a → t.px.byte x = s.px.byte x) ∧
      t = { s with px := t.px }) ∧
    hostAccess s (.memRead a) = .next { s with hostData := (s.px.byte a).zeroExtend 32 } := by
  obtain ⟨t, ht, hset, hkeep, hrest, -⟩ := memWrite_goes v hw (hostTouch_idle .hostWrite he hb)
  exact ⟨⟨t, ht, hset, hkeep, hrest⟩, memRead_goes (hostTouch_idle .hostRead he hb)⟩

/-- While a command runs, a host write is refused exactly where the command has accessed the byte (R75). -/
theorem memWrite_running {s : State} {a : Nat} (v : Byte) (he : s.eng ≠ none) (hb : isBacked s.cfg a = true) :
    (¬ s.px.OnlyHostAt a → hostAccess s (.memWrite a v) = .refused .hostInterference) ∧
    (s.px.OnlyHostAt a → s.px.wf = true →
      ∃ t, hostAccess s (.memWrite a v) = .next t ∧ t.px.byte a = v ∧ (∀ x, x ≠ a → t.px.byte x = s.px.byte x) ∧
        t = { s with px := t.px } ∧ t.px.log = ⟨a, .hostWrite⟩ :: s.px.log) := by
  refine ⟨fun hother => ?_, fun honly hw => ?_⟩
  · obtain ⟨k, hk⟩ := not_forall.1 hother
    obtain ⟨hk, hne⟩ := Classical.not_imp.1 hk
    have hr : s.px.Refuses s.cfg .hostWrite a .hostInterference :=
      refuses_of_only hb hk (fun hn => hne ((clash_hostWrite_iff k).1 hn)) (fun k' _ => clash_hostWrite_name k')
    exact memWrite_stops v ((hostTouch_running .hostWrite a he).trans hr)
  · have hc : s.px.clashAt .hostWrite a = none :=
      clashAt_none_iff.2 fun k hk => (clash_hostWrite_iff k).2 (honly k hk)
    exact memWrite_goes v hw ((hostTouch_running .hostWrite a he).trans (touch_eq hb hc))

/-- While a command runs, a host read is refused exactly where the command has written the byte (R75). -/
theorem memRead_running {s : State} {a : Nat} (he : s.eng ≠ none) (hb : isBacked s.cfg a = true) :
    ((∃ row, ⟨a, .dstWrite row⟩ ∈ s.px.log) → hostAccess s (.memRead a) = .refused .hostInterference) ∧
    ((∀ row, ⟨a, .dstWrite row⟩ ∉ s.px.log) → hostAccess s (.memRead a) = .next { s with
      px := { s.px with log := ⟨a, .hostRead⟩ :: s.px.log }
      hostData := (s.px.byte a).zeroExtend 32 }) := by
  refine ⟨fun ⟨row, hk⟩ => ?_, fun hno => ?_⟩
  · have hr : s.px.Refuses s.cfg .hostRead a .hostInterference :=
      refuses_of_only hb hk (by simp [clash]) (fun k' _ => clash_hostRead_name k')
    exact memRead_stops ((hostTouch_running .hostRead a he).trans hr)
  · have hc : s.px.clashAt .hostRead a = none :=
      clashAt_none_iff.2 fun k hk => (clash_hostRead_iff k).2 fun row e => hno row (e ▸ hk)
    exact memRead_goes ((hostTouch_running .hostRead a he).trans (touch_eq hb hc))

/-- An access of the command is refused after a host access that rules it out, by the name of R75 where the host alone has
accessed the byte. -/
theorem refuses_after_host {p : Params} {m : Pixmem} {a : Nat} {h k : AccessKind} (hb : isBacked p a = true)
    (hk : ⟨a, h⟩ ∈ m.log) (hc : clash h k ≠ none) :
    (∃ r, m.Refuses p k a r) ∧ (m.OnlyHostAt a → m.Refuses p k a .hostInterference) :=
  ⟨refuses_of_clash hb hk hc, fun honly => refuses_of_only hb hk hc fun k' hk' => clash_of_host k (honly k' hk')⟩

/-- A host write rules out every access of the command to its byte. -/
theorem clash_hostWrite_command {row : Int} {k : AccessKind} (hk : k ∈ [AccessKind.srcRead, .dstRead row, .dstWrite row]) :
    clash .hostWrite k ≠ none := by
  simp only [List.mem_cons, List.not_mem_nil, or_false] at hk
  rcases hk with rfl | rfl | rfl <;> simp [clash]

/-- A host read rules out the command's write of its byte. -/
theorem clash_hostRead_dstWrite (row : Int) : clash .hostRead (.dstWrite row) ≠ none := by simp [clash]

/-- Settles O23: `clash` between the host's accesses and the command's, in either order. -/
theorem hostMemoryBytes : Obligations.HostMemoryBytes := by
  refine ⟨fun s a v he hw hb => host_bytes_idle v he hw hb, fun s a v he hb => ?_, fun p m a row hb => ?_⟩
  · obtain ⟨hwStop, hwGo⟩ := memWrite_running v he hb
    obtain ⟨hrStop, hrGo⟩ := memRead_running he hb
    exact ⟨hwStop, hwGo, hrStop, hrGo⟩
  · have hwrite (hk : ⟨a, .hostWrite⟩ ∈ m.log) k (hm : k ∈ [AccessKind.srcRead, .dstRead row, .dstWrite row]) :=
      refuses_after_host hb hk (clash_hostWrite_command hm)
    have hread (hk : ⟨a, .hostRead⟩ ∈ m.log) := refuses_after_host hb hk (clash_hostRead_dstWrite row)
    exact ⟨fun hk k hm => (hwrite hk k hm).1, fun hk => (hread hk).1,
      fun honly => ⟨fun hk k hm => (hwrite hk k hm).2 honly, fun hk => (hread hk).2 honly⟩⟩

/-! ## Accesses outside the spec's model (U3, U5, U6, U8) -/

theorem regAccess_misaligned (s : State) {off : Nat} (f : Option Reg → State) (hl : off < 0x1000) (ha : off % 4 ≠ 0) :
    regAccess s (s.cfg.regBase + off) f = .refused .misalignedRegisterAccess := by
  have hw : inWindow s.cfg (s.cfg.regBase + off) = true := by simp [inWindow, hl]
  simp only [regAccess, hw, if_true, Nat.add_sub_cancel_left, if_neg ha]

theorem hostAccess_write_misaligned (s : State) {off : Nat} (v : Word) (hl : off < 0x1000) (ha : off % 4 ≠ 0) :
    hostAccess s (.write (s.cfg.regBase + off) v) = .refused .misalignedRegisterAccess := by
  simp only [hostAccess, hostWrite, regAccess_misaligned s _ hl ha]

theorem hostAccess_read_misaligned (s : State) {off : Nat} (hl : off < 0x1000) (ha : off % 4 ≠ 0) :
    hostAccess s (.read (s.cfg.regBase + off)) = .refused .misalignedRegisterAccess := by
  simp only [hostAccess, hostRead, regAccess_misaligned s _ hl ha]

/-- A source read of a byte the command has written, and the reverse (U3). -/
theorem refuses_overlap {p : Params} {m : Pixmem} {a : Nat} (row : Int) (hb : isBacked p a = true) :
    (⟨a, .dstWrite row⟩ ∈ m.log →
      (∃ r, m.Refuses p .srcRead a r) ∧ (⟨a, .hostWrite⟩ ∉ m.log → m.Refuses p .srcRead a .bufferOverlap)) ∧
    (⟨a, .srcRead⟩ ∈ m.log →
      (∃ r, m.Refuses p (.dstWrite row) a r) ∧
      ((∀ k, ⟨a, k⟩ ∈ m.log → k = .srcRead) → m.Refuses p (.dstWrite row) a .bufferOverlap)) := by
  refine ⟨fun hk => ?_, fun hk => ?_⟩
  · have hc : clash (.dstWrite row) .srcRead ≠ none := by simp [clash]
    exact ⟨refuses_of_clash hb hk hc, fun hno => refuses_of_only hb hk hc fun k' hk' =>
      clash_srcRead_name fun e => hno (e ▸ hk')⟩
  · have hc : clash .srcRead (.dstWrite row) ≠ none := by simp [clash]
    refine ⟨refuses_of_clash hb hk hc, fun honly => refuses_of_only hb hk hc fun k' hk' => Or.inr ?_⟩
    rw [honly k' hk']
    rfl

/-- An access to a destination byte that another row accessed, one of the two a write (U5). -/
theorem refuses_other_row {p : Params} {m : Pixmem} {a : Nat} {row row' : Int} (hb : isBacked p a = true)
    (hne : row ≠ row') :
    (⟨a, .dstRead row⟩ ∈ m.log ∨ ⟨a, .dstWrite row⟩ ∈ m.log → ∃ r, m.Refuses p (.dstWrite row') a r) ∧
    (⟨a, .dstWrite row⟩ ∈ m.log → ∃ r, m.Refuses p (.dstRead row') a r) ∧
    ((∀ k, ⟨a, k⟩ ∈ m.log → k = .dstRead row ∨ k = .dstWrite row) →
      (⟨a, .dstRead row⟩ ∈ m.log ∨ ⟨a, .dstWrite row⟩ ∈ m.log → m.Refuses p (.dstWrite row') a .rowsShareBytes) ∧
      (⟨a, .dstWrite row⟩ ∈ m.log → m.Refuses p (.dstRead row') a .rowsShareBytes)) := by
  obtain ⟨hrr, hwr⟩ := clash_rows_read hne
  have hw {k : AccessKind} (hk : k = .dstRead row ∨ k = .dstWrite row) : clash k (.dstWrite row') ≠ none := by
    simp [clash_rows_write hne hk]
  have hr : clash (.dstWrite row) (.dstRead row') ≠ none := by simp [hwr]
  refine ⟨fun h => ?_, fun h => refuses_of_clash hb h hr, fun honly => ⟨fun h => ?_, fun h => ?_⟩⟩
  · exact h.elim (refuses_of_clash hb · (hw (.inl rfl))) (refuses_of_clash hb · (hw (.inr rfl)))
  · have hall k' (hk' : ⟨a, k'⟩ ∈ m.log) :
        clash k' (.dstWrite row') = none ∨ clash k' (.dstWrite row') = some .rowsShareBytes :=
      .inr (clash_rows_write hne (honly k' hk'))
    exact h.elim (refuses_of_only hb · (hw (.inl rfl)) hall) (refuses_of_only hb · (hw (.inr rfl)) hall)
  · refine refuses_of_only hb h hr fun k' hk' => ?_
    rcases honly k' hk' with rfl | rfl
    · exact .inl hrr
    · exact .inr hwr

/-! ## Buffers outside the spec's model (R35, U5) -/

/-- A descriptor stops a paint by the name of the invariant that fails. -/
theorem Desc.stop_cases (p : Params) (d : Desc) :
    d.stop p = none ∧ ¬ d.Short ∧ ¬ d.RowsShareByte p ∨ d.stop p = some .strideTooSmall ∧ d.Short ∨
      d.stop p = some .rowsShareBytes ∧ d.RowsShareByte p := by
  unfold Desc.stop
  by_cases hs : d.Short
  · exact .inr (.inl ⟨if_pos hs, hs⟩)
  · rw [if_neg hs]
    by_cases hr : d.rowsShare p = true
    · exact .inr (.inr ⟨if_pos hr, (rowsShare_iff p d hs).1 hr⟩)
    · exact .inl ⟨if_neg hr, hs, fun h => hr ((rowsShare_iff p d hs).2 h)⟩

/-- A descriptor passes exactly when its stride holds a row and no two of its rows share a byte. -/
theorem Desc.stop_none_iff (p : Params) (d : Desc) : d.stop p = none ↔ ¬ d.Short ∧ ¬ d.RowsShareByte p := by
  rcases d.stop_cases p with ⟨h, hok⟩ | ⟨h, hs⟩ | ⟨h, hr⟩
  · simp [h, hok]
  · simp [h, hs]
  · simp [h, hr]

/-- Rows to paint are refused by the name that a descriptor gives. -/
theorem paintRows_refused {s : State} {rect : Rect} {ds : List Desc} {sel : Fam → BitVec 10} (h : rect.isEmpty = false)
    (hf : famSel s.cfg s.regs.dst.colors ≠ none) (hd : ∃ d ∈ ds, d.stop s.cfg ≠ none) :
    ∃ d ∈ ds, ∃ r, d.stop s.cfg = some r ∧ paintRows s rect ds sel = .refused r := by
  obtain ⟨f, hf⟩ := Option.ne_none_iff_exists'.1 hf
  cases hfind : ds.findSome? (fun d => d.stop s.cfg) with
  | none =>
    obtain ⟨d, hm, hne⟩ := hd
    exact absurd (List.findSome?_eq_none_iff.1 hfind d hm) hne
  | some r =>
    obtain ⟨d, hm, hr⟩ := List.exists_of_findSome?_eq_some hfind
    exact ⟨d, hm, r, hr, by simp [paintRows, h, hf, hfind]⟩

theorem paintRows_stopsOnBuffers (s : State) (rect : Rect) (ds : List Desc) (sel : Fam → BitVec 10) :
    StopsOnBuffers s rect ds (paintRows s rect ds sel) := by
  intro hrect hf
  have key (hd : ∃ d ∈ ds, d.Short ∨ d.RowsShareByte s.cfg) :
      paintRows s rect ds sel = .refused .strideTooSmall ∧ (∃ d ∈ ds, d.Short) ∨
        paintRows s rect ds sel = .refused .rowsShareBytes ∧ ∃ d ∈ ds, d.RowsShareByte s.cfg := by
    have hstop : ∃ d ∈ ds, d.stop s.cfg ≠ none := by
      obtain ⟨d, hm, hbad⟩ := hd
      refine ⟨d, hm, fun hn => ?_⟩
      obtain ⟨hs, hr⟩ := (d.stop_none_iff s.cfg).1 hn
      exact hbad.elim hs hr
    obtain ⟨d, hm, r, hr, ho⟩ := paintRows_refused (sel := sel) hrect hf hstop
    rcases d.stop_cases s.cfg with ⟨e, -⟩ | ⟨e, hs⟩ | ⟨e, hs⟩ <;> rw [hr] at e <;> cases e
    · exact .inl ⟨ho, d, hm, hs⟩
    · exact .inr ⟨ho, d, hm, hs⟩
  refine ⟨fun hd => (key hd).imp And.left And.left, fun ⟨d, hm, hs⟩ hno => ?_, fun ⟨d, hm, hr⟩ hno => ?_⟩
  · rcases key ⟨d, hm, .inl hs⟩ with ⟨ho, -⟩ | ⟨-, d', hm', hr'⟩
    · exact ho
    · exact absurd hr' (hno d' hm')
  · rcases key ⟨d, hm, .inr hr⟩ with ⟨-, d', hm', hs'⟩ | ⟨ho, -⟩
    · exact absurd hs' (hno d' hm')
    · exact ho

theorem exec_paintOver {s : State} (h : overFault s = none) :
    exec .paintOver s = paintRows s (overRect s) [s.regs.dst, s.regs.src] (overSel s) := by
  simp only [exec, execPaintOver, h]

theorem exec_paintOverClipped {s : State} (h : overFault s = none) : exec .paintOverClipped s =
    paintRows s ((overRect s).inter s.regs.clip.rect) [s.regs.dst, s.regs.src] (overSel s) := by
  simp only [exec, execPaintOverClipped, h]

theorem exec_paintOverMask {s : State} (h : overMaskFault s = none) : exec .paintOverMask s =
    paintRows s ((overRect s).inter s.regs.msk.bounds) [s.regs.dst, s.regs.src, s.regs.msk] (overMaskSel s) := by
  simp only [exec, execPaintOverMask, h]

/-- Settles O24: each stop is one test of `touch`, of `regAccess` or of `Desc.stop`. -/
theorem outsideTheModelStops : Obligations.OutsideTheModelStops := by
  refine ⟨fun p m k a hb => touch_unbacked m k hb, fun s a v hb => ?_, fun s off v hl ha => ?_,
    fun p m a row row' hb => ?_, fun p d => d.stop_none_iff p, fun s hf => ?_, fun s hf => ?_⟩
  · exact ⟨memWrite_stops v (hostTouch_unbacked .hostWrite hb), memRead_stops (hostTouch_unbacked .hostRead hb)⟩
  · exact ⟨hostAccess_write_misaligned s v hl ha, hostAccess_read_misaligned s hl ha⟩
  · obtain ⟨hsrc, hdst⟩ := refuses_overlap (m := m) row hb
    exact ⟨hsrc, hdst, refuses_other_row hb⟩
  · rw [exec_paintOver hf, exec_paintOverClipped hf]
    exact ⟨paintRows_stopsOnBuffers _ _ _ _, paintRows_stopsOnBuffers _ _ _ _⟩
  · rw [exec_paintOverMask hf]
    exact paintRows_stopsOnBuffers _ _ _ _

/-! ## The row table of a glyph (R65, R210 to R212) -/

/-- A read of an open source region goes through and leaves the region open: source reads do not rule each other out. -/
theorem Open.readSrc_eq {p : Params} {m : Pixmem} {base len t : Nat} (h : Open p m .srcRead base len) (ht : t < len) :
    ∃ log, readSrc p (addrPlus p base t) m = .ok (m.byte (addrPlus p base t), { m with log := log }) ∧
      Open p { m with log := log } .srcRead base len := by
  obtain ⟨hb, hc⟩ := h t ht
  refine ⟨_, read_eq hb hc, fun u hu => ?_⟩
  obtain ⟨hbu, hcu⟩ := h u hu
  exact ⟨hbu, by simp [clashAt_cons, hcu, clash]⟩

/-- A readable entry is its four bytes in increasing address order (R65). -/
theorem readEntry_eq {p : Params} {m : Pixmem} {a : Nat} (ha : addrPlus p a 0 = a) (h : Open p m .srcRead a 4) :
    ∃ log, readEntry p a m = .ok ((m.byte (addrPlus p a 0), m.byte (addrPlus p a 1), m.byte (addrPlus p a 2),
      m.byte (addrPlus p a 3)), { m with log := log }) := by
  obtain ⟨l0, e0, h0⟩ := h.readSrc_eq (t := 0) (by decide)
  obtain ⟨l1, e1, h1⟩ := h0.readSrc_eq (t := 1) (by decide)
  obtain ⟨l2, e2, h2⟩ := h1.readSrc_eq (t := 2) (by decide)
  obtain ⟨l3, e3, -⟩ := h2.readSrc_eq (t := 3) (by decide)
  rw [ha] at e0
  refine ⟨l3, ?_⟩
  simp only [readEntry, ha, e0, e1, e2, e3]
  rfl

/-- The decoder at a row start, with the registers' bits written out (R211, R212). -/
theorem startRow_eq (s : State) (g : Rle) (off : Int) : startRow s g off =
    if off < 0 then { g with rowp := glyphRow s g.r, phase := .rowEnd }
    else { g with
      rowp := glyphRow s g.r
      p := ((s.regs.glyph.data.toNat + off) % (2 ^ s.cfg.addrW : Nat)).toNat
      dp := glyphRow s g.r
      extend := 0
      sx := s.regs.glyph.skipx.toNat % 2 ^ 31
      ww := s.regs.glyph.w.toNat % 2 ^ 31
      pend := none
      phase := if 0 < s.regs.glyph.skipx.toNat % 2 ^ 31 then .skip else .emit } := by
  simp only [startRow, addrOf, dim_eq_mod]

/-- A row start whose entry is readable sets the decoder up by the entry, and changes no byte of pixel memory. -/
theorem glyphMicro_rowStart {s : State} {g : Rle} {a : Nat} (hp : g.phase = .rowStart)
    (ha : a = entryAddr s (dim s.regs.glyph.skipy + g.r)) (h : Open s.cfg s.px .srcRead a 4) :
    ∃ log, glyphMicro s g = .next ((s.setPx { s.px with log := log }).proceed (.glyph
      (startRow s g (entryValue s.cfg (s.px.byte (addrPlus s.cfg a 0), s.px.byte (addrPlus s.cfg a 1),
        s.px.byte (addrPlus s.cfg a 2), s.px.byte (addrPlus s.cfg a 3)))))) := by
  have ha0 : addrPlus s.cfg a 0 = a := by rw [ha]; exact addrPlus_zero
  obtain ⟨log, hr⟩ := readEntry_eq ha0 h
  refine ⟨log, ?_⟩
  unfold glyphMicro
  rw [hp]
  simp only [← ha, hr]

/-- Settles O55: the step is `glyphMicro` at a row start, and `entryValue` is by definition the entry of R65. -/
theorem glyphRowStarts : Obligations.GlyphRowStarts := by
  intro s w g hi he hp
  dsimp only
  intro hopen
  have hw : g.wantsHeader = false := by simp [Rle.wantsHeader, hp]
  rw [step_quiet hi, engineStep_micro he hw, ← dim_eq_mod s.regs.glyph.skipy]
  rw [← dim_eq_mod s.regs.glyph.skipy] at hopen
  obtain ⟨log, hg⟩ := glyphMicro_rowStart hp rfl hopen
  rw [startRow_eq] at hg
  exact ⟨log, hg⟩

end Sys2Proof.Machine
end

section
/-! The statements of 30_encoding.md: the decoder and the encoder, the illegal commands, `RUN_KERNEL`, and the Extend header. -/

namespace Sys2Proof.Machine

open Sys2Proof

/-! ## Fields of a code word -/

/-- The bits [s + m - 1 : s] of a word as a number. -/
theorem field_toNat {w : Nat} (x : BitVec w) (s m : Nat) : (x.extractLsb' s m).toNat = x.toNat / 2 ^ s % 2 ^ m := by
  rw [BitVec.extractLsb'_toNat, Nat.shiftRight_eq_div_pow]

/-! ## Commands (R81 to R83) -/

/-- The opcodes of R83. -/
def opcodes : List Nat := [0x00, 0x01, 0x02, 0x03, 0x04, 0x10, 0x11, 0x12, 0x13, 0x20, 0x30, 0x31, 0x32, 0x40]

/-- A row of the opcode map read backwards: its number is listed, its instruction is well-formed, and the encoder writes
that number. -/
theorem decodeOpcode_row {n : Nat} {i : Instr} (h : decodeOpcode n = some i) :
    n ∈ opcodes ∧ i.wf = true ∧ encode i = .cmd (BitVec.ofNat 32 n) := by
  unfold decodeOpcode at h
  split at h <;> cases h <;> exact ⟨by decide, rfl, rfl⟩

theorem opcodes_lt {n : Nat} (h : n ∈ opcodes) : n < 256 := by
  have hall : ∀ n ∈ opcodes, n < 256 := by decide
  exact hall n h

/-- A command word decodes exactly as its whole value stands in the opcode map: with a bit above bit 7 set it is none. -/
theorem decodeCmd_ok_iff (w : Word) (i : Instr) : decodeCmd w = .ok i ↔ decodeOpcode w.toNat = some i := by
  have hlow : (w.extractLsb' 0 8).toNat = w.toNat % 256 := by simp
  have hhigh : w.extractLsb' 8 24 = 0 ↔ w.toNat < 256 := by
    have := w.isLt
    rw [← BitVec.toNat_inj, field_toNat, show (0 : BitVec 24).toNat = 0 from rfl]
    omega
  unfold decodeCmd
  rw [hlow]
  by_cases h : w.toNat < 256
  · rw [if_neg (not_not.2 (hhigh.2 h)), Nat.mod_eq_of_lt h]
    cases decodeOpcode w.toNat <;> simp
  · rw [if_pos (mt hhigh.1 h)]
    exact ⟨nofun, fun hs => absurd (opcodes_lt (decodeOpcode_row hs).1) h⟩

/-- The two ways a command word is illegal (R82). -/
theorem decodeCmd_error {w : Word} {e : DecodeError} (h : decodeCmd w = .error e) :
    e = .reservedBits ∨ e = .unknownOpcode := by
  unfold decodeCmd at h
  split at h
  · cases h
    exact .inl rfl
  · split at h
    · cases h
    · cases h
      exact .inr rfl

/-! ## Selectors (R84, R88) -/

/-- A row of R88 read backwards: its instruction is well-formed, and the encoder writes that row. -/
theorem decodeVariant_row {fam : Fam} {n : Nat} {i : Instr} (h : decodeVariant fam n = some i) :
    i.wf = true ∧ encode i = encodeVariant n fam := by
  unfold decodeVariant at h
  split at h <;> cases h <;> exact ⟨rfl, rfl⟩

theorem famCode_lt (f : Fam) : f.code < 4 := by cases f <;> decide

theorem famOfCode_code (f : Fam) : Fam.ofCode f.code = f := by cases f <;> rfl

theorem famCode_ofCode {n : Nat} (h : n < 4) : (Fam.ofCode n).code = n := by
  have hall : ∀ n < 4, (Fam.ofCode n).code = n := by decide
  exact hall n h

theorem kselKind_eq_mod (k : BitVec 10) : kselKind k = k.toNat % 8 := by simp [kselKind]

theorem kselFamCode_eq (k : BitVec 10) : (k.extractLsb' 8 2).toNat = k.toNat / 256 := by
  have := k.isLt
  rw [field_toNat]
  omega

theorem kselFam_eq (k : BitVec 10) : kselFam k = Fam.ofCode (k.toNat / 256) := by rw [kselFam, kselFamCode_eq]

/-- A selector is a kernel exactly as its bits [7:0] are a row of R88. -/
theorem decodeKsel_ok_iff (k : BitVec 10) (i : Instr) :
    decodeKsel k = .ok i ↔ decodeVariant (kselFam k) (k.toNat % 256) = some i := by
  have hrow : (k.extractLsb' 0 8).toNat = k.toNat % 256 := by simp
  unfold decodeKsel
  rw [hrow, ← kselFam]
  cases decodeVariant (kselFam k) (k.toNat % 256) with
  | some j => simp
  | none =>
    dsimp only
    split <;> simp

/-- A row of R88 in any family decodes to what the row says. -/
theorem decode_encodeVariant {fam : Fam} {n : Nat} {i : Instr} (h : decodeVariant fam n = some i) :
    decode (encodeVariant n fam) = .ok i := by
  have hn := decodeVariant_lt h
  have hf := famCode_lt fam
  have hk : (BitVec.ofNat 10 (n + 0x100 * fam.code)).toNat = n + 0x100 * fam.code := by
    rw [BitVec.toNat_ofNat]
    omega
  refine (decodeKsel_ok_iff _ _).2 ?_
  rw [kselFam_eq, hk, show (n + 0x100 * fam.code) / 256 = fam.code by omega, famOfCode_code,
    show (n + 0x100 * fam.code) % 256 = n by omega, h]

/-- Bits [7:0] and the family are the whole selector. -/
theorem encodeVariant_fields (k : BitVec 10) : encodeVariant (k.toNat % 256) (kselFam k) = .ksel k := by
  have hk := k.isLt
  rw [encodeVariant, kselFam_eq, famCode_ofCode (by omega), Nat.mod_add_div, BitVec.ofNat_toNat, BitVec.setWidth_eq]

/-! ## Run headers (R89, R94) -/

theorem headerTag_eq (b : Byte) : (b.extractLsb' 0 2).toNat = b.toNat % 4 := by simp

theorem headerShort_eq (b : Byte) : (b.extractLsb' 2 6).toNat = b.toNat / 4 := by
  have := b.isLt
  rw [field_toNat]
  omega

theorem headerLong_eq (b : Byte) : (b.extractLsb' 3 5).toNat = b.toNat / 8 := by
  have := b.isLt
  rw [field_toNat]
  omega

theorem headerEol_eq (b : Byte) : b.getLsbD 2 = decide (b.toNat / 4 % 2 = 1) :=
  Nat.testBit_eq_decide_div_mod_eq

theorem decodeRun_extend {b : Byte} (h : b.toNat % 4 = 0) : decodeRun b = .runExtend (b.toNat / 4) := by
  simp only [decodeRun, headerTag_eq, h, headerShort_eq]

theorem decodeRun_transparent {b : Byte} (h : b.toNat % 4 = 1) : decodeRun b = .runTransparent (b.toNat / 4) := by
  simp only [decodeRun, headerTag_eq, h, headerShort_eq]

theorem decodeRun_solid {b : Byte} (h : b.toNat % 4 = 2) :
    decodeRun b = .runSolid (b.toNat / 8) (decide (b.toNat / 4 % 2 = 1)) := by
  simp only [decodeRun, headerTag_eq, h, headerLong_eq, headerEol_eq]

theorem decodeRun_intermediate {b : Byte} (h : b.toNat % 4 = 3) :
    decodeRun b = .runIntermediate (b.toNat / 8) (decide (b.toNat / 4 % 2 = 1)) := by
  simp only [decodeRun, headerTag_eq, h, headerLong_eq, headerEol_eq]

/-- Settles O3: the tag is `b[1:0]`, and each tag has its own arm of `decodeRun`. -/
theorem everyByteIsAHeader : Obligations.EveryByteIsAHeader := fun _ =>
  ⟨fun h => congrArg Except.ok (decodeRun_extend h), fun h => congrArg Except.ok (decodeRun_transparent h),
    fun h => congrArg Except.ok (decodeRun_solid h), fun h => congrArg Except.ok (decodeRun_intermediate h)⟩

/-- An encoded header byte whose fields fit holds the tag in its bits [1:0] and the fields above them. -/
theorem encodeHeader_byte {fields tag : Nat} (hf : fields < 64) (ht : tag < 4) :
    ∃ b : Byte, encodeHeader fields tag = .run b ∧ b.toNat % 4 = tag ∧ b.toNat / 4 = fields ∧ b.toNat / 8 = fields / 2 := by
  have hb : (BitVec.ofNat 8 (4 * fields + tag)).toNat = 4 * fields + tag := by
    rw [BitVec.toNat_ofNat]
    omega
  exact ⟨_, rfl, by omega, by omega, by omega⟩

/-- The tag and the fields above it are the whole byte. -/
theorem encodeHeader_fields {b : Byte} {fields tag : Nat} (h : 4 * fields + tag = b.toNat) :
    encodeHeader fields tag = .run b := by
  rw [encodeHeader, h, BitVec.ofNat_toNat, BitVec.setWidth_eq]

/-- The end-of-line flag is the lowest of the fields of a long header, and the length field stands above it. -/
theorem longFields_split (f : Nat) (eol : Bool) :
    (2 * f + eol.toNat) / 2 = f ∧ decide ((2 * f + eol.toNat) % 2 = 1) = eol := by
  cases eol
  · exact ⟨by simp, by simp⟩
  · exact ⟨by simp; omega, by simp⟩

/-- The fields of a long header, taken apart and joined again. -/
theorem longFields_join (n : Nat) : 2 * (n / 8) + (decide (n / 4 % 2 = 1)).toNat = n / 4 := by
  by_cases h : n / 4 % 2 = 1
  · rw [decide_eq_true h, Bool.toNat_true]
    omega
  · rw [decide_eq_false h, Bool.toNat_false]
    omega

theorem decode_runExtend {m : Nat} (h : m < 64) : decode (encode (.runExtend m)) = .ok (.runExtend m) := by
  obtain ⟨b, he, htag, hm, -⟩ := encodeHeader_byte h (tag := 0) (by decide)
  rw [encode, he, decode, decodeRun_extend htag, hm]

theorem decode_runTransparent {f : Nat} (h : f < 64) :
    decode (encode (.runTransparent f)) = .ok (.runTransparent f) := by
  obtain ⟨b, he, htag, hf, -⟩ := encodeHeader_byte h (tag := 1) (by decide)
  rw [encode, he, decode, decodeRun_transparent htag, hf]

theorem longFields_lt {f : Nat} (eol : Bool) (h : f < 32) : 2 * f + eol.toNat < 64 := by
  have := eol.toNat_lt
  omega

theorem decode_runSolid {f : Nat} (eol : Bool) (h : f < 32) :
    decode (encode (.runSolid f eol)) = .ok (.runSolid f eol) := by
  obtain ⟨b, he, htag, hfields, hlen⟩ := encodeHeader_byte (longFields_lt eol h) (tag := 2) (by decide)
  obtain ⟨hf, heol⟩ := longFields_split f eol
  rw [encode, he, decode, decodeRun_solid htag, hlen, hfields, hf, heol]

theorem decode_runIntermediate {f : Nat} (eol : Bool) (h : f < 32) :
    decode (encode (.runIntermediate f eol)) = .ok (.runIntermediate f eol) := by
  obtain ⟨b, he, htag, hfields, hlen⟩ := encodeHeader_byte (longFields_lt eol h) (tag := 3) (by decide)
  obtain ⟨hf, heol⟩ := longFields_split f eol
  rw [encode, he, decode, decodeRun_intermediate htag, hlen, hfields, hf, heol]

/-- Every byte is the encoding of the well-formed header it decodes to. -/
theorem encode_decodeRun (b : Byte) : (decodeRun b).wf = true ∧ encode (decodeRun b) = .run b := by
  have hlt := b.isLt
  have hshort : b.toNat / 4 < 64 := by omega
  have hlong : b.toNat / 8 < 32 := by omega
  have hjoin := longFields_join b.toNat
  have htag : b.toNat % 4 = 0 ∨ b.toNat % 4 = 1 ∨ b.toNat % 4 = 2 ∨ b.toNat % 4 = 3 := by omega
  rcases htag with h | h | h | h
  · rw [decodeRun_extend h]
    exact ⟨decide_eq_true hshort, encodeHeader_fields (by omega)⟩
  · rw [decodeRun_transparent h]
    exact ⟨decide_eq_true hshort, encodeHeader_fields (by omega)⟩
  · rw [decodeRun_solid h]
    exact ⟨decide_eq_true hlong, encodeHeader_fields (by omega)⟩
  · rw [decodeRun_intermediate h]
    exact ⟨decide_eq_true hlong, encodeHeader_fields (by omega)⟩

/-! ## Decoder and encoder -/

/-- Settles O1, by the format of the instruction: a command's word is looked up, a kernel is a row of R88 in its family, and
a header's fields come back from its byte. -/
theorem decodeEncode : Obligations.DecodeEncode := by
  intro i h
  cases i with
  | nop | expand | combine | blend | combine2 | getSolidPainter | getSpanPainter | getSpanMaskPainter
  | getSpanColorPainter | runKernel | paintOver | paintOverClipped | paintOverMask | paintGlyph => rfl
  | kSolidAlpha fam | kSolidOverwrite fam | kSolidDa fam
  | kOverGeneral fam | kOverGeneralDa fam | kOverGeneralSa fam | kOverGeneralDaSa fam
  | kOverOpaque fam | kOverOpaqueDa fam | kOverOpaqueSa fam | kOverOpaqueDaSa fam
  | kOverSkip fam | kOverSkipDa fam | kOverSkipSa fam | kOverSkipDaSa fam
  | kMask fam | kMaskDa fam | kMaskSa fam | kMaskDaSa fam | kColor fam | kColorDa fam =>
    exact decode_encodeVariant rfl
  | runExtend m => exact decode_runExtend (of_decide_eq_true h)
  | runTransparent f => exact decode_runTransparent (of_decide_eq_true h)
  | runSolid f eol => exact decode_runSolid eol (of_decide_eq_true h)
  | runIntermediate f eol => exact decode_runIntermediate eol (of_decide_eq_true h)

/-- Settles O2, by the format of the word: the tables of R83 and R88 read backwards, and `encode_decodeRun`. -/
theorem encodeDecode : Obligations.EncodeDecode := by
  intro w i h
  cases w with
  | cmd w =>
    obtain ⟨-, hwf, he⟩ := decodeOpcode_row ((decodeCmd_ok_iff w i).1 h)
    exact ⟨hwf, by rw [he, BitVec.ofNat_toNat, BitVec.setWidth_eq]⟩
  | ksel k =>
    obtain ⟨hwf, he⟩ := decodeVariant_row ((decodeKsel_ok_iff k i).1 h)
    exact ⟨hwf, he.trans (encodeVariant_fields k)⟩
  | run b =>
    cases h
    exact encode_decodeRun b

/-- Settles O4: the sample words are looked up. -/
theorem sampleWords : Obligations.SampleWords := ⟨rfl, rfl, rfl, rfl, rfl, rfl⟩

/-! ## Pseudo-items (R99) -/

/-- Settles O5: an item's multiplier and length field are quotient and remainder of `len - 1`. -/
theorem pseudoItemsHaveTheirLength : Obligations.PseudoItemsHaveTheirLength := by
  refine ⟨fun len h1 hlen => ?_, fun len eol h1 hlen => ?_⟩
  · exact ⟨(len - 1) / 64, (len - 1) % 64, by omega, by omega, by omega, rfl⟩
  · exact ⟨(len - 1) / 32, (len - 1) % 32, by omega, by omega, by omega, rfl, fun _ => rfl⟩

/-! ## Illegal commands (R82) -/

/-- With a `run` event next, a step is a step of the block. -/
theorem step_run {s : State} {rest : List Event} (h : s.inputs = .run :: rest) :
    step s = engineStep (s.setInputs rest) := by
  unfold step machineStep
  rw [h]
  rfl

/-- With a host access next, a step is that access. -/
theorem step_host {s : State} {op : HostOp} {rest : List Event} (h : s.inputs = .host op :: rest) :
    step s = hostAccess (s.setInputs rest) op := by
  unfold step machineStep
  rw [h]
  rfl

/-- An idle block accepts every word written to `CMD`, a command or not (R241). -/
theorem hostAccess_write_cmd {s : State} (v : Word) (hb : s.busy = false) :
    hostAccess s (.write (s.cfg.regBase + 0x010) v) = .next (s.accept v) := by
  rw [hostAccess_write_mapped s v (by decide) (by decide) (show regAt 0x010 = some .cmd from rfl)]
  simp [writeReg, hb]

/-- The engine ends an accepted word that is no command with `ILLEGAL_COMMAND`. -/
theorem engineStep_illegal {s : State} {w : Word} (he : s.eng = some ⟨w, .start⟩) (hw : w.toNat ∉ opcodes) :
    engineStep s = .next (s.raise .illegalCommand) := by
  cases hd : decodeCmd w with
  | ok i => exact absurd (decodeOpcode_row ((decodeCmd_ok_iff w i).1 hd)).1 hw
  | error e =>
    simp only [engineStep, State.fetch, he, decode, hd]
    rcases decodeCmd_error hd with rfl | rfl <;> rfl

/-- Settles O6: the word is accepted, and the next step is `engineStep_illegal`. -/
theorem illegalCommandFaults : Obligations.IllegalCommandFaults := by
  intro s v rest he hi hv
  have hb : (s.setInputs (.run :: rest)).busy = false := busy_of_idle he
  refine ⟨_, (step_host hi).trans (hostAccess_write_cmd v hb), rfl, ?_⟩
  rw [step_run rfl, engineStep_illegal rfl hv]
  cases s
  cases he
  rfl

/-! ## RUN_KERNEL (R124) -/

theorem famMismatch_ofCode {n : Nat} (c : Nat) (h : n < 4) : famMismatch (Fam.ofCode n) c = true ↔
    (n = 0 ∧ c ≠ 1) ∨ (n = 1 ∧ c ≠ 3) ∨ (n = 2 ∧ c ≠ 4) := by
  interval_cases n <;> simp [Fam.ofCode, famMismatch]

theorem famAbsent_ofCode {n : Nat} (p : Params) (h : n < 4) : (!famPresent p (Fam.ofCode n)) = true ↔
    (n = 0 ∧ p.famC1 = false) ∨ (n = 1 ∧ p.famC3 = false) ∨ (n = 2 ∧ p.famC4 = false) ∨ (n = 3 ∧ p.famGen = false) := by
  interval_cases n <;> simp [Fam.ofCode, famPresent]

theorem countBad_iff (p : Params) (n : Nat) : (!countOk p n) = true ↔ ¬ CountLegal p n := by
  rw [Bool.not_eq_true', ← Bool.not_eq_true, countOk_iff]

theorem exec_runKernel_fault {s : State} {c : FaultCode} (h : runKernelFault s = some c) :
    exec .runKernel s = .next (s.raise c) := by
  simp only [exec, execRunKernel, h]

theorem exec_runKernel_empty {s : State} (h : runKernelFault s = none) (hw : dim s.regs.kern.w = 0) :
    exec .runKernel s = .next s.finish := by
  simp only [exec, execRunKernel, h, if_pos hw]

theorem exec_runKernel_span {s : State} (h : runKernelFault s = none) (hw : dim s.regs.kern.w ≠ 0) :
    exec .runKernel s = .next (s.proceed (.spans (runKernelSpan s))) := by
  simp only [exec, execRunKernel, h, if_neg hw]

/-- Settles O35: the tests of the statement are those of `runKernelFault` one by one, and without bit 31 `K_W` is the
length of the span. -/
theorem runKernelTests : Obligations.RunKernelTests := by
  intro s k n c fam w bad1 bad2 bad3 bad4 bad5
  have hfam : fam < 4 := by
    have := k.isLt
    omega
  have h1 : (dimBad s.regs.kern.w || kselMalformed s.regs.ksel) = true ↔ bad1 := by
    rw [Bool.or_eq_true, kselMalformed_iff, kselKind_eq_mod, dimBad_eq]
  have h2 : (!countOk s.cfg s.regs.kern.count) = true ↔ bad2 := countBad_iff s.cfg n
  have h3 : kselKind s.regs.ksel = 0 ↔ bad3 := by rw [kselKind_eq_mod]
  have h4 : famMismatch (kselFam s.regs.ksel) (s.regs.kern.count - (kselDa s.regs.ksel).toNat) = true ↔ bad4 := by
    rw [kselFam_eq]
    exact famMismatch_ofCode c hfam
  have h5 : (!famPresent s.cfg (kselFam s.regs.ksel)) = true ↔ bad5 := by
    rw [kselFam_eq]
    exact famAbsent_ofCode s.cfg hfam
  have hdim (b1 : ¬ bad1) : dim s.regs.kern.w = w :=
    dim_eq_toNat (Bool.eq_false_iff.2 fun h31 => b1 (.inl h31))
  have hnone (b1 : ¬ bad1) (b2 : ¬ bad2) (b3 : ¬ bad3) (b4 : ¬ bad4) (b5 : ¬ bad5) : runKernelFault s = none := by
    simp only [runKernelFault, h1, h2, h3, h4, h5, b1, b2, b3, b4, b5, if_false]
  refine ⟨fun b1 => exec_runKernel_fault ?_, fun b1 b2 => exec_runKernel_fault ?_,
    fun b1 b2 b3 => exec_runKernel_fault ?_, fun b1 b2 b3 b4 => exec_runKernel_fault ?_,
    fun b1 b2 b3 b4 b5 => exec_runKernel_fault ?_, fun b1 b2 b3 b4 b5 hw => ?_, fun b1 b2 b3 b4 b5 hw => ?_⟩
  · simp only [runKernelFault, h1, b1, if_true]
  · simp only [runKernelFault, h1, h2, b1, b2, if_true, if_false]
  · simp only [runKernelFault, h1, h2, h3, b1, b2, b3, if_true, if_false]
  · simp only [runKernelFault, h1, h2, h3, h4, b1, b2, b3, b4, if_true, if_false]
  · simp only [runKernelFault, h1, h2, h3, h4, h5, b1, b2, b3, b4, b5, if_true, if_false]
  · exact exec_runKernel_empty (hnone b1 b2 b3 b4 b5) ((hdim b1).trans hw)
  · rw [exec_runKernel_span (hnone b1 b2 b3 b4 b5) (by rwa [hdim b1]), runKernelSpan, hdim b1]
    rfl

/-! ## The Extend header (R90) -/

/-- A readable Extend header moves the stream pointer on and chains the pending multiplier. -/
theorem exec_runExtend {s : State} {w : Word} {g : Rle} (m : Nat) (he : s.eng = some ⟨w, .glyph g⟩)
    (hw : g.wantsHeader = true) (hb : isBacked s.cfg g.p = true) (hc : s.px.clashAt .srcRead g.p = none) :
    exec (.runExtend m) s = .next ((s.noteRead g.p).proceed (.glyph { g with
      p := addrPlus s.cfg g.p 1
      extend := chainExtend s.cfg g.extend m })) := by
  rw [exec, execRunExtend, onHeader_eq he hw hb hc]
  rfl

/-- Settles O56: `chainExtend` is by definition the multiplier of R90. -/
theorem extendHeader : Obligations.ExtendHeader := fun _ _ _ m he hw hb hc => exec_runExtend m he hw hb hc

end Sys2Proof.Machine
end

section
/-! The statements of 40_alu.md: the bounds of `blend`, and what each ALU command answers. -/

namespace Sys2Proof.Machine

open Sys2Proof

/-! ## The cells (R100 to R104) -/

theorem combine_eq (x w : Int) : combine x w = x * w / 256 := rfl

@[simp] theorem combine_weight_zero (x : Int) : combine x 0 = 0 := by simp [combine_eq]

@[simp] theorem combine_weight_full (x : Int) : combine x 256 = x := by simp [combine_eq]

@[simp] theorem combine_zero (w : Int) : combine 0 w = 0 := by simp [combine_eq]

/-- A weight moves a value toward 0; from above, the floor does not pass 0. -/
theorem combine_of_nonneg {x w : Int} (hx : 0 ≤ x) (h0 : 0 ≤ w) (h1 : w ≤ 256) : 0 ≤ combine x w ∧ combine x w ≤ x := by
  have hlow : 0 ≤ x * w := mul_nonneg hx h0
  have hhigh : x * w ≤ x * 256 := mul_le_mul_of_nonneg_left h1 hx
  rw [combine_eq]
  omega

/-- From below, the floor moves the product back toward the value but not past it (D6). -/
theorem combine_of_nonpos {x w : Int} (hx : x ≤ 0) (h0 : 0 ≤ w) (h1 : w ≤ 256) : x ≤ combine x w ∧ combine x w ≤ 0 := by
  have hlow : x * 256 ≤ x * w := mul_le_mul_of_nonpos_left h1 hx
  have hhigh : x * w ≤ 0 := mul_nonpos_of_nonpos_of_nonneg hx h0
  rw [combine_eq]
  omega

theorem blend_eq (src dst w : Int) : blend src dst w = dst + (src - dst) * w / 256 := rfl

@[simp] theorem blend_weight_zero (src dst : Int) : blend src dst 0 = dst := by simp [blend]

@[simp] theorem blend_weight_full (src dst : Int) : blend src dst 256 = src := by simp [blend]

@[simp] theorem blend_self (v w : Int) : blend v v w = v := by simp [blend]

/-- The bounds of R103 hold of all integers: only the weight has to be in range. -/
theorem blend_between (src dst : Int) {w : Int} (h0 : 0 ≤ w) (h1 : w ≤ 256) :
    min src dst ≤ blend src dst w ∧ blend src dst w ≤ max src dst := by
  rw [blend]
  rcases le_total dst src with hle | hle
  · have := combine_of_nonneg (sub_nonneg.2 hle) h0 h1
    omega
  · have := combine_of_nonpos (sub_nonpos.2 hle) h0 h1
    omega

/-- Settles O29: the bounds are those of `combine` on the difference, which has the sign of `src - dst`. -/
theorem blendLiesBetween : Obligations.BlendLiesBetween := by
  intro src dst w _ _ _ _ h0 h1
  obtain ⟨hmin, hmax⟩ := blend_between src dst h0 h1
  exact ⟨blend_eq src dst w, hmin, hmax, blend_weight_zero src dst, blend_weight_full src dst, blend_self src w⟩

/-! ## The commands (R105 to R108) -/

theorem decodeCmd_alu : decodeCmd 0x01 = .ok .expand ∧ decodeCmd 0x02 = .ok .combine ∧
    decodeCmd 0x03 = .ok .blend ∧ decodeCmd 0x04 = .ok .combine2 := by
  simp only [decodeCmd_ok_iff]
  exact ⟨rfl, rfl, rfl, rfl⟩

/-- The end of an ALU command whose operands are in range, field by field. -/
theorem setAluR_finish_eq (s : State) (v : Word) : (s.setAluR v).finish = { s with
    regs := { s.regs with alu := { s.regs.alu with r := v } }
    status := { s.status with done := true }
    eng := none } := rfl

/-- The end of an ALU command whose operands are out of range, field by field. -/
theorem raise_illegalOperand_eq (s : State) : s.raise .illegalOperand = { s with
    status := { s.status with fcode := 4, fault := true, done := false }
    eng := none } := rfl

/-- An instruction that runs the ALU template answers the whole next state on both sides of its range test, the range
`P` being what its test `ok` decides. -/
theorem aluCommand_answers {s : State} {i : Instr} {ok : Bool} {v : Int} {P : Prop}
    (hi : exec i s = aluCommand s ok v) (hok : ok = true ↔ P) :
    (P → exec i s = .next { s with
      regs := { s.regs with alu := { s.regs.alu with r := BitVec.ofInt 32 v } }
      status := { s.status with done := true }
      eng := none }) ∧
    (¬ P → exec i s = .next { s with
      status := { s.status with fcode := 4, fault := true, done := false }
      eng := none }) := by
  refine ⟨fun hP => ?_, fun hP => ?_⟩
  · rw [hi, aluCommand_ok (hok.2 hP), setAluR_finish_eq]
  · rw [hi, aluCommand_bad (Bool.eq_false_iff.2 (mt hok.1 hP)), raise_illegalOperand_eq]

theorem exec_expand (s : State) :
    exec .expand s = aluCommand s (byteOk (signed s.regs.alu.a)) (expand (signed s.regs.alu.a)) := rfl

theorem exec_combine (s : State) : exec .combine s =
    aluCommand s (combineOk (signed s.regs.alu.a) && weightOk (signed s.regs.alu.b))
      (combine (signed s.regs.alu.a) (signed s.regs.alu.b)) := rfl

theorem exec_blend (s : State) : exec .blend s =
    aluCommand s (byteOk (signed s.regs.alu.a) && byteOk (signed s.regs.alu.b) && weightOk (signed s.regs.alu.c))
      (blend (signed s.regs.alu.a) (signed s.regs.alu.b) (signed s.regs.alu.c)) := rfl

theorem exec_combine2 (s : State) : exec .combine2 s =
    aluCommand s (byteOk (signed s.regs.alu.a) && weightOk (signed s.regs.alu.b) && byteOk (signed s.regs.alu.c) &&
        weightOk (signed s.regs.alu.d))
      (combine2 s.cfg (signed s.regs.alu.a) (signed s.regs.alu.b) (signed s.regs.alu.c) (signed s.regs.alu.d)) := rfl

/-- Settles O25: the test is `byteOk`, the result `expand`. -/
theorem expandCommand : Obligations.ExpandCommand :=
  ⟨decodeCmd_alu.1, fun s => aluCommand_answers (exec_expand s) (byteOk_iff _)⟩

/-- Settles O26: the test is `combineOk` and `weightOk`, the result `combine`. -/
theorem combineCommand : Obligations.CombineCommand := by
  obtain ⟨-, hdecode, -, -⟩ := decodeCmd_alu
  refine ⟨hdecode, fun s => aluCommand_answers (exec_combine s) ?_⟩
  rw [Bool.and_eq_true, combineOk_iff, weightOk_iff]
  rfl

/-- Settles O27: the tests are `byteOk` twice and `weightOk`, the result `blend`. -/
theorem blendCommand : Obligations.BlendCommand := by
  obtain ⟨-, -, hdecode, -⟩ := decodeCmd_alu
  refine ⟨hdecode, fun s => aluCommand_answers (exec_blend s) ?_⟩
  rw [Bool.and_eq_true, Bool.and_eq_true, byteOk_iff, byteOk_iff, weightOk_iff, and_assoc]
  rfl

/-- Settles O28: the tests are `byteOk` and `weightOk` of each product, the result `combine2` under the rounding of the
state's parameters. -/
theorem combine2Command : Obligations.Combine2Command := by
  obtain ⟨-, -, -, hdecode⟩ := decodeCmd_alu
  refine ⟨hdecode, fun s => aluCommand_answers (exec_combine2 s) ?_⟩
  simp only [Bool.and_eq_true, byteOk_iff, weightOk_iff, and_assoc]
  rfl

end Sys2Proof.Machine
end

section
/-! The statements of 41_kernels.md: the legal span, the bound of R122, the kernels on ready spans, and `RUN_KERNEL` to its
end. -/

namespace Sys2Proof.Machine

open Sys2Proof

/-! ## The running span across a step (R124, R195) -/

/-- With no command running there is no span. -/
theorem State.spanInv_of_idle {s : State} (h : s.eng = none) : s.SpanInv := by
  intro w q he
  rw [h] at he
  cases he

theorem State.accept_spanInv (s : State) (v : Word) : (s.accept v).SpanInv := by
  intro w q he
  cases he

theorem State.proceed_spans_spanInv (s : State) {q : Seq} (hq : SpanOk q) : (s.proceed (.spans q)).SpanInv := by
  intro w q' he
  simp only [State.proceed_eng, Option.map_eq_some_iff] at he
  obtain ⟨e, -, heq⟩ := he
  cases heq
  exact hq

theorem State.proceed_glyph_spanInv (s : State) (g : Rle) : (s.proceed (.glyph g)).SpanInv := by
  intro w q he
  simp only [State.proceed_eng, Option.map_eq_some_iff] at he
  obtain ⟨e, -, heq⟩ := he
  cases heq

/-- A legal span ends in the next row of its rectangle or with the command. -/
theorem endSpan_spanInv (s : State) {q : Seq} (hq : SpanOk q) : (endSpan s q).SpanInv := by
  unfold endSpan
  split
  · exact s.proceed_spans_spanInv (nextRow_spanOk hq ‹_›)
  · exact State.spanInv_of_idle rfl

theorem BlockStep.keepsSpanInv {s t : State} (h : BlockStep s t) (hs : s.SpanInv) : t.SpanInv := by
  cases h with
  | idle _ => exact hs
  | startsSpan w q _ hq => exact s.proceed_spans_spanInv hq
  | startsGlyph w g _ _ => exact s.proceed_glyph_spanInv g
  | span w q i op m he _ _ _ => exact endSpan_spanInv _ (s.spanInv_iff.1 hs w q he)
  | glyphMove w g g' log _ => exact State.proceed_glyph_spanInv _ g'
  | glyphEmit w g g1 g' tag log n m _ _ _ _ _ => exact State.proceed_glyph_spanInv _ g'
  | result | done | fault | selected | unsupported | badSelector | glyphDone => exact State.spanInv_of_idle rfl

theorem HostStep.keepsSpanInv {s t : State} (h : HostStep s t) (hs : s.SpanInv) : t.SpanInv := by
  cases h with
  | write r v =>
    rcases writeReg_cases s r v with e | e | ⟨-, e⟩ | e <;> rw [e]
    · exact hs
    · exact hs
    · exact s.accept_spanInv v
    · exact hs
  | _ => exact hs

theorem resetBlock_spanInv {s t : State} (h : resetBlock s = .next t) : t.SpanInv := by
  obtain ⟨m, -, rfl⟩ := resetBlock_next h
  exact State.spanInv_of_idle rfl

/-- Settles O11: a command starts only legal spans, and a span hands on only to the next row of its rectangle. -/
theorem stepKeepsSpanLegal : Obligations.StepKeepsSpanLegal := fun _ _ hs h =>
  step_keeps (P := State.SpanInv) (fun _ _ hs => hs) (fun _ _ hs h => h.keepsSpanInv hs)
    (fun _ _ hs h => h.keepsSpanInv hs) (fun _ _ _ h => resetBlock_spanInv h) hs h

/-! ## Premultiplied sources (R104, R122) -/

theorem combine_mono {x y w : Int} (hxy : x ≤ y) (hw : 0 ≤ w) : combine x w ≤ combine y w := by
  have hmul : x * w ≤ y * w := mul_le_mul_of_nonneg_right hxy hw
  rw [combine_eq, combine_eq]
  omega

@[simp] theorem combine_full_left (w : Int) : combine 256 w = w := by simp [combine_eq]

theorem expand_bounds {a : Int} (h0 : 0 ≤ a) (h1 : a ≤ 255) : a ≤ expand a ∧ expand a ≤ 256 := by
  unfold expand
  omega

/-- What a destination byte keeps leaves room for the weight that is taken from it, up to the whole byte. -/
theorem combine_complement_le {d e : Int} (hd : d ≤ 255) (h1 : e < 256) :
    combine d (256 - e) ≤ 255 - e := by
  have hmul : d * (256 - e) ≤ 255 * (256 - e) := mul_le_mul_of_nonneg_right hd (by omega)
  rw [combine_eq]
  omega

/-- The unfused sum is a byte if the source's share is no more than the weight `e` taken from the destination. -/
theorem combine2_unfused_bounds {p : Params} {s w d e : Int} (hp : p.combine2Fused = false) (hs0 : 0 ≤ s)
    (hs1 : s ≤ 255) (hd0 : 0 ≤ d) (hd1 : d ≤ 255) (hw0 : 0 ≤ w) (hw1 : w ≤ 256) (he0 : 0 ≤ e) (he1 : e ≤ 256)
    (hle : combine s w ≤ e) : 0 ≤ combine2 p s w d (256 - e) ∧ combine2 p s w d (256 - e) ≤ 255 := by
  have hsum : combine2 p s w d (256 - e) = combine s w + combine d (256 - e) := by simp [combine2, hp]
  obtain ⟨hsw0, hsw1⟩ := combine_of_nonneg hs0 hw0 hw1
  obtain ⟨hde0, -⟩ := combine_of_nonneg hd0 (w := 256 - e) (by omega) (by omega)
  rw [hsum]
  rcases eq_or_lt_of_le he1 with rfl | hlt
  · have : combine d (256 - 256) = 0 := combine_weight_zero d
    omega
  · have := combine_complement_le hd1 hlt
    omega

/-- Settles O30: `combine` is monotone, so a source byte of at most its alpha takes no more than the effective weight, with
a source alpha, and no more than the weight itself, without. -/
theorem premultipliedNeverOverflows : Obligations.PremultipliedNeverOverflows := by
  intro p s sA d w hp hs0 hsA hA hd0 hd1 hw0 hw1
  obtain ⟨hexp0, hexp1⟩ := expand_bounds (hs0.trans hsA) hA
  obtain ⟨hew0, hew1⟩ := combine_of_nonneg (hs0.trans (hsA.trans hexp0)) hw0 hw1
  have halpha : combine s w ≤ combine (expand sA) w := combine_mono (hsA.trans hexp0) hw0
  have hplain : combine s w ≤ w := by simpa using combine_mono (show s ≤ 256 by omega) hw0
  exact ⟨fun _ => combine2_unfused_bounds hp hs0 (hsA.trans hA) hd0 hd1 hw0 hw1 hew0 (hew1.trans hexp1) halpha,
    fun _ => combine2_unfused_bounds hp hs0 (hsA.trans hA) hd0 hd1 hw0 hw1 hw0 hw1 hplain⟩

/-! ## The kernels on ready spans (R130 to R153) -/

/-- Settles O37: `solid_does`, the meaning of both fills being `solidPixel`. -/
theorem solidFill : Obligations.SolidFill := by
  intro s w q fam da he hn hD
  obtain ⟨m, hrun, -, hkeep, hpixels⟩ := solid_does da he hn hD
  refine ⟨m, ?_, hkeep, hpixels⟩
  rw [← hrun]
  cases da <;> rfl

/-- Settles O38: `overwrite_does`, with the address of a byte written in one sum. -/
theorem solidOverwriteFill : Obligations.SolidOverwriteFill := by
  intro s w q fam he hD
  obtain ⟨m, hrun, -, hkeep, hbytes⟩ := overwrite_does he hD
  refine ⟨m, hrun, hkeep, fun j hj k hk => ?_⟩
  rw [← addrPlus_addrPlus]
  exact hbytes j hj k hk

/-- Settles O39: `over_does` with the plane weight. -/
theorem spanOverGeneral : Obligations.SpanOverGeneral := by
  intro s w q fam da sa he hn hD hS
  obtain ⟨m, hrun, -, hkeep, hpixels⟩ := over_does da sa planeWeight he hn hD hS
  refine ⟨m, ?_, hkeep, hpixels⟩
  rw [← hrun]
  cases da <;> cases sa <;> rfl

/-- Settles O40: `over_does` with the weight 256. -/
theorem spanOverOpaque : Obligations.SpanOverOpaque := by
  intro s w q fam da sa he hn hD hS
  obtain ⟨m, hrun, -, hkeep, hpixels⟩ := over_does da sa opaqueWeight he hn hD hS
  refine ⟨m, ?_, hkeep, hpixels⟩
  rw [← hrun]
  cases da <;> cases sa <;> rfl

/-- Settles O41: each of the four meanings is the runner of `skipPixel`. -/
theorem spanOverSkip : Obligations.SpanOverSkip := by
  intro s w q fam i he hi
  simp only [List.mem_cons, List.not_mem_nil, or_false] at hi
  obtain rfl | rfl | rfl | rfl := hi
  · exact skip_span he
  · exact skip_span he
  · exact skip_span he
  · exact skip_span he

/-- Settles O42: `mask_does`. -/
theorem spanMask : Obligations.SpanMask := by
  intro s w q fam da sa he hn hD hS hM
  obtain ⟨m, hrun, -, hkeep, hpixels⟩ := mask_does da sa he hn hD hS hM
  refine ⟨m, ?_, hkeep, hpixels⟩
  rw [← hrun]
  cases da <;> cases sa <;> rfl

/-- Settles O43: `color_does`. -/
theorem spanColor : Obligations.SpanColor := by
  intro s w q fam da he hn hD hM
  obtain ⟨m, hrun, -, hkeep, hpixels⟩ := color_does da he hn hD hM
  refine ⟨m, ?_, hkeep, hpixels⟩
  rw [← hrun]
  cases da <;> rfl

/-! ## The pixel operation of a selector (R84, R88, R128) -/

/-- The pixel operation of a row of R88 from its fields: `KIND` in bits [2:0], `DA` in bit 3, `SA` in bit 4, `VAR` from
bit 5 on (R84). The rows not named are those of OVER_SKIP (R142 to R145). -/
def rowPixel (n : Nat) : PixelOp :=
  match n % 8, n / 32 with
  | 1, 0 => solidPixel (n.testBit 3)
  | 1, 1 => overwritePixel
  | 2, 0 => overSpanPixel (n.testBit 3) (n.testBit 4) planeWeight
  | 2, 1 => overSpanPixel (n.testBit 3) (n.testBit 4) opaqueWeight
  | 3, 0 => maskPixel (n.testBit 3) (n.testBit 4)
  | 4, 0 => colorSpanPixel (n.testBit 3)
  | _, _ => skipPixel

/-- The meaning of a row of R88 does not depend on its family. -/
theorem exec_decodeVariant {fam : Fam} {n : Nat} {i : Instr} (h : decodeVariant fam n = some i) (s : State) :
    exec i s = runSpan (rowPixel n) s := by
  unfold decodeVariant at h
  split at h <;> cases h <;> rfl

theorem exec_decodeKsel {k : BitVec 10} {i : Instr} (h : decodeKsel k = .ok i) (s : State) :
    exec i s = runSpan (rowPixel (k.toNat % 256)) s :=
  exec_decodeVariant ((decodeKsel_ok_iff k i).1 h) s

theorem testBit_row (k : BitVec 10) {i : Nat} (hi : i < 8) : (k.toNat % 256).testBit i = k.getLsbD i := by
  rw [show (256 : Nat) = 2 ^ 8 from rfl, Nat.testBit_mod_two_pow, decide_eq_true hi, Bool.true_and]
  rfl

/-- The operation of every row goes through on the regions it reads and writes, and changes no byte outside its span. -/
theorem rowPixel_does {s : State} {w : Word} {q : Seq} (n : Nat) (he : s.eng = some ⟨w, .spans q⟩) (hn : 1 ≤ q.n)
    (hD : SpanDst s q)
    (hS : n % 8 = 2 ∨ n % 8 = 3 → SpanSrc s q (spanColors q (n.testBit 3) + (n.testBit 4).toNat))
    (hM : n % 8 = 3 ∨ n % 8 = 4 → SpanMsk s q) :
    ∃ m, runSpan (rowPixel n) s = .next (endSpan (s.setPx m) q) ∧
      KeepsOutside s.cfg q.dp (spanLen q * q.n) s.px.byte m.byte := by
  unfold rowPixel
  split
  · obtain ⟨m, hrun, -, hkeep, -⟩ := solid_does (n.testBit 3) he hn hD
    exact ⟨m, hrun, hkeep⟩
  · obtain ⟨m, hrun, -, hkeep, -⟩ := overwrite_does he hD
    exact ⟨m, hrun, hkeep⟩
  · rename_i hkind _
    obtain ⟨m, hrun, -, hkeep, -⟩ := over_does _ _ planeWeight he hn hD (hS (.inl hkind))
    exact ⟨m, hrun, hkeep⟩
  · rename_i hkind _
    obtain ⟨m, hrun, -, hkeep, -⟩ := over_does _ _ opaqueWeight he hn hD (hS (.inl hkind))
    exact ⟨m, hrun, hkeep⟩
  · rename_i hkind _
    obtain ⟨m, hrun, -, hkeep, -⟩ := mask_does _ _ he hn hD (hS (.inr hkind)) (hM (.inl hkind))
    exact ⟨m, hrun, hkeep⟩
  · rename_i hkind _
    obtain ⟨m, hrun, -, hkeep, -⟩ := color_does (n.testBit 3) he hn hD (hM (.inr hkind))
    exact ⟨m, hrun, hkeep⟩
  · exact ⟨s.px, skip_span he, fun _ _ => rfl⟩

/-- A kernel that is selected goes through on the regions its selector names. -/
theorem exec_decodeKsel_does {s : State} {w : Word} {q : Seq} {i : Instr} (he : s.eng = some ⟨w, .spans q⟩)
    (hi : decodeKsel q.k = .ok i) (hn : 1 ≤ q.n) (hD : SpanDst s q)
    (hS : kselKind q.k = 2 ∨ kselKind q.k = 3 →
      SpanSrc s q (q.n - (kselDa q.k).toNat + (q.k.getLsbD 4).toNat))
    (hM : kselKind q.k = 3 ∨ kselKind q.k = 4 → SpanMsk s q) :
    ∃ m, exec i s = .next (endSpan (s.setPx m) q) ∧
      KeepsOutside s.cfg q.dp (spanLen q * q.n) s.px.byte m.byte := by
  have hkind : q.k.toNat % 256 % 8 = kselKind q.k := by
    rw [kselKind_eq_mod]
    omega
  rw [exec_decodeKsel hi]
  refine rowPixel_does _ he hn hD ?_ ?_
  · rw [hkind, testBit_row q.k (by decide), testBit_row q.k (by decide)]
    exact hS
  · rw [hkind]
    exact hM

/-! ## `RUN_KERNEL` to its end (R124, R155, R243) -/

theorem decodeCmd_runKernel : decodeCmd 0x20 = .ok .runKernel := (decodeCmd_ok_iff _ _).2 rfl

/-- The span of a `RUN_KERNEL` is the only row of its rectangle. -/
theorem endSpan_runKernel (s t : State) : endSpan t (runKernelSpan s) = t.finish := by
  unfold endSpan
  exact if_neg (Int.lt_irrefl 1)

/-- Settles O36: the first step hands the span to its kernel, and that kernel goes through and ends the command. -/
theorem runKernelCompletes : Obligations.RunKernelCompletes := by
  intro s hi he hfault hw q hD hS hM
  have hq : SpanOk q := runKernel_spanOk hfault hw
  obtain ⟨⟨i, hk⟩, -, -, -, -, hn⟩ := hq
  have hstart : step s = .next (s.proceed (.spans q)) := by
    rw [step_quiet hi, engineStep_command he decodeCmd_runKernel, exec_runKernel_span hfault hw]
  have heng : (s.proceed (.spans q)).eng = some ⟨0x20, .spans q⟩ := by simp [he]
  obtain ⟨m, hrun, hkeep⟩ := exec_decodeKsel_does heng hk hn hD hS hM
  have hspan : step (s.proceed (.spans q)) = .next (s.setPx m).finish := by
    rw [step_quiet (s := s.proceed (.spans q)) hi, engineStep_span heng hk, hrun, endSpan_runKernel s]
    rfl
  exact ⟨m, by rw [run_next hstart, run_next hspan]; rfl, hkeep⟩

/-! ## Variants that agree (R128, R172) -/

theorem runSpan_congr {op op' : PixelOp} {s : State} (h : op s = op' s) : runSpan op s = runSpan op' s := by
  unfold runSpan
  rw [h]

/-- With `K_ALPHA` = 255 the plane weight is that of the OPAQUE variants. -/
theorem overSpanPixel_opaque {s : State} (h : s.regs.kern.alpha = 255) (da sa : Bool) :
    overSpanPixel da sa planeWeight s = overSpanPixel da sa opaqueWeight s := by
  have hw : planeWeight s = opaqueWeight s := by
    rw [planeWeight, h]
    rfl
  unfold overSpanPixel
  rw [hw]

/-- An operation that, when it goes through, leaves the bytes as they are. -/
def KeepsCells (f : Pixmem → Except Stop Pixmem) : Prop := ∀ m m', f m = .ok m' → m'.cells = m.cells

theorem upto_keepsCells {f : Nat → Pixmem → Except Stop Pixmem} (h : ∀ k, KeepsCells (f k)) (n : Nat) :
    KeepsCells (upto f n) := by
  induction n with
  | zero =>
    intro m m' e
    cases e
    rfl
  | succ n ih =>
    intro m m' e
    unfold upto at e
    split at e
    · rename_i m1 e1
      exact (h n m1 m' e).trans (ih m m1 e1)
    · cases e

theorem srcAlpha_cells {p : Params} {sa : Bool} {a : Nat} {m m' : Pixmem} {v : Int}
    (h : srcAlpha p sa a m = .ok (v, m')) : m'.cells = m.cells := by
  unfold srcAlpha at h
  split at h
  · split at h
    · rename_i e1
      cases h
      obtain ⟨-, rfl⟩ := readSrc_ok e1
      rfl
    · cases h
  · cases h
    rfl

@[simp] theorem effWeight_zero (sa : Bool) (sA : Int) : effWeight sa sA 0 = 0 := by simp [effWeight]

/-- With the weight 0 `OVER_PIXEL` reads at most the source alpha. -/
theorem overPixel_zero_keepsCells (p : Params) (row : Int) (dp sp c : Nat) (da sa : Bool) :
    KeepsCells (overPixel p row dp sp 0 c da sa) := by
  intro m m' h
  unfold overPixel at h
  split at h
  · rename_i e1
    rw [effWeight_zero] at h
    cases h
    exact srcAlpha_cells e1
  · cases h

/-- With `K_ALPHA` = 0 no pixel of a GENERAL variant changes a byte. -/
theorem overSpanPixel_clear_keepsCells {s : State} (h : s.regs.kern.alpha = 0) (da sa : Bool) (q : Seq) (j : Nat) :
    KeepsCells (overSpanPixel da sa planeWeight s q j) := by
  have hw : planeWeight s = 0 := by
    rw [planeWeight, h]
    rfl
  unfold overSpanPixel
  rw [hw]
  exact overPixel_zero_keepsCells s.cfg q.y _ _ _ da sa

/-- The end of a span looks at neither the bytes nor the log. -/
theorem endSpan_setPx (s : State) (m : Pixmem) (q : Seq) : endSpan (s.setPx m) q = (endSpan s q).setPx m := by
  unfold endSpan
  split <;> rfl

/-- A span whose pixels change no byte leaves the bytes, the engine and the status that a skipped one leaves. -/
theorem runSpan_like_skip {op : PixelOp} {s t : State} (hop : ∀ q j, KeepsCells (op s q j)) (h : runSpan op s = .next t) :
    ∃ u, runSpan skipPixel s = .next u ∧ t.px.cells = u.px.cells ∧ t.eng = u.eng ∧ t.status = u.status := by
  obtain ⟨w, q, m, he, hm, rfl⟩ := runSpan_next h
  refine ⟨endSpan s q, skip_span he, ?_, ?_, ?_⟩
  · rw [endSpan_px, endSpan_px]
    exact upto_keepsCells (hop q) _ _ _ hm
  · rw [endSpan_setPx, State.setPx_eng]
  · rw [endSpan_setPx, State.setPx_status]

/-- The GENERAL variants are the runner of `overSpanPixel` with the plane weight. -/
theorem exec_overGeneral_mem {fam : Fam} {i : Instr}
    (hi : i ∈ [Instr.kOverGeneral fam, .kOverGeneralDa fam, .kOverGeneralSa fam, .kOverGeneralDaSa fam]) :
    ∃ da sa, ∀ s, exec i s = runSpan (overSpanPixel da sa planeWeight) s := by
  simp only [List.mem_cons, List.not_mem_nil, or_false] at hi
  obtain rfl | rfl | rfl | rfl := hi
  · exact ⟨false, false, fun _ => rfl⟩
  · exact ⟨true, false, fun _ => rfl⟩
  · exact ⟨false, true, fun _ => rfl⟩
  · exact ⟨true, true, fun _ => rfl⟩

/-- Settles O44: the pixel operation is that of bits [7:0]; `K_ALPHA` = 255 is the weight 256, and `K_ALPHA` = 0 is the
weight 0, which changes no byte. -/
theorem variantsAgree : Obligations.VariantsAgree := by
  refine ⟨fun k k' i i' hrow hi hi' s => ?_, fun s fam ha => ?_, fun s t fam i ha hi h => ?_⟩
  · rw [exec_decodeKsel hi, exec_decodeKsel hi', hrow]
  · have hagree := fun da sa => runSpan_congr (overSpanPixel_opaque ha da sa)
    exact ⟨hagree false false, hagree true false, hagree false true, hagree true true⟩
  · obtain ⟨da, sa, hexec⟩ := exec_overGeneral_mem hi
    rw [hexec] at h
    exact runSpan_like_skip (overSpanPixel_clear_keepsCells ha da sa) h

end Sys2Proof.Machine
end

section
/-! The statements of 42_dispatch.md: the family the mux tree picks, what each `GET_*` command answers, and that the
selector it leaves is one `RUN_KERNEL` accepts. -/

namespace Sys2Proof.Machine

open Sys2Proof

/-! ## The mux tree (R171) -/

/-- `FAMSEL` picks a specialization at its own count only, and the generic family where no specialization is for the
count. -/
theorem famSel_eq_some_iff (p : Params) (c : Nat) (f : Fam) : famSel p c = some f ↔
    (f = .c1 ∧ c = 1 ∧ p.famC1 = true) ∨ (f = .c3 ∧ c = 3 ∧ p.famC3 = true) ∨ (f = .c4 ∧ c = 4 ∧ p.famC4 = true) ∨
    (f = .gen ∧ p.famGen = true ∧ ¬ (c = 1 ∧ p.famC1 = true) ∧ ¬ (c = 3 ∧ p.famC3 = true) ∧
      ¬ (c = 4 ∧ p.famC4 = true)) := by
  unfold famSel
  split_ifs with h1 h3 h4 hg
  · obtain ⟨rfl, hp⟩ := h1
    cases f <;> simp [hp]
  · obtain ⟨rfl, hp⟩ := h3
    cases f <;> simp [hp]
  · obtain ⟨rfl, hp⟩ := h4
    cases f <;> simp [hp]
  · cases f <;> simp [h1, h3, h4, hg]
  · cases f <;> simp [h1, h3, h4, hg]

theorem famSel_eq_none_iff (p : Params) (c : Nat) : famSel p c = none ↔
    p.famGen = false ∧ ¬ (c = 1 ∧ p.famC1 = true) ∧ ¬ (c = 3 ∧ p.famC3 = true) ∧ ¬ (c = 4 ∧ p.famC4 = true) := by
  unfold famSel
  split_ifs with h1 h3 h4 hg
  · simp [h1]
  · simp [h3]
  · simp [h4]
  · simp [hg]
  · simp [h1, h3, h4, hg]

theorem famSel_present {p : Params} {c : Nat} {f : Fam} (h : famSel p c = some f) : famPresent p f = true := by
  obtain ⟨rfl, -, hp⟩ | ⟨rfl, -, hp⟩ | ⟨rfl, -, hp⟩ | ⟨rfl, hp, -⟩ := (famSel_eq_some_iff p c f).1 h <;> exact hp

theorem famSel_fits {p : Params} {c : Nat} {f : Fam} (h : famSel p c = some f) : famMismatch f c = false := by
  obtain ⟨rfl, rfl, -⟩ | ⟨rfl, rfl, -⟩ | ⟨rfl, rfl, -⟩ | ⟨rfl, -⟩ := (famSel_eq_some_iff p c f).1 h <;> rfl

/-! ## The fields of a selector (R84) -/

section
variable {kind var : Nat} (da sa : Bool) (f : Fam)

theorem kselOf_toNat (hk : kind < 8) (hv : var < 4) :
    (kselOf kind da sa var f).toNat = kind + 8 * da.toNat + 16 * sa.toNat + 32 * var + 256 * f.code := by
  have hd := da.toNat_lt
  have hs := sa.toNat_lt
  have hf := famCode_lt f
  rw [kselOf, BitVec.toNat_ofNat]
  omega

theorem kselKind_kselOf (hk : kind < 8) (hv : var < 4) : kselKind (kselOf kind da sa var f) = kind := by
  rw [kselKind_eq_mod, kselOf_toNat da sa f hk hv]
  omega

theorem kselDa_kselOf (hk : kind < 8) (hv : var < 4) : kselDa (kselOf kind da sa var f) = da := by
  have hd := da.toNat_lt
  have hs := sa.toNat_lt
  have hbit : (kselOf kind da sa var f).toNat / 2 ^ 3 % 2 = da.toNat := by
    rw [kselOf_toNat da sa f hk hv]
    omega
  rw [kselDa, BitVec.getLsbD, Nat.testBit_eq_decide_div_mod_eq, hbit]
  cases da <;> rfl

theorem kselFam_kselOf (hk : kind < 8) (hv : var < 4) : kselFam (kselOf kind da sa var f) = f := by
  have hd := da.toNat_lt
  have hs := sa.toNat_lt
  have hfam : (kselOf kind da sa var f).toNat / 256 = f.code := by
    rw [kselOf_toNat da sa f hk hv]
    omega
  rw [kselFam_eq, hfam, famOfCode_code]

end

theorem alphaClass_lt (a : Byte) : alphaClass a < 4 := by
  unfold alphaClass
  split
  · decide
  · split <;> decide

theorem solidVar_true (p : Params) (ca : Byte) : solidVar p true ca = 0 := rfl

/-- Without destination alpha the fill overwrites, unless the policy wants an opaque color and this is none (R173). -/
theorem solidVar_false (p : Params) (ca : Byte) : solidVar p false ca =
    if p.nodaFillPolicy = .alwaysOverwrite then 1 else if ca = 255 then 1 else 0 := by
  unfold solidVar
  cases p.nodaFillPolicy <;> rfl

theorem solidVar_lt (p : Params) (da : Bool) (ca : Byte) : solidVar p da ca < 4 := by
  cases da with
  | true =>
    rw [solidVar_true]
    decide
  | false =>
    rw [solidVar_false]
    split
    · decide
    · split <;> decide

/-- The three selectors of R174, by their bits [7:0]. -/
theorem solidSelector_eq (p : Params) (da : Bool) (ca : Byte) (f : Fam) :
    kselOf kindSolid da false (solidVar p da ca) f = BitVec.ofNat 10 (
      (if da = true then 0x009
       else if p.nodaFillPolicy = .alwaysOverwrite then 0x021
       else if ca.toNat = 255 then 0x021 else 0x001) + 0x100 * f.code) := by
  have hca : ca = 255 ↔ ca.toNat = 255 := BitVec.toNat_inj.symm
  cases da with
  | true => rfl
  | false =>
    simp only [solidVar_false, ← hca, Bool.false_eq_true, if_false]
    split_ifs <;> rfl

/-! ## What the `GET_*` commands answer (R174 to R177) -/

theorem decodeCmd_dispatch : decodeCmd 0x10 = .ok .getSolidPainter ∧ decodeCmd 0x11 = .ok .getSpanPainter ∧
    decodeCmd 0x12 = .ok .getSpanMaskPainter ∧ decodeCmd 0x13 = .ok .getSpanColorPainter := by
  simp only [decodeCmd_ok_iff]
  exact ⟨rfl, rfl, rfl, rfl⟩

theorem exec_getSolidPainter (s : State) : exec .getSolidPainter s = getPainter s fun c f =>
    kselOf kindSolid s.regs.kern.da false (solidVar s.cfg s.regs.kern.da (colorAt s.regs c)) f := rfl

theorem exec_getSpanPainter (s : State) : exec .getSpanPainter s = getPainter s fun _ f =>
    kselOf kindOver s.regs.kern.da s.regs.kern.sa (alphaClass s.regs.kern.alpha) f := rfl

theorem exec_getSpanMaskPainter (s : State) : exec .getSpanMaskPainter s = getPainter s fun _ f =>
    kselOf kindMask s.regs.kern.da s.regs.kern.sa 0 f := rfl

theorem exec_getSpanColorPainter (s : State) : exec .getSpanColorPainter s = getPainter s fun _ f =>
    kselOf kindColor s.regs.kern.da false 0 f := rfl

/-- An instruction that runs the course of the `GET_*` commands answers the whole next state for each outcome of the
count test and of `FAMSEL`. -/
theorem getPainter_answers {s : State} {i : Instr} {sel : Nat → Fam → BitVec 10} (hi : exec i s = getPainter s sel) :
    let c := s.regs.kern.count - s.regs.kern.da.toNat
    (¬ CountLegal s.cfg s.regs.kern.count → exec i s = .next (s.raise .precondition)) ∧
    (CountLegal s.cfg s.regs.kern.count → famSel s.cfg c = none →
      exec i s = .next ((s.setKsel 0).raise .unsupported)) ∧
    (CountLegal s.cfg s.regs.kern.count → ∀ f, famSel s.cfg c = some f →
      exec i s = .next (s.setKsel (sel c f)).finish) := by
  refine ⟨fun hn => ?_, fun hn hf => ?_, fun hn f hf => ?_⟩
  · rw [hi, getPainter_badCount (Bool.eq_false_iff.2 (mt (countOk_iff _ _).1 hn))]
  · rw [hi, getPainter_unsupported ((countOk_iff _ _).2 hn) hf]
  · rw [hi, getPainter_selects ((countOk_iff _ _).2 hn) hf]

/-- Settles O32: the course of the `GET_*` commands with the selector of `SOLIDSEL`. -/
theorem getSolidPainter : Obligations.GetSolidPainter := by
  obtain ⟨hdecode, -, -, -⟩ := decodeCmd_dispatch
  refine ⟨hdecode, fun s => ?_⟩
  obtain ⟨hcount, hfamily, hselect⟩ := getPainter_answers (exec_getSolidPainter s)
  refine ⟨hcount, hfamily, fun hn f hf => ?_⟩
  rw [hselect hn f hf, solidSelector_eq]
  rfl

/-- Settles O33: the course of the `GET_*` commands with the selectors of span-over, span-mask and span-color; a field a
selector leaves out adds 0. -/
theorem getSpanPainters : Obligations.GetSpanPainters := by
  obtain ⟨-, hover, hmask, hcolor⟩ := decodeCmd_dispatch
  refine ⟨hover, hmask, hcolor, fun s => ?_⟩
  obtain ⟨hcount, hfamily, hselect⟩ := getPainter_answers (exec_getSpanPainter s)
  obtain ⟨hcountMask, hfamilyMask, hselectMask⟩ := getPainter_answers (exec_getSpanMaskPainter s)
  obtain ⟨hcountColor, hfamilyColor, hselectColor⟩ := getPainter_answers (exec_getSpanColorPainter s)
  exact ⟨fun hn => ⟨hcount hn, hcountMask hn, hcountColor hn⟩,
    fun hn hf => ⟨hfamily hn hf, hfamilyMask hn hf, hfamilyColor hn hf⟩,
    fun hn f hf => ⟨hselect hn f hf, hselectMask hn f hf, hselectColor hn f hf⟩⟩

/-! ## The selector a `GET_*` command leaves (R124, R171, R179, R181) -/

/-- A selector of R88 for a destination with or without alpha, in the family `f`. -/
structure KernelFor (da : Bool) (f : Fam) (k : BitVec 10) : Prop where
  isKernel : ∃ i, decodeKsel k = .ok i
  kind : kselKind k ≠ 0
  destAlpha : kselDa k = da
  family : kselFam k = f

theorem kernelFor_kselOf {kind var : Nat} {da sa : Bool} {f : Fam} (h0 : kind ≠ 0) (hk : kind < 8) (hv : var < 4)
    (hd : ∃ i, decodeKsel (kselOf kind da sa var f) = .ok i) : KernelFor da f (kselOf kind da sa var f) where
  isKernel := hd
  kind := by rwa [kselKind_kselOf da sa f hk hv]
  destAlpha := kselDa_kselOf da sa f hk hv
  family := kselFam_kselOf da sa f hk hv

/-- A selector formed for a solid fill is a kernel (R174). -/
theorem decodeKsel_solid (p : Params) (da : Bool) (ca : Byte) (f : Fam) :
    ∃ i, decodeKsel (kselOf kindSolid da false (solidVar p da ca) f) = .ok i := by
  cases da with
  | true =>
    rw [solidVar_true]
    cases f <;> exact ⟨_, rfl⟩
  | false =>
    rw [solidVar_false]
    split
    · cases f <;> exact ⟨_, rfl⟩
    · split <;> cases f <;> exact ⟨_, rfl⟩

/-- A selector formed for span-color is a kernel (R177). -/
theorem decodeKsel_color (da : Bool) (f : Fam) : ∃ i, decodeKsel (kselOf kindColor da false 0 f) = .ok i := by
  cases da <;> cases f <;> exact ⟨_, rfl⟩

/-- The selector of each `GET_*` command is a kernel for `K_FLAGS.DA` and the family it is given. -/
theorem exec_get_forms {s : State} {i : Instr}
    (hi : i ∈ [Instr.getSolidPainter, .getSpanPainter, .getSpanMaskPainter, .getSpanColorPainter]) :
    ∃ sel, exec i s = getPainter s sel ∧ ∀ c f, KernelFor s.regs.kern.da f (sel c f) := by
  simp only [List.mem_cons, List.not_mem_nil, or_false] at hi
  obtain rfl | rfl | rfl | rfl := hi
  · exact ⟨_, exec_getSolidPainter s, fun _ _ =>
      kernelFor_kselOf (by decide) (by decide) (solidVar_lt ..) (decodeKsel_solid ..)⟩
  · exact ⟨_, exec_getSpanPainter s, fun _ _ =>
      kernelFor_kselOf (by decide) (by decide) (alphaClass_lt _) (decodeKsel_over ..)⟩
  · exact ⟨_, exec_getSpanMaskPainter s, fun _ _ =>
      kernelFor_kselOf (by decide) (by decide) (by decide) (decodeKsel_mask ..)⟩
  · exact ⟨_, exec_getSpanColorPainter s, fun _ _ =>
      kernelFor_kselOf (by decide) (by decide) (by decide) (decodeKsel_color ..)⟩

/-- A `GET_*` command that ends in `done` found the count legal and a family. -/
theorem getPainter_done {s t : State} {sel : Nat → Fam → BitVec 10} (h : getPainter s sel = .next t)
    (ht : t.status.done = true) :
    countOk s.cfg s.regs.kern.count = true ∧ ∃ f, famSel s.cfg (s.regs.kern.count - s.regs.kern.da.toNat) = some f ∧
      t = (s.setKsel (sel (s.regs.kern.count - s.regs.kern.da.toNat) f)).finish := by
  cases hn : countOk s.cfg s.regs.kern.count with
  | false =>
    cases (getPainter_badCount hn).symm.trans h
    simp at ht
  | true =>
    cases hf : famSel s.cfg (s.regs.kern.count - s.regs.kern.da.toNat) with
    | none =>
      cases (getPainter_unsupported hn hf).symm.trans h
      simp at ht
    | some f =>
      cases (getPainter_selects hn hf).symm.trans h
      exact ⟨rfl, f, rfl, rfl⟩

/-- A kernel whose family `FAMSEL` gives for the color channels passes every test of R124. -/
theorem runKernelFault_none {s : State} {da : Bool} {f : Fam} (hk : KernelFor da f s.regs.ksel)
    (hn : countOk s.cfg s.regs.kern.count = true) (hf : famSel s.cfg (s.regs.kern.count - da.toNat) = some f)
    (hw : s.regs.kern.w.getLsbD 31 = false) : runKernelFault s = none := by
  obtain ⟨⟨i, hi⟩, hkind, hda, hfam⟩ := hk
  have hformed : kselMalformed s.regs.ksel = false := by simp [kselMalformed, hi]
  simp only [runKernelFault, dimBad_eq, hw, hformed, hn, hkind, hda, hfam, famSel_fits hf, famSel_present hf,
    Bool.or_self, Bool.not_true, Bool.false_eq_true, if_false]

/-- `RUN_KERNEL` whose tests pass leaves `FAULT`. -/
theorem exec_runKernel_keepsFault {s : State} (h : runKernelFault s = none) :
    ∃ t, exec .runKernel s = .next t ∧ t.status.fault = s.status.fault := by
  by_cases hw : dim s.regs.kern.w = 0
  · exact ⟨_, exec_runKernel_empty h hw, rfl⟩
  · exact ⟨_, exec_runKernel_span h hw, rfl⟩

/-- Settles O34: the selector left is a kernel of the family `FAMSEL` gave for the same count and destination alpha,
and that is what `RUN_KERNEL` tests; the mux tree is taken branch by branch. -/
theorem selectedKernelRuns : Obligations.SelectedKernelRuns := by
  refine ⟨fun s t u i hi h ht _ hcfg hksel hcount hw => ?_, famSel_eq_some_iff, famSel_eq_none_iff⟩
  obtain ⟨sel, hexec, hkernel⟩ := exec_get_forms (s := s) hi
  obtain ⟨hn, f, hf, rfl⟩ := getPainter_done (hexec ▸ h) ht
  replace hcfg : u.cfg = s.cfg := hcfg
  replace hcount : u.regs.kern.count = s.regs.kern.count := congrArg BitVec.toNat hcount
  have hk : KernelFor s.regs.kern.da f u.regs.ksel := hksel ▸ hkernel _ f
  rw [← hcfg, ← hcount] at hn hf
  exact exec_runKernel_keepsFault (runKernelFault_none hk hn hf hw)

end Sys2Proof.Machine
end

section
/-! The statements of 43_orchestration.md: rectangles, what the `PAINT_OVER*` commands answer, the row iterator, and a
`PAINT_OVER` to its end. -/

namespace Sys2Proof.Machine

open Sys2Proof

/-! ## Rectangles (R191) -/

theorem Rect.inter_comm (a b : Rect) : a.inter b = b.inter a := by
  simp only [Rect.inter, max_comm, min_comm]

theorem Rect.inter_assoc (a b c : Rect) : (a.inter b).inter c = a.inter (b.inter c) := by
  simp only [Rect.inter, max_assoc, min_assoc]

/-- Intersecting moves no lower edge down and no upper edge up. -/
theorem Rect.inter_isEmpty {a : Rect} (b : Rect) (h : a.isEmpty = true) : (a.inter b).isEmpty = true := by
  rw [rect_empty_iff] at h ⊢
  exact h.imp (fun hx => (min_le_left _ _).trans (hx.trans (le_max_left _ _)))
    (fun hy => (min_le_left _ _).trans (hy.trans (le_max_left _ _)))

/-- The two edges in each direction are in order exactly when the box is not empty. -/
theorem rect_nonempty_iff (r : Rect) : r.isEmpty = false ↔ r.x0 < r.x1 ∧ r.y0 < r.y1 := by
  rw [← Bool.not_eq_true, rect_empty_iff, not_or, not_le, not_le]

/-- The dimensions of a descriptor the block accepts are whole registers. -/
theorem Desc.bounds_eq {d : Desc} (h : ¬ d.Malformed) :
    d.bounds = ⟨d.x.toInt, d.x.toInt + d.width.toNat, d.y.toInt, d.y.toInt + d.height.toNat⟩ := by
  obtain ⟨hw, hh⟩ := not_or.1 h
  rw [Desc.bounds, dim_eq_toNat (Bool.eq_false_iff.2 hw), dim_eq_toNat (Bool.eq_false_iff.2 hh)]
  rfl

/-- Settles O50: edge by edge these are the laws of `max` and `min`. -/
theorem intersectionLaws : Obligations.IntersectionLaws := by
  intro a b c
  refine ⟨a.inter_comm b, a.inter_assoc b c, rect_empty_iff a, fun h => ⟨a.inter_isEmpty b h, ?_⟩, rfl,
    fun d hw hh => Desc.bounds_eq (not_or.2 ⟨Bool.eq_false_iff.1 hw, Bool.eq_false_iff.1 hh⟩)⟩
  rw [b.inter_comm a]
  exact a.inter_isEmpty b h

/-! ## The tests of the `PAINT_OVER*` commands (R196, R198) -/

theorem Desc.dimsBad_iff (d : Desc) : d.dimsBad = true ↔ d.Malformed := by
  simp only [Desc.dimsBad, Bool.or_eq_true, dimBad_eq]

/-- Three tests in order, by the first that fails. -/
theorem shapeTests_cases {bad1 bad2 bad3 : Prop} [Decidable bad1] [Decidable bad2] [Decidable bad3]
    {o : Option FaultCode} (h : o = if bad1 then some .illegalOperand else if bad2 then some .precondition
      else if bad3 then some .precondition else none) :
    (bad1 → o = some .illegalOperand) ∧ (¬ bad1 → bad2 → o = some .precondition) ∧
    (¬ bad1 → ¬ bad2 → bad3 → o = some .precondition) ∧ (¬ bad1 → ¬ bad2 → ¬ bad3 → o = none) :=
  ⟨fun b1 => by rw [h, if_pos b1], fun b1 b2 => by rw [h, if_neg b1, if_pos b2],
    fun b1 b2 b3 => by rw [h, if_neg b1, if_neg b2, if_pos b3],
    fun b1 b2 b3 => by rw [h, if_neg b1, if_neg b2, if_neg b3]⟩

/-- The tests on destination and source, each in the place R196 gives it. -/
theorem overFault_tests (s : State) :
    let d := s.regs.dst
    let r := s.regs.src
    let bad1 := d.Malformed ∨ r.Malformed
    let bad2 := ¬ CountLegal s.cfg d.n ∨ ¬ CountLegal s.cfg r.n
    let bad3 := d.colors ≠ r.colors
    (bad1 → overFault s = some .illegalOperand) ∧ (¬ bad1 → bad2 → overFault s = some .precondition) ∧
    (¬ bad1 → ¬ bad2 → bad3 → overFault s = some .precondition) ∧
    (¬ bad1 → ¬ bad2 → ¬ bad3 → overFault s = none) := by
  intro d r bad1 bad2 bad3
  have h1 : (d.dimsBad || r.dimsBad) = true ↔ bad1 := by
    rw [Bool.or_eq_true, d.dimsBad_iff, r.dimsBad_iff]
  have h2 : (!countOk s.cfg d.n || !countOk s.cfg r.n) = true ↔ bad2 := by
    rw [Bool.or_eq_true, countBad_iff, countBad_iff]
  refine shapeTests_cases ?_
  simp only [overFault, ← h1, ← h2]
  rfl

/-- The tests on destination, source and mask, each in the place R198 gives it. -/
theorem overMaskFault_tests (s : State) :
    let d := s.regs.dst
    let r := s.regs.src
    let k := s.regs.msk
    let bad1 := d.Malformed ∨ r.Malformed ∨ k.Malformed
    let bad2 := ¬ CountLegal s.cfg d.n ∨ ¬ CountLegal s.cfg r.n ∨ ¬ CountLegal s.cfg k.n
    let bad3 := d.n ≠ r.n ∨ k.n ≠ 1 ∨ d.ha ≠ r.ha
    (bad1 → overMaskFault s = some .illegalOperand) ∧ (¬ bad1 → bad2 → overMaskFault s = some .precondition) ∧
    (¬ bad1 → ¬ bad2 → bad3 → overMaskFault s = some .precondition) ∧
    (¬ bad1 → ¬ bad2 → ¬ bad3 → overMaskFault s = none) := by
  intro d r k bad1 bad2 bad3
  have h1 : (d.dimsBad || r.dimsBad || k.dimsBad) = true ↔ bad1 := by
    rw [Bool.or_eq_true, Bool.or_eq_true, d.dimsBad_iff, r.dimsBad_iff, k.dimsBad_iff, or_assoc]
  have h2 : (!countOk s.cfg d.n || !countOk s.cfg r.n || !countOk s.cfg k.n) = true ↔ bad2 := by
    rw [Bool.or_eq_true, Bool.or_eq_true, countBad_iff, countBad_iff, countBad_iff, or_assoc]
  have h3 : (decide (d.n ≠ r.n) || decide (k.n ≠ 1) || d.ha != r.ha) = true ↔ bad3 := by
    rw [Bool.or_eq_true, Bool.or_eq_true, decide_eq_true_eq, decide_eq_true_eq, bne_iff_ne, or_assoc]
  refine shapeTests_cases ?_
  simp only [overMaskFault, ← h1, ← h2, ← h3]
  rfl

theorem exec_paintOver_fault {s : State} {c : FaultCode} (h : overFault s = some c) :
    exec .paintOver s = .next (s.raise c) := by
  simp only [exec, execPaintOver, h]

theorem exec_paintOverClipped_fault {s : State} {c : FaultCode} (h : overFault s = some c) :
    exec .paintOverClipped s = .next (s.raise c) := by
  simp only [exec, execPaintOverClipped, h]

theorem exec_paintOverMask_fault {s : State} {c : FaultCode} (h : overMaskFault s = some c) :
    exec .paintOverMask s = .next (s.raise c) := by
  simp only [exec, execPaintOverMask, h]

/-! ## The rectangle and its first row (R194, R195) -/

/-- The rows of a rectangle under a selector of the numbers `k`, the mask pointer being `mp` whatever the family is. -/
theorem paintRows_paintsRect {s : State} {rect : Rect} {ds : List Desc} {sel : Fam → BitVec 10} {k : Fam → Nat} {mp : Nat}
    (hsel : ∀ f, sel f = BitVec.ofNat 10 (k f))
    (hmp : ∀ f, (if kselKind (sel f) = kindMask then s.regs.msk.addr s.cfg rect.x0 rect.y0 else 0) = mp) :
    PaintsRect s rect ds k mp (paintRows s rect ds sel) := by
  have hne (hx : rect.x0 < rect.x1) (hy : rect.y0 < rect.y1) : rect.isEmpty = false :=
    (rect_nonempty_iff rect).2 ⟨hx, hy⟩
  refine ⟨fun h => paintRows_empty ((rect_empty_iff rect).2 h), fun hx hy hf => paintRows_unsupported (hne hx hy) hf,
    fun hx hy f hf hd => ?_⟩
  rw [paintRows_starts (hne hx hy) hf hd, firstRow, hmp, hsel, pixelAddr_eq, pixelAddr_eq]

/-- A span-over selector names no mask, so the mask pointer of its rows is the model's 0 (log 30). -/
theorem overSel_noMask (s : State) (f : Fam) (a : Nat) : (if kselKind (overSel s f) = kindMask then a else 0) = 0 := by
  rw [overSel, kselKind_kselOf _ _ _ (by decide) (alphaClass_lt _)]
  exact if_neg (by decide)

theorem overMaskSel_mask (s : State) (f : Fam) (a : Nat) : (if kselKind (overMaskSel s f) = kindMask then a else 0) = a := by
  rw [overMaskSel, kselKind_kselOf _ _ _ (by decide) (by decide)]
  exact if_pos rfl

theorem overRect_eq {s : State} (h : ¬ (s.regs.dst.Malformed ∨ s.regs.src.Malformed)) : overRect s =
    let d := s.regs.dst
    let r := s.regs.src
    ⟨max d.x.toInt r.x.toInt, min (d.x.toInt + d.width.toNat) (r.x.toInt + r.width.toNat),
      max d.y.toInt r.y.toInt, min (d.y.toInt + d.height.toNat) (r.y.toInt + r.height.toNat)⟩ := by
  obtain ⟨hd, hr⟩ := not_or.1 h
  rw [overRect, Desc.bounds_eq hd, Desc.bounds_eq hr]
  rfl

/-- Settles O46: the faults are those of `overFault`, and past them the rows are those of `overRect`. -/
theorem paintOver : Obligations.PaintOver := by
  intro s d r bad1 bad2 bad3
  obtain ⟨hdims, hcounts, hcolors, hpass⟩ := overFault_tests s
  refine ⟨fun b1 => exec_paintOver_fault (hdims b1), fun b1 b2 => exec_paintOver_fault (hcounts b1 b2),
    fun b1 b2 b3 => exec_paintOver_fault (hcolors b1 b2 b3), fun b1 b2 b3 => ?_⟩
  rw [exec_paintOver (hpass b1 b2 b3), overRect_eq b1]
  exact paintRows_paintsRect (fun _ => rfl) (fun f => overSel_noMask s f _)

/-- Settles O47: as O46, the clip intersected with `overRect`. -/
theorem paintOverClipped : Obligations.PaintOverClipped := by
  intro s d r k bad1 bad2 bad3
  obtain ⟨hdims, hcounts, hcolors, hpass⟩ := overFault_tests s
  refine ⟨fun b1 => exec_paintOverClipped_fault (hdims b1), fun b1 b2 => exec_paintOverClipped_fault (hcounts b1 b2),
    fun b1 b2 b3 => exec_paintOverClipped_fault (hcolors b1 b2 b3), fun b1 b2 b3 => ?_⟩
  rw [exec_paintOverClipped (hpass b1 b2 b3), overRect_eq b1]
  exact paintRows_paintsRect (fun _ => rfl) (fun f => overSel_noMask s f _)

/-- Settles O48: the faults are those of `overMaskFault`; the mask's bounds are intersected with `overRect`. -/
theorem paintOverMask : Obligations.PaintOverMask := by
  intro s d r k bad1 bad2 bad3 rect
  obtain ⟨hdims, hcounts, hshape, hpass⟩ := overMaskFault_tests s
  refine ⟨fun b1 => exec_paintOverMask_fault (hdims b1), fun b1 b2 => exec_paintOverMask_fault (hcounts b1 b2),
    fun b1 b2 b3 => exec_paintOverMask_fault (hshape b1 b2 b3), fun b1 b2 b3 => ?_⟩
  have hrect : (overRect s).inter k.bounds = rect := by
    rw [overRect_eq (fun h => b1 (h.imp_right .inl)), Desc.bounds_eq (fun h => b1 (.inr (.inr h)))]
    rfl
  rw [exec_paintOverMask (hpass b1 b2 b3), hrect]
  exact paintRows_paintsRect (fun _ => rfl) (fun f => (overMaskSel_mask s f _).trans (pixelAddr_eq ..).symm)

/-! ## From row to row (R193, R195) -/

theorem endSpan_advances {s : State} {q : Seq} (h : q.y + 1 < q.rect.y1) :
    endSpan s q = s.proceed (.spans (nextRow s q)) := if_pos h

theorem endSpan_finishes {s : State} {q : Seq} (h : q.rect.y1 ≤ q.y + 1) : endSpan s q = s.finish := if_neg (not_lt.2 h)

theorem proceed_of_eng {s : State} {w : Word} {act : Activity} (h : s.eng = some ⟨w, act⟩) (act' : Activity) :
    s.proceed act' = s.setEng (some ⟨w, act'⟩) := by
  simp only [State.proceed, h, Option.map_some]

/-- Settles O49: the two ends of a span. -/
theorem rowsAdvance : Obligations.RowsAdvance := by
  intro s w q he
  refine ⟨fun h => ?_, fun h => endSpan_finishes h⟩
  rw [endSpan_advances h, proceed_of_eng he, nextRow, kselKind_eq_mod]
  simp only [pixelAddr_eq]
  rfl

/-! ## The addresses of a row (R192, R199) -/

/-- An offset on from a reduced address is an offset in the exact expression. -/
theorem addrPlus_addrOf (p : Params) (e : Int) (k : Nat) : addrPlus p (addrOf p e) k = addrOf p (e + k) := by
  have hM : (0 : Int) < (2 ^ p.addrW : Nat) := by exact_mod_cast Nat.two_pow_pos p.addrW
  have he := Int.toNat_of_nonneg (Int.emod_nonneg e hM.ne')
  have hek := Int.toNat_of_nonneg (Int.emod_nonneg (e + k) hM.ne')
  apply Int.ofNat_inj.1
  rw [addrPlus, addrOf, addrOf, hek, Int.natCast_emod, Int.natCast_add, he, Int.emod_add_emod]

/-- Byte `k` of the pixel `j` on from `(x, y)` in the row of `d`. -/
theorem addrPlus_pixelAddr (p : Params) (d : Desc) (x y : Int) (j k : Nat) :
    addrPlus p (pixelAddr p d x y) (d.n * j + k) = addrPlus p (pixelAddr p d (x + j) y) k := by
  simp only [pixelAddr_eq, Desc.addr, addrPlus_addrOf]
  congr 1
  push_cast
  ring

/-- Every byte of a region of `L` pixels is byte `k` of its pixel `j`. -/
theorem pixel_index_of_lt {t L n : Nat} (h : t < L * n) : ∃ j k, j < L ∧ k < n ∧ t = n * j + k := by
  have hn : 0 < n := Nat.pos_of_lt_mul_left h
  exact ⟨t / n, t % n, (Nat.div_lt_iff_lt_mul hn).2 h, Nat.mod_lt _ hn, (Nat.div_add_mod t n).symm⟩

/-- Settles O51: a changed byte lies in the row's destination region, as byte `k` of the pixel `j` on from the row's first. -/
theorem paintWritesInsideTheRectangle : Obligations.PaintWritesInsideTheRectangle := by
  intro s t w q hi hwf he hdp hq0 hw hn hn1 h a ha
  obtain ⟨-, hspan, -⟩ := blockWritesOnlyDestination s t hi hwf h
  obtain ⟨t, ht, rfl⟩ : Region s.cfg q.dp (spanLen q * q.n) a := by
    by_contra hout
    exact ha (hspan w q he hn1 a hout)
  obtain ⟨j, k, hj, hk, rfl⟩ := pixel_index_of_lt ht
  rw [spanLen, hq0, hw] at hj
  rw [hn] at hk
  exact ⟨q.rect.x0 + j, k, by omega, by omega, hk, by rw [hdp, hn, addrPlus_pixelAddr]⟩

/-! ## A row as a `RUN_KERNEL` (R202) -/

/-- A span whose pixels go through ends. -/
theorem runSpan_through {op : PixelOp} {s : State} {w : Word} {q : Seq} {m : Pixmem} (he : s.eng = some ⟨w, .spans q⟩)
    (hm : upto (op s q) (spanLen q) s.px = .ok m) : runSpan op s = .next (endSpan (s.setPx m) q) := by
  rw [spanLen] at hm
  simp only [runSpan, he, hm]

/-- A `RUN_KERNEL` whose tests pass and whose pixels go through is done after its span. -/
theorem run_runKernel {s : State} {i : Instr} {op : PixelOp} {m : Pixmem} (hi : s.inputs = [])
    (he : s.eng = some ⟨0x20, .start⟩) (hfault : runKernelFault s = none) (hw : dim s.regs.kern.w ≠ 0)
    (hk : decodeKsel s.regs.ksel = .ok i) (hexec : ∀ u, exec i u = runSpan op u)
    (hm : upto (op (s.proceed (.spans (runKernelSpan s))) (runKernelSpan s)) (spanLen (runKernelSpan s)) s.px = .ok m) :
    Host.Core.run Sys2Proof.core 2 s = .next (s.setPx m).finish := by
  have hstart : step s = .next (s.proceed (.spans (runKernelSpan s))) := by
    rw [step_quiet hi, engineStep_command he decodeCmd_runKernel, exec_runKernel_span hfault hw]
  have heng : (s.proceed (.spans (runKernelSpan s))).eng = some ⟨0x20, .spans (runKernelSpan s)⟩ := by simp [he]
  have hspan : step (s.proceed (.spans (runKernelSpan s))) = .next (s.setPx m).finish := by
    rw [step_quiet (s := s.proceed (.spans (runKernelSpan s))) hi, engineStep_span heng hk, hexec,
      runSpan_through heng hm, endSpan_runKernel]
    rfl
  rw [run_next hstart, run_next hspan]
  rfl

/-- Settles O52: the kernel's pixels replay those of the row, on a memory that has the same bytes and logs nothing. -/
theorem paintRowEqualsRunKernel : Obligations.PaintRowEqualsRunKernel := by
  intro s t s' w q hinv hsi hti hse hte hcfg hcells hdraws hlog hksel hdp hsp hmp hw hw31 hn halpha hcolor hfault hstep
  obtain ⟨⟨i, hi⟩, hq0, hw1, -, -, -⟩ := hinv w q hse
  obtain ⟨op, hop, hexec⟩ := decodeKsel_replays hi
  rw [step_quiet hsi, engineStep_span hse hi, hexec] at hstep
  obtain ⟨w', q', m, he', hm, rfl⟩ := runSpan_next hstep
  cases hse.symm.trans he'
  have hdim : dim t.regs.kern.w = q.w := by rw [dim_eq_mod, hw, Nat.mod_eq_of_lt hw31]
  have hlen : spanLen (runKernelSpan t) = spanLen q := by simp [spanLen, runKernelSpan, hq0, hdim]
  obtain ⟨m', hm', hmirror⟩ := upto_replays
    (fun j => hop s (t.proceed (.spans (runKernelSpan t))) q (runKernelSpan t) j hcfg hcolor halpha hn hdp hsp hmp)
    s.px t.px m (Mirror.of_empty hcells hdraws hlog) hm
  rw [← hlen] at hm'
  have hrun := run_runKernel hti hte hfault (by omega) (hksel ▸ hi) hexec hm'
  refine ⟨_, hrun, ?_, rfl, rfl⟩
  rw [endSpan_px]
  exact hmirror.cells

/-! ## The kernel of a span-over row (R134 to R145, R194) -/

theorem kselSa_kselOf {kind var : Nat} (da sa : Bool) (f : Fam) (hk : kind < 8) (hv : var < 4) :
    (kselOf kind da sa var f).getLsbD 4 = sa := by
  have hd := da.toNat_lt
  have hs := sa.toNat_lt
  have hbit : (kselOf kind da sa var f).toNat / 2 ^ 4 % 2 = sa.toNat := by
    rw [kselOf_toNat da sa f hk hv]
    omega
  rw [BitVec.getLsbD, Nat.testBit_eq_decide_div_mod_eq, hbit]
  cases sa <;> rfl

/-- The rows of R88 of kind SPAN_OVER skip, or run `OVER_PIXEL` with one of the two plane weights. -/
theorem rowPixel_over {n : Nat} (h : n % 8 = 2) :
    rowPixel n = skipPixel ∨ ∃ pw, rowPixel n = overSpanPixel (n.testBit 3) (n.testBit 4) pw := by
  unfold rowPixel
  rw [h]
  split
  · omega
  · omega
  · exact .inr ⟨_, rfl⟩
  · exact .inr ⟨_, rfl⟩
  · omega
  · omega
  · exact .inl rfl

/-- A span-over kernel on a ready span: it accesses its source and its destination and changes its destination only. -/
theorem exec_over_does {s : State} {w : Word} {q : Seq} {i : Instr} (he : s.eng = some ⟨w, .spans q⟩)
    (hi : decodeKsel q.k = .ok i) (hkind : kselKind q.k = kindOver) (hn : 1 ≤ q.n) (hD : SpanDst s q)
    (hS : SpanSrc s q (spanColors q (kselDa q.k) + (q.k.getLsbD 4).toNat)) :
    ∃ m, exec i s = .next (endSpan (s.setPx m) q) ∧ m.wf = true ∧
      Touched q.y (Region s.cfg q.dp (spanLen q * q.n))
        (Region s.cfg q.sp (spanLen q * (spanColors q (kselDa q.k) + (q.k.getLsbD 4).toNat))) s.px.log m.log ∧
      KeepsOutside s.cfg q.dp (spanLen q * q.n) s.px.byte m.byte := by
  have hrow : q.k.toNat % 256 % 8 = 2 := by
    rw [kselKind_eq_mod, kindOver] at hkind
    omega
  rw [exec_decodeKsel hi]
  obtain hop | ⟨pw, hop⟩ := rowPixel_over hrow
  · obtain ⟨hwf, -⟩ := hD
    exact ⟨s.px, by rw [hop, skip_span he]; rfl, hwf, Touched.refl _ _ _ _, fun _ _ => rfl⟩
  · rw [testBit_row q.k (by decide), testBit_row q.k (by decide)] at hop
    obtain ⟨m, hrun, ⟨hwf, ht⟩, hkeep, -⟩ := over_does _ _ pw he hn hD hS
    refine ⟨m, by rw [hop]; exact hrun, hwf, ht.mono (fun _ hx => hx) (fun x hx => hx.elim id ?_), hkeep⟩
    rintro ⟨t, ht, -⟩
    exact absurd ht (Nat.not_lt_zero t)

/-! ## The rows of a rectangle (R192, R195, R199) -/

/-- The bytes of the destination pixels of row `y` inside the rectangle. -/
def RowDst (s : State) (r : Rect) (y : Int) : Nat → Prop :=
  Region s.cfg (s.regs.dst.addr s.cfg r.x0 y) ((r.x1 - r.x0).toNat * s.regs.dst.n)

/-- The bytes of the source pixels of row `y` inside the rectangle. -/
def RowSrc (s : State) (r : Rect) (y : Int) : Nat → Prop :=
  Region s.cfg (s.regs.src.addr s.cfg r.x0 y) ((r.x1 - r.x0).toNat * s.regs.src.n)

/-- The sequencer at the start of row `y` of a rectangle. -/
def rowAt (s : State) (k : BitVec 10) (r : Rect) (y : Int) : Seq :=
  { firstRow s k r with
    y := y
    dp := s.regs.dst.addr s.cfg r.x0 y
    sp := s.regs.src.addr s.cfg r.x0 y
    mp := if kselKind k = kindMask then s.regs.msk.addr s.cfg r.x0 y else 0 }

/-- A command of `s` at row `y`, the rows above having left the memory `m`. -/
def State.atRow (s : State) (k : BitVec 10) (r : Rect) (y : Int) (m : Pixmem) : State :=
  (s.setPx m).proceed (.spans (rowAt s k r y))

theorem nextRow_rowAt {s u : State} (hcfg : u.cfg = s.cfg) (hregs : u.regs = s.regs) (k : BitVec 10) (r : Rect) (y : Int) :
    nextRow u (rowAt s k r y) = rowAt s k r (y + 1) := by
  simp only [nextRow, rowAt, firstRow, hcfg, hregs]
  split <;> rfl

theorem proceed_proceed (s : State) (act act' : Activity) : (s.proceed act).proceed act' = s.proceed act' := by
  simp only [State.proceed, State.setEng, Option.map_map]
  rfl

/-- After row `y` comes row `y + 1`, or the command is done. -/
theorem endSpan_atRow (s : State) (k : BitVec 10) (r : Rect) (y : Int) (m : Pixmem) :
    endSpan (s.atRow k r y m) (rowAt s k r y) = if y + 1 < r.y1 then s.atRow k r (y + 1) m else (s.setPx m).finish := by
  by_cases hy : y + 1 < r.y1
  · rw [if_pos hy, endSpan_advances (q := rowAt s k r y) hy, nextRow_rowAt (s := s) (u := s.atRow k r y m) rfl rfl]
    exact proceed_proceed _ _ _
  · rw [if_neg hy, endSpan_finishes (q := rowAt s k r y) (not_lt.1 hy)]
    rfl

/-- What lets the rows of a rectangle go through: all of memory is backed (R69), a destination row fits the address space,
and destination rows share no byte with each other (R201) nor with a source row (R75). -/
structure RowsApart (s : State) (r : Rect) : Prop where
  backed : ∀ a, a < 2 ^ s.cfg.addrW → isBacked s.cfg a = true
  fits : (r.x1 - r.x0).toNat * s.regs.dst.n ≤ 2 ^ s.cfg.addrW
  dst : ∀ y y', r.y0 ≤ y → y < r.y1 → r.y0 ≤ y' → y' < r.y1 → y ≠ y' → ∀ a, RowDst s r y a → ¬ RowDst s r y' a
  src : ∀ y y', r.y0 ≤ y → y < r.y1 → r.y0 ≤ y' → y' < r.y1 → ∀ a, RowDst s r y a → ¬ RowSrc s r y' a

/-- Every logged access is one of a row above `y`. -/
def RowsLogged (s : State) (r : Rect) (y : Int) (L : List Access) : Prop :=
  ∀ a k, ⟨a, k⟩ ∈ L → ∃ z, r.y0 ≤ z ∧ z < y ∧
    (k = .srcRead ∧ RowSrc s r z a ∨ (k = .dstRead z ∨ k = .dstWrite z) ∧ RowDst s r z a)

section
variable {s : State} {r : Rect} {y : Int}

/-- The accesses of row `y` are accesses of a row above `y + 1`. -/
theorem RowsLogged.next {L L' : List Access} (h : RowsLogged s r y L) (hy : r.y0 ≤ y)
    (ht : Touched y (RowDst s r y) (RowSrc s r y) L L') : RowsLogged s r (y + 1) L' := by
  obtain ⟨es, rfl, hes⟩ := ht
  intro a k hk
  rcases List.mem_append.1 hk with hk | hk
  · exact ⟨y, hy, by omega, hes _ hk⟩
  · obtain ⟨z, hz0, hzy, hz⟩ := h a k hk
    exact ⟨z, hz0, by omega, hz⟩

variable {m : Pixmem} (h : RowsApart s r) (hl : RowsLogged s r y m.log) (hy0 : r.y0 ≤ y) (hy1 : y < r.y1)
include h hl hy0 hy1

/-- No row above has accessed a destination byte of row `y`. -/
theorem RowsApart.dst_clear {a : Nat} (ha : RowDst s r y a) (k : AccessKind) : m.clashAt k a = none := by
  refine clashAt_none_iff.2 fun k' hk' => ?_
  obtain ⟨z, hz0, hzy, ⟨-, hsrc⟩ | ⟨-, hdst⟩⟩ := hl a k' hk'
  · exact absurd hsrc (h.src y z hy0 hy1 hz0 (by omega) a ha)
  · exact absurd hdst (h.dst y z hy0 hy1 hz0 (by omega) (by omega) a ha)

/-- The rows above have at most read a source byte of row `y`. -/
theorem RowsApart.src_clear {a : Nat} (ha : RowSrc s r y a) : m.clashAt .srcRead a = none := by
  refine clashAt_none_iff.2 fun k' hk' => ?_
  obtain ⟨z, hz0, hzy, ⟨rfl, -⟩ | ⟨-, hdst⟩⟩ := hl a k' hk'
  · rfl
  · exact absurd ha (h.src z y hz0 (by omega) hy0 hy1 a hdst)

/-- Row `y` is ready once the rows above are painted. -/
theorem RowsApart.ready (hwf : m.wf = true) :
    DstReady s.cfg m y (s.regs.dst.addr s.cfg r.x0 y) ((r.x1 - r.x0).toNat * s.regs.dst.n) ∧
    SrcReady s.cfg m (s.regs.dst.addr s.cfg r.x0 y) ((r.x1 - r.x0).toNat * s.regs.dst.n)
      (s.regs.src.addr s.cfg r.x0 y) ((r.x1 - r.x0).toNat * s.regs.src.n) := by
  have hdst (k : AccessKind) :
      Open s.cfg m k (s.regs.dst.addr s.cfg r.x0 y) ((r.x1 - r.x0).toNat * s.regs.dst.n) := fun t ht =>
    ⟨h.backed _ (addrPlus_lt ..), h.dst_clear hl hy0 hy1 ⟨t, ht, rfl⟩ k⟩
  exact ⟨⟨hwf, h.fits, hdst _, hdst _⟩,
    fun t ht => ⟨h.backed _ (addrPlus_lt ..), h.src_clear hl hy0 hy1 ⟨t, ht, rfl⟩⟩,
    fun t ht u hu e => h.src y y hy0 hy1 hy0 hy1 _ ⟨t, ht, rfl⟩ ⟨u, hu, e⟩⟩

end

/-! ## `PAINT_OVER` to its end (R195, R196, R199, R243) -/

theorem decodeCmd_paintOver : decodeCmd 0x30 = .ok .paintOver := (decodeCmd_ok_iff _ _).2 rfl

/-- The shapes a `PAINT_OVER` accepts. -/
theorem overFault_shapes {s : State} (h : overFault s = none) :
    CountLegal s.cfg s.regs.dst.n ∧ CountLegal s.cfg s.regs.src.n ∧ s.regs.dst.colors = s.regs.src.colors := by
  obtain ⟨hdims, hcounts, hcolors, -⟩ := overFault_tests s
  simp only [h, reduceCtorEq, imp_false] at hdims hcounts hcolors
  have b2 := hcounts hdims
  obtain ⟨hd, hr⟩ := not_or.1 b2
  exact ⟨not_not.1 hd, not_not.1 hr, not_not.1 (hcolors hdims b2)⟩

/-- The kernel of a row steps over the source by whole source pixels (R120). -/
theorem overRow_stride {s : State} (h : overFault s = none) (f : Fam) (r : Rect) (y : Int) :
    spanColors (rowAt s (overSel s f) r y) (kselDa (overSel s f)) + ((overSel s f).getLsbD 4).toNat = s.regs.src.n := by
  obtain ⟨-, ⟨hsrc, -⟩, hcolors⟩ := overFault_shapes h
  have hsa := s.regs.src.ha.toNat_lt
  rw [overSel, kselDa_kselOf _ _ _ (by decide) (alphaClass_lt _), kselSa_kselOf _ _ _ (by decide) (alphaClass_lt _)]
  calc s.regs.dst.colors + s.regs.src.ha.toNat
    _ = s.regs.src.n - s.regs.src.ha.toNat + s.regs.src.ha.toNat := by rw [hcolors, Desc.colors]
    _ = s.regs.src.n := by omega

section
variable {s : State} {r : Rect} {w : Word} {act : Activity} (f : Fam) (hi : s.inputs = []) (he : s.eng = some ⟨w, act⟩)
  (hfault : overFault s = none) (h : RowsApart s r)
include hi he hfault h

/-- A row of a `PAINT_OVER` goes through, changes no byte outside it, and hands on to the next row or ends the command. -/
theorem step_overRow {y : Int} {m : Pixmem} (hwf : m.wf = true) (hl : RowsLogged s r y m.log) (hy0 : r.y0 ≤ y)
    (hy1 : y < r.y1) :
    ∃ m', step (s.atRow (overSel s f) r y m) =
        .next (if y + 1 < r.y1 then s.atRow (overSel s f) r (y + 1) m' else (s.setPx m').finish) ∧
      m'.wf = true ∧ RowsLogged s r (y + 1) m'.log ∧ ∀ a, ¬ RowDst s r y a → m'.byte a = m.byte a := by
  obtain ⟨i, hk⟩ := decodeKsel_over s.regs.dst.ha s.regs.src.ha s.regs.kern.alpha f
  obtain ⟨⟨hn, -⟩, -, -⟩ := overFault_shapes hfault
  have heng : (s.atRow (overSel s f) r y m).eng = some ⟨w, .spans (rowAt s (overSel s f) r y)⟩ := by
    simp [State.atRow, he]
  have hkind : kselKind (overSel s f) = kindOver := kselKind_kselOf _ _ _ (by decide) (alphaClass_lt _)
  obtain ⟨hD, hS⟩ := h.ready hl hy0 hy1 hwf
  rw [← overRow_stride hfault f r y] at hS
  obtain ⟨m', hrun, hwf', ht, hkeep⟩ := exec_over_does heng hk hkind hn hD hS
  rw [show (rowAt s (overSel s f) r y).k = overSel s f from rfl, overRow_stride hfault f r y] at ht
  refine ⟨m', ?_, hwf', hl.next hy0 ht, hkeep⟩
  rw [step_quiet (s := s.atRow (overSel s f) r y m) hi, engineStep_span heng hk, hrun, ← endSpan_atRow]
  rfl

/-- The rows from `y` on end the command and change no byte outside the rows of the rectangle. -/
theorem run_overRows (n : Nat) {y : Int} {m : Pixmem} (hn : (r.y1 - y).toNat = n) (hwf : m.wf = true)
    (hl : RowsLogged s r y m.log) (hy0 : r.y0 ≤ y) (hy1 : y < r.y1) :
    ∃ m', Host.Core.run Sys2Proof.core n (s.atRow (overSel s f) r y m) = .next (s.setPx m').finish ∧ m'.wf = true ∧
      ∀ a, (∀ z, r.y0 ≤ z → z < r.y1 → ¬ RowDst s r z a) → m'.byte a = m.byte a := by
  induction n generalizing y m with
  | zero => omega
  | succ n ih =>
    obtain ⟨m1, hstep, hwf1, hl1, hkeep1⟩ := step_overRow f hi he hfault h hwf hl hy0 hy1
    by_cases hlast : y + 1 < r.y1
    · rw [if_pos hlast] at hstep
      obtain ⟨m2, hrun, hwf2, hkeep2⟩ := ih (by omega) hwf1 hl1 (by omega) hlast
      exact ⟨m2, by rw [run_next hstep, hrun], hwf2,
        fun a ha => (hkeep2 a ha).trans (hkeep1 a (ha y hy0 hy1))⟩
    · rw [if_neg hlast] at hstep
      obtain rfl : n = 0 := by omega
      exact ⟨m1, by rw [run_next hstep]; rfl, hwf1, fun a ha => hkeep1 a (ha y hy0 hy1)⟩

end

theorem not_region_of_apart {p : Params} {a la b lb x : Nat} (h : Apart p a la b lb) (hx : Region p a la x) :
    ¬ Region p b lb x := by
  obtain ⟨t, ht, rfl⟩ := hx
  rintro ⟨u, hu, e⟩
  exact h t ht u hu e

/-- Settles O53: the command starts its first row, and its rows go through one after the other. -/
theorem paintOverCompletes : Obligations.PaintOverCompletes := by
  intro s f hi he hwf hlog hbacked hfault hrect hfam hdst hsrc r w dp sp hfits hapart
  simp only [dp, sp, pixelAddr_eq] at hapart ⊢
  have hrows : RowsApart s r := {
    backed := hbacked
    fits := hfits
    dst := fun y y' h0 h1 h0' h1' hne _ => not_region_of_apart ((hapart y y' h0 h1 h0' h1').1 hne)
    src := fun y y' h0 h1 h0' h1' _ => not_region_of_apart (hapart y y' h0 h1 h0' h1').2 }
  obtain ⟨-, hy⟩ := (rect_nonempty_iff r).1 hrect
  have hstart : step s = .next (s.atRow (overSel s f) r r.y0 s.px) := by
    rw [step_quiet hi, engineStep_command he decodeCmd_paintOver, exec_paintOver hfault,
      paintRows_starts hrect hfam (by simp [hdst, hsrc])]
    rfl
  have hnone : RowsLogged s r r.y0 s.px.log := by simp [RowsLogged, hlog]
  obtain ⟨m, hrun, hwf', hkeep⟩ := run_overRows f hi he hfault hrows _ rfl hwf hnone (Int.le_refl _) hy
  exact ⟨m, by rw [Nat.add_comm, run_next hstart, hrun], hwf', hkeep⟩

end Sys2Proof.Machine
end

section
/-! The statements of 44_glyph_rle.md: the tests of `PAINT_GLYPH`, what a run does in each phase, the row transitions that
read no header, and the stream of Extend headers without end. -/

namespace Sys2Proof.Machine

open Sys2Proof

/-! ## Reading a header (R213, R214) -/

@[simp] theorem State.noteRead_cfg (s : State) (a : Nat) : (s.noteRead a).cfg = s.cfg := rfl
@[simp] theorem State.noteRead_eng (s : State) (a : Nat) : (s.noteRead a).eng = s.eng := rfl
@[simp] theorem State.noteRead_byte (s : State) (a x : Nat) : (s.noteRead a).px.byte x = s.px.byte x := rfl

/-- A logged source read rules no source read out. -/
@[simp] theorem State.noteRead_clashAt_srcRead (s : State) (a x : Nat) :
    (s.noteRead a).px.clashAt .srcRead x = s.px.clashAt .srcRead x := by
  simp [State.noteRead, clashAt_cons, clash]

theorem wantsHeader_of_skip {g : Rle} (hp : g.phase = .skip) : g.wantsHeader = decide (0 < g.sx) := by
  simp only [Rle.wantsHeader, hp]

theorem wantsHeader_of_emit {g : Rle} (hp : g.phase = .emit) : g.wantsHeader = (g.pend.isNone && decide (0 < g.ww)) := by
  simp only [Rle.wantsHeader, hp]

theorem wantsHeader_of_rowEnd {g : Rle} (hp : g.phase = .rowEnd) : g.wantsHeader = false := by
  simp only [Rle.wantsHeader, hp]

/-- A readable header of a run moves the stream pointer on and hands the run it stands for to the phase. -/
theorem exec_headerRun {s : State} {w : Word} {g : Rle} {i : Instr} {run : Run} (he : s.eng = some ⟨w, .glyph g⟩)
    (hw : g.wantsHeader = true) (hb : isBacked s.cfg g.p = true) (hc : s.px.clashAt .srcRead g.p = none)
    (hr : HeaderRun i g.extend run) :
    exec i s = consumeRun (s.noteRead g.p) { g with p := addrPlus s.cfg g.p 1 } run := by
  rcases hr with ⟨f, rfl, rfl⟩ | ⟨f, eol, rfl, rfl⟩ | ⟨f, eol, rfl, rfl⟩
  · rw [exec, execRunTransparent, onHeader_eq he hw hb hc]
    rfl
  · rw [exec, execRunSolid, onHeader_eq he hw hb hc]
    rfl
  · rw [exec, execRunIntermediate, onHeader_eq he hw hb hc]
    rfl

theorem consumeRun_skip {g : Rle} (s : State) (run : Run) (hp : g.phase = .skip) :
    consumeRun s g run = .next (s.proceed (.glyph (afterSkip s { g with extend := 0 } run))) := by
  simp only [consumeRun, hp]

theorem consumeRun_emit {g : Rle} (s : State) (run : Run) (hp : g.phase = .emit) :
    consumeRun s g run = emitRun s { g with extend := 0 } run := by
  simp only [consumeRun, hp]

/-! ## A stream of Extend headers without end (R90, R231, U2) -/

/-- A step at a readable Extend header reads it and leaves the decoder in its phase, one byte on. -/
theorem step_extend {s : State} {w : Word} {g : Rle} (hi : s.inputs = []) (he : s.eng = some ⟨w, .glyph g⟩)
    (hw : g.wantsHeader = true) (hb : isBacked s.cfg g.p = true) (hc : s.px.clashAt .srcRead g.p = none)
    (htag : (s.px.byte g.p).toNat % 4 = 0) :
    step s = .next ((s.noteRead g.p).proceed (.glyph { g with
      p := addrPlus s.cfg g.p 1
      extend := chainExtend s.cfg g.extend ((s.px.byte g.p).toNat / 4) })) := by
  rw [step_quiet hi, engineStep_header he hw, decodeRun_extend htag, exec_runExtend _ he hw hb hc]

theorem State.EndlessExtend.busy {s : State} (h : s.EndlessExtend) : s.busy = true := by
  obtain ⟨-, ⟨w, g, he, -⟩, -⟩ := h
  exact busy_of_eng he

/-- The endless stream stays one when a byte of it is read and the decoder goes on to another address. -/
theorem State.EndlessExtend.readOn {s : State} (h : s.EndlessExtend) (a : Nat) {g : Rle} (hw : g.wantsHeader = true)
    (hp : g.p < 2 ^ s.cfg.addrW) : ((s.noteRead a).proceed (.glyph g)).EndlessExtend := by
  obtain ⟨hi, ⟨w, g0, he, -⟩, hbytes⟩ := h
  exact ⟨hi, ⟨w, g, by simp [he], hw, hp⟩, fun x hx => by simpa using hbytes x hx⟩

/-- In an endless stream the next byte is a readable Extend header, and the address after it is one of the stream. -/
theorem State.EndlessExtend.step_endless {s : State} (h : s.EndlessExtend) :
    ∃ a act, step s = .next ((s.noteRead a).proceed act) ∧ ((s.noteRead a).proceed act).EndlessExtend := by
  obtain ⟨hi, ⟨w, g, he, hw, hp⟩, hbytes⟩ := id h
  obtain ⟨hb, htag, hc⟩ := hbytes g.p hp
  exact ⟨_, _, step_extend hi he hw hb hc htag, h.readOn _ hw (addrPlus_lt _ _ _)⟩

/-- Any number of steps of an endless stream leave it endless and its bytes as they are. -/
theorem State.EndlessExtend.run_endless (k : Nat) {s : State} (h : s.EndlessExtend) :
    ∃ t, Host.Core.run Sys2Proof.core k s = .next t ∧ t.EndlessExtend ∧ t.px.cells = s.px.cells := by
  induction k generalizing s with
  | zero => exact ⟨s, rfl, h, rfl⟩
  | succ k ih =>
    obtain ⟨a, act, hstep, hnext⟩ := h.step_endless
    obtain ⟨t, hrun, ht, hcells⟩ := ih hnext
    exact ⟨t, (run_next hstep).trans hrun, ht, hcells⟩

/-- Settles O60: a step of the endless stream only logs a read and moves the decoder on. -/
theorem endlessExtendStaysBusy : Obligations.EndlessExtendStaysBusy := by
  refine ⟨fun s h => ?_, fun s k h => ?_⟩
  · obtain ⟨a, act, hstep, hnext⟩ := h.step_endless
    exact ⟨_, hstep, hnext, hnext.busy, rfl, rfl, rfl⟩
  · obtain ⟨t, hrun, ht, hcells⟩ := h.run_endless k
    exact ⟨t, hrun, ht, ht.busy, hcells⟩

/-! ## `PAINT_GLYPH` (R226, R227) -/

theorem glyphMode_nop_iff (c : Nat) (ca : Byte) : glyphMode c ca = .nop ↔ c ≠ 0 ∧ ca = 0 := by
  unfold glyphMode
  split_ifs with hc h255 h0
  · exact iff_of_false nofun (fun h => h.1 hc)
  · simp [h255]
  · exact iff_of_true rfl ⟨hc, h0⟩
  · exact iff_of_false nofun (fun h => h0 h.2)

theorem glyphMode_mask_iff (c : Nat) (ca : Byte) : glyphMode c ca = .mask ↔ c = 0 := by
  unfold glyphMode
  split_ifs with hc
  · exact iff_of_true rfl hc
  all_goals exact iff_of_false nofun hc

/-- The mode of a glyph that paints. -/
theorem glyphMode_of_not_nop {c : Nat} {ca : Byte} (h : glyphMode c ca ≠ .nop) :
    glyphMode c ca = if c = 0 then .mask else if ca = 255 then .solid else .alpha := by
  by_cases hc : c = 0
  · simp only [glyphMode, if_pos hc]
  · have ha : ca ≠ 0 := fun ha => h ((glyphMode_nop_iff c ca).2 ⟨hc, ha⟩)
    simp only [glyphMode, if_neg hc, if_neg ha]

theorem exec_paintGlyph_fault {s : State} {c : FaultCode} (h : glyphFault s = some c) :
    exec .paintGlyph s = .next (s.raise c) := by
  simp only [exec, execPaintGlyph, h]

/-- `PAINT_GLYPH` past its tests: no geometry, no color, no family, or the first row. -/
theorem exec_paintGlyph {s : State} (h : glyphFault s = none) : exec .paintGlyph s =
    if dim s.regs.glyph.w = 0 ∨ dim s.regs.glyph.h = 0 then .next s.finish
    else if glyphMode (glyphColors s) (glyphAlpha s) = .nop then .next s.finish
    else if glyphMode (glyphColors s) (glyphAlpha s) ≠ .mask ∧ famSel s.cfg (glyphColors s) = none then
      .next (s.raise .unsupported)
    else .next (s.proceed (.glyph (glyphStart s (glyphMode (glyphColors s) (glyphAlpha s))))) := by
  simp only [exec, execPaintGlyph, h]

/-- Settles O54: the tests of the statement are those of `glyphFault`, without bit 31 a size is its whole register, and the
mode `nop` is a color destination with color alpha 0. -/
theorem paintGlyph : Obligations.PaintGlyph := by
  intro s g n c ca bad1 bad2 empty
  have h1 : (dimBad g.w || dimBad g.h || dimBad g.skipx || dimBad g.skipy) = true ↔ bad1 := by
    simp only [Bool.or_eq_true, dimBad_eq, or_assoc, bad1]
  have h2 : (!countOk s.cfg s.regs.dst.n) = true ↔ bad2 := countBad_iff s.cfg n
  have hnone (b1 : ¬ bad1) (b2 : ¬ bad2) : glyphFault s = none := by
    simp only [glyphFault, g, h1, h2, b1, b2, if_false]
  have hempty (b1 : ¬ bad1) : dim g.w = 0 ∨ dim g.h = 0 ↔ empty := by
    simp only [bad1, not_or, Bool.not_eq_true] at b1
    obtain ⟨hw, hh, -⟩ := b1
    rw [dim_eq_toNat hw, dim_eq_toNat hh]
  have hnop : glyphMode (glyphColors s) (glyphAlpha s) = .nop ↔ c ≠ 0 ∧ ca = 0 := glyphMode_nop_iff c ca
  have hmask : glyphMode (glyphColors s) (glyphAlpha s) = .mask ↔ c = 0 := glyphMode_mask_iff c ca
  refine ⟨fun b1 => exec_paintGlyph_fault ?_, fun b1 b2 => exec_paintGlyph_fault ?_, fun b1 b2 b3 => ?_,
    fun b1 b2 b3 hc hca => ?_, fun b1 b2 b3 hc hca hf => ?_, fun b1 b2 b3 hpaint => ?_⟩
  · simp only [glyphFault, g, h1, b1, if_true]
  · simp only [glyphFault, g, h1, h2, b1, b2, if_true, if_false]
  · rw [exec_paintGlyph (hnone b1 b2), if_pos ((hempty b1).2 b3)]
  · rw [exec_paintGlyph (hnone b1 b2), if_neg (mt (hempty b1).1 b3), if_pos (hnop.2 ⟨hc, hca⟩)]
  · rw [exec_paintGlyph (hnone b1 b2), if_neg (mt (hempty b1).1 b3), if_neg (fun h => hca (hnop.1 h).2),
      if_pos ⟨mt hmask.1 hc, hf⟩]
  · have hn : glyphMode (glyphColors s) (glyphAlpha s) ≠ .nop := fun h =>
      hpaint.elim (hnop.1 h).1 (fun hp => hp.1 (hnop.1 h).2)
    have hfam : ¬ (glyphMode (glyphColors s) (glyphAlpha s) ≠ .mask ∧ famSel s.cfg (glyphColors s) = none) := fun h =>
      hpaint.elim (fun hc => h.1 (hmask.2 hc)) (fun hp => hp.2 h.2)
    refine ⟨_, by rw [exec_paintGlyph (hnone b1 b2), if_neg (mt (hempty b1).1 b3), if_neg hn, if_neg hfam], rfl, rfl, ?_⟩
    exact glyphMode_of_not_nop hn

/-! ## Runs in the skip phase (R215 to R217) -/

/-- Settles O57: the four cases are those of `afterSkip`, whose payload starts one byte after the header. -/
theorem skippedRuns : Obligations.SkippedRuns := by
  intro s w g i run he hp hsx hb hc hr pay
  have hw : g.wantsHeader = true := by rw [wantsHeader_of_skip hp, decide_eq_true hsx]
  have hpay (l : Nat) : (if run.tag = .intermediate then addrPlus s.cfg (addrPlus s.cfg g.p 1) l
      else addrPlus s.cfg g.p 1) = pay l := by
    rw [addrPlus_addrPlus]
  rw [(exec_headerRun he hw hb hc hr).trans (consumeRun_skip _ _ hp)]
  congr 3
  simp only [afterSkip, State.noteRead_cfg, hpay]
  by_cases hlt : g.sx < run.len
  · rw [if_pos hlt, if_pos hlt]
  · rw [if_neg hlt, if_neg hlt]
    by_cases heol : run.eol = true
    · simp only [heol, if_true]
    · by_cases heq : run.len = g.sx
      · simp [heol, heq]
      · have hrest : g.sx - run.len ≠ 0 := by omega
        simp [heol, heq, hrest, hp]

/-! ## Runs in the emit phase (R218 to R222, R225, R228) -/

/-- A run on ready regions is emitted, whichever kind it is of. -/
theorem emitRun_emitted {s : State} {g : Rle} {run : Run} (hn : 1 ≤ s.regs.dst.n) (h : EmitReady s g run) :
    Emitted s g run (emitRun s g run) := by
  obtain ⟨tag, len, eol⟩ := run
  cases tag with
  | transparent => exact ⟨s.px, emitTransparent, fun _ => rfl, fun _ _ => rfl⟩
  | solid =>
    obtain ⟨m, hm, -, hout, hin⟩ := emitSolid_does hn h
    exact ⟨m, hm, hin, hout⟩
  | intermediate =>
    obtain ⟨hdst, hcov⟩ := h
    obtain ⟨m, hm, -, hout, hin⟩ := emitIntermediate_does hn hdst hcov
    exact ⟨m, hm, hin, hout⟩

/-- Settles O58: the header hands its run to the emit phase. -/
theorem emittedRuns : Obligations.EmittedRuns := by
  intro s w g i run he hp hww hpend hn hb hc hr hready
  have hw : g.wantsHeader = true := by simp [wantsHeader_of_emit hp, hpend, hww]
  rw [(exec_headerRun he hw hb hc hr).trans (consumeRun_emit _ _ hp)]
  exact emitRun_emitted hn hready

/-! ## Row transitions that read no header (R229) -/

theorem step_glyphMicro {s : State} {w : Word} {g : Rle} (hi : s.inputs = []) (he : s.eng = some ⟨w, .glyph g⟩)
    (hw : g.wantsHeader = false) : step s = glyphMicro s g := by
  rw [step_quiet hi, engineStep_micro he hw]

theorem glyphMicro_skip {g : Rle} (s : State) (hp : g.phase = .skip) :
    glyphMicro s g = .next (s.proceed (.glyph { g with phase := .emit })) := by
  simp only [glyphMicro, hp]

theorem glyphMicro_noWidth {g : Rle} (s : State) (hp : g.phase = .emit) (hww : g.ww = 0) :
    glyphMicro s g = .next (s.proceed (.glyph { g with phase := .rowEnd })) := by
  cases hpend : g.pend <;> simp only [glyphMicro, hp, hpend, hww, if_true]

theorem glyphMicro_pending {g : Rle} {run : Run} (s : State) (hp : g.phase = .emit) (hww : g.ww ≠ 0)
    (hpend : g.pend = some run) : glyphMicro s g = emitRun s g run := by
  simp only [glyphMicro, hp, hpend, if_neg hww]

theorem glyphMicro_rowEnd {g : Rle} (s : State) (hp : g.phase = .rowEnd) :
    glyphMicro s g = if g.r + 1 < dim s.regs.glyph.h then
      .next (s.proceed (.glyph { g with r := g.r + 1, phase := .rowStart })) else .next s.finish := by
  simp only [glyphMicro, hp]

/-- Settles O59: in each of the cases the decoder wants no header, so the step is its row transition. -/
theorem rowTransitions : Obligations.RowTransitions := by
  intro s w g hi he
  refine ⟨fun hp hsx => ?_, fun hp hww => ?_, fun run hp hww hpend hn hready => ?_, fun hp hr => ?_, fun hp hr => ?_⟩
  · rw [step_glyphMicro hi he (by simp [wantsHeader_of_skip hp, hsx]), glyphMicro_skip s hp]
  · rw [step_glyphMicro hi he (by simp [wantsHeader_of_emit hp, hww]), glyphMicro_noWidth s hp hww]
  · rw [step_glyphMicro hi he (by simp [wantsHeader_of_emit hp, hpend]), glyphMicro_pending s hp hww.ne' hpend]
    exact emitRun_emitted hn hready
  · rw [step_glyphMicro hi he (wantsHeader_of_rowEnd hp), glyphMicro_rowEnd s hp, dim_eq_mod, if_pos hr]
  · rw [step_glyphMicro hi he (wantsHeader_of_rowEnd hp), glyphMicro_rowEnd s hp, dim_eq_mod, if_neg (not_lt.2 hr)]

end Sys2Proof.Machine
end

section
/-! The statements of 45_control.md: register writes while the block runs and to `STATUS`, the acceptance of a command,
`NOP`, and the instruction a step executes. -/

namespace Sys2Proof.Machine

open Sys2Proof

/-! ## Host writes that are not stored (R245, R246) -/

theorem hostAccess_write_ctrl (s : State) (v : Word) : hostAccess s (.write (s.cfg.regBase + 0x008) v) =
    .next (s.setRegs { s.regs with ctrl := v.extractLsb' 0 2 }) :=
  hostAccess_write_mapped s v (by decide) (by decide) (show regAt 0x008 = some .ctrl from rfl)

theorem hostAccess_write_status (s : State) (v : Word) : hostAccess s (.write (s.cfg.regBase + 0x00C) v) =
    .next (s.setStatus (statusWrite s.status v)) :=
  hostAccess_write_mapped s v (by decide) (by decide) (show regAt 0x00C = some .status from rfl)

/-- A running block drops a write to any register but `CTRL` and `STATUS` (R245). -/
theorem writeReg_busy {s : State} {r : Reg} (v : Word) (hb : s.busy = true) (hc : r ≠ .ctrl) (hs : r ≠ .status) :
    writeReg s r v = s.setStatus (statusDropped s.status) := by
  cases r with
  | ctrl => exact absurd rfl hc
  | status => exact absurd rfl hs
  | _ => exact if_pos hb

theorem regAt_of_specialOffset {off : Nat} (h : specialOffset off = true) : ∃ r, regAt off = some r := by
  simp only [specialOffset, decide_eq_true_eq, List.mem_cons, List.not_mem_nil, or_false] at h
  rcases h with rfl | rfl | rfl | rfl | rfl <;> exact ⟨_, rfl⟩

/-- The listed offsets are those that hold a register: `regAt_unlisted` in the other direction. -/
theorem regAt_listed {p : Params} {off : Nat} (h : ¬ (storedBits p off = none ∧ specialOffset off = false)) :
    ∃ r, regAt off = some r := by
  cases hb : storedBits p off with
  | some n =>
    obtain ⟨-, -, hr⟩ := regAt_of_storedBits hb
    exact hr
  | none =>
    refine regAt_of_specialOffset ?_
    by_contra hs
    exact h ⟨hb, Bool.eq_false_iff.2 hs⟩

/-- Settles O19: an offset besides those of `CTRL` and `STATUS` holds no register, or one whose write is dropped. -/
theorem writesWhileBusy : Obligations.WritesWhileBusy := by
  intro s off v he hl ha
  have hb : s.busy = true := Option.isSome_iff_ne_none.2 he
  by_cases hctrl : off = 0x008
  · rw [if_pos hctrl, hctrl]
    exact hostAccess_write_ctrl s v
  by_cases hstatus : off = 0x00C
  · rw [if_neg hctrl, if_pos hstatus, hstatus]
    exact hostAccess_write_status s v
  rw [if_neg hctrl, if_neg hstatus]
  by_cases hunlisted : storedBits s.cfg off = none ∧ specialOffset off = false
  · obtain ⟨hbits, hspecial⟩ := hunlisted
    rw [if_pos ⟨hbits, hspecial⟩]
    exact hostAccess_write_unmapped s v hl ha (regAt_unlisted ha hbits hspecial)
  · obtain ⟨r, hr⟩ := regAt_listed hunlisted
    obtain ⟨hoff, -⟩ := regAt_offset hr ha
    have hc : r ≠ .ctrl := fun e => hctrl (by rw [← hoff, e]; rfl)
    have hs : r ≠ .status := fun e => hstatus (by rw [← hoff, e]; rfl)
    rw [if_neg hunlisted, hostAccess_write_mapped s v hl ha hr, writeReg_busy v hb hc hs]
    rfl

/-- A write-1-to-clear bit: a 1 clears the flag, a 0 leaves it. -/
theorem cleared_flag (flag bit : Bool) : (flag && !bit) = if bit then false else flag := by
  cases bit <;> simp

/-- Settles O20: the write reaches `STATUS` in any state, and `statusWrite` clears flag by flag. -/
theorem statusWriteClears : Obligations.StatusWriteClears := fun s v =>
  ⟨_, hostAccess_write_status s v, rfl, cleared_flag _ _, cleared_flag _ _, rfl, cleared_flag _ _, rfl⟩

/-! ## The acceptance of a command (R241) -/

/-- Every opcode of R83 decodes. -/
theorem decodeCmd_of_mem_opcodes {w : Word} (hw : w.toNat ∈ opcodes) : ∃ i, decodeCmd w = .ok i := by
  have hall : ∀ n ∈ opcodes, (decodeOpcode n).isSome := by decide
  obtain ⟨i, hi⟩ := Option.isSome_iff_exists.1 (hall _ hw)
  exact ⟨i, (decodeCmd_ok_iff w i).2 hi⟩

/-- The engine raises `ILLEGAL_COMMAND` for an accepted word that does not decode, whichever way it fails (R82). -/
theorem engineStep_undecoded {s : State} {w : Word} {e : DecodeError} (he : s.eng = some ⟨w, .start⟩)
    (hd : decodeCmd w = .error e) : engineStep s = .next (s.raise .illegalCommand) := by
  refine engineStep_illegal he fun hw => ?_
  obtain ⟨i, hi⟩ := decodeCmd_of_mem_opcodes hw
  cases hd.symm.trans hi

/-- Settles O21: the write is `accept`, whose word the engine executes next. -/
theorem acceptedCommand : Obligations.AcceptedCommand := fun s v hidle =>
  ⟨s.accept v, hostAccess_write_cmd v (busy_of_idle hidle), rfl, rfl, rfl, rfl, rfl,
    fun _ hd => engineStep_command rfl hd, fun _ hd => engineStep_undecoded rfl hd⟩

/-! ## `NOP` (R244) -/

theorem exec_nop (s : State) : exec .nop s = .next s.finish := rfl

theorem decodeCmd_nop : decodeCmd 0 = .ok .nop := (decodeCmd_ok_iff _ _).2 rfl

/-- `NOP` issued to an idle block: acceptance clears the three fields, and the end sets `DONE`. -/
theorem finish_accept (s : State) (v : Word) (hidle : s.eng = none) : (s.accept v).finish = { s with
    px := { s.px with log := [] }
    status := ⟨true, false, s.status.werr, 0⟩ } := by
  cases s
  cases hidle
  rfl

/-- Settles O31: the first step accepts the word 0, and the second executes the `NOP` it decodes to. -/
theorem nopCommand : Obligations.NopCommand := by
  refine ⟨exec_nop, fun s rest hidle hi => ?_⟩
  have hb : (s.setInputs (.run :: rest)).busy = false := busy_of_idle hidle
  refine ⟨_, (step_host hi).trans (hostAccess_write_cmd 0 hb), ?_⟩
  calc step ((s.setInputs (.run :: rest)).accept 0)
    _ = engineStep ((s.setInputs rest).accept 0) := step_run rfl
    _ = exec .nop ((s.setInputs rest).accept 0) := engineStep_command rfl decodeCmd_nop
    _ = .next ((s.setInputs rest).accept 0).finish := exec_nop _
    _ = _ := congrArg _ (finish_accept (s.setInputs rest) 0 hidle)

/-! ## The instruction a step executes -/

/-- With nothing running the engine waits (R271). -/
theorem engineStep_idle {s : State} (he : s.eng = none) : engineStep s = .next s := by
  simp only [engineStep, State.fetch, he, engineMicro]

/-- With no event scheduled, or a `run` event next, a step is a step of the block in the state without that event. -/
theorem step_block {s u : State} (h : s.inputs = [] ∧ u = s ∨ ∃ rest, s.inputs = .run :: rest ∧ u = s.setInputs rest) :
    step s = engineStep u ∧ u.eng = s.eng ∧ u.px = s.px := by
  rcases h with ⟨hi, rfl⟩ | ⟨rest, hi, rfl⟩
  · exact ⟨step_quiet hi, rfl, rfl⟩
  · exact ⟨step_run hi, rfl, rfl⟩

/-- Settles O7: a step of the block for each place it fetches from. -/
theorem stepRunsFetchedInstruction : Obligations.StepRunsFetchedInstruction := by
  intro s u h
  obtain ⟨hstep, heng, hpx⟩ := step_block h
  rw [hstep, ← heng, ← hpx]
  exact ⟨fun _ _ he hd => engineStep_command he hd, fun _ _ _ he hd => engineStep_span he hd,
    fun _ _ he hw => engineStep_header he hw, engineStep_idle⟩

end Sys2Proof.Machine
end

section
/-! The statements of 60_exceptions.md: a fault changes nothing besides `STATUS` and the `KSEL` of a `GET_*` command, and
the level of `IRQ`. -/

namespace Sys2Proof.Machine

open Sys2Proof

/-! ## The steps that fault (R251, R252) -/

/-- What a step that raises a fault makes of a state: it stands at a command word, and the state is the one before it
with the fault raised, after a `GET_*` command that finds no family with `KSEL` at 0. -/
inductive FaultStep (s : State) : State → Prop where
  /-- A command, or a word that is none, that faults. -/
  | raised (w : Word) (c : FaultCode) : s.eng = some ⟨w, .start⟩ → FaultStep s (s.raise c)
  /-- A `GET_*` command that finds no family. -/
  | noFamily (w : Word) (i : Instr) : s.eng = some ⟨w, .start⟩ → decodeCmd w = .ok i →
      i ∈ [Instr.getSolidPainter, .getSpanPainter, .getSpanMaskPainter, .getSpanColorPainter] →
      FaultStep s ((s.setKsel 0).raise .unsupported)

/-- The end of a span, be it the next row or `done`, leaves `FAULT`. -/
theorem endSpan_fault (s : State) (q : Seq) : (endSpan s q).status.fault = s.status.fault := by
  rcases endSpan_cases s q with e | e <;> rw [e] <;> rfl

/-- A step of the block leaves `FAULT` or is one that faults. The only step that would fault later than its command word
is that of a selector that is no kernel, and a legal sequencer holds none. -/
theorem BlockStep.fault_same_or_faultStep {s t : State} (h : BlockStep s t) (hs : s.SpanInv) :
    t.status.fault = s.status.fault ∨ FaultStep s t := by
  cases h with
  | fault w c he => exact .inr (.raised w c he)
  | unsupported w i he hd hi => exact .inr (.noFamily w i he hd hi)
  | badSelector w q c he hno =>
    obtain ⟨⟨i, hi⟩, -⟩ := s.spanInv_iff.1 hs w q he
    exact absurd hi (hno i)
  | span w q i op m _ _ _ _ => exact .inl (endSpan_fault _ q)
  | idle | result | done | selected | startsSpan | startsGlyph | glyphMove | glyphEmit | glyphDone => exact .inl rfl

/-- Settles O14: `FAULT` rises, so the step is a `FaultStep`, and both kinds of those raise the fault in the state
before. -/
theorem faultsHaveNoPartialEffects : Obligations.FaultsHaveNoPartialEffects := by
  intro s t hi hs hclear h hfault
  rw [step_quiet hi] at h
  rcases (engineStep_cases h).fault_same_or_faultStep hs with hsame | hraised
  · rw [hsame, hclear] at hfault
    cases hfault
  · cases hraised with
    | raised w c he => exact ⟨rfl, rfl, rfl, rfl, w, he, .inl rfl⟩
    | noFamily w i he hd hm => exact ⟨rfl, rfl, rfl, rfl, w, he, .inr ⟨rfl, rfl, i, hd, hm⟩⟩

/-! ## The interrupt output (R262) -/

theorem State.irq_iff (s : State) : s.irq = true ↔
    (s.status.done = true ∧ s.regs.ctrl.getLsbD 0 = true) ∨
    (s.status.fault = true ∧ s.regs.ctrl.getLsbD 1 = true) := by
  simp only [State.irq, Bool.or_eq_true, Bool.and_eq_true]

/-- With neither `DONE` nor `FAULT` the level is 0, whatever is enabled. -/
theorem State.irq_eq_false_of_flags {s : State} (hd : s.status.done = false) (hf : s.status.fault = false) :
    s.irq = false := by
  simp only [State.irq, hd, hf, Bool.false_and, Bool.or_false]

/-- `CTRL` stores its two enables as they are written (R26). -/
theorem ctrlBits_getLsbD (v : Word) {i : Nat} (hi : i < 2) : (v.extractLsb' 0 2).getLsbD i = v.getLsbD i := by
  simp [hi]

/-- Writing 0x6 to `STATUS` clears `DONE` and `FAULT` (R246). -/
theorem statusWrite_acknowledge (st : Status) :
    (statusWrite st 0x6).done = false ∧ (statusWrite st 0x6).fault = false :=
  ⟨Bool.and_false _, Bool.and_false _⟩

/-- Settles O22: a `CTRL` write changes the enables alone, and the other two writes leave neither `DONE` nor `FAULT`. -/
theorem interruptLevel : Obligations.InterruptLevel := by
  intro s v
  refine ⟨⟨_, hostAccess_write_ctrl s v, ?_⟩, ⟨_, hostAccess_write_status s 0x6, ?_⟩,
    fun hidle => ⟨_, hostAccess_write_cmd v (busy_of_idle hidle), State.irq_eq_false_of_flags rfl rfl⟩⟩
  · rw [State.irq_iff, State.setRegs_status, State.setRegs_regs, ctrlBits_getLsbD v Nat.zero_lt_two,
      ctrlBits_getLsbD v Nat.one_lt_two]
  · obtain ⟨hd, hf⟩ := statusWrite_acknowledge s.status
    exact State.irq_eq_false_of_flags hd hf

end Sys2Proof.Machine
end

section
/-! The statements of 70_reset_and_hazards.md: the reset state and its invariants, and what a reset does to pixel memory. -/

namespace Sys2Proof.Machine

open Sys2Proof

/-! ## The reset input (R281) -/

/-- The block after a reset that leaves pixel memory as `m`: at its reset values but for what is not the block's (R280).
`resetBlock_goes` ties it to the model. -/
def State.afterReset (s : State) (m : Pixmem) : State :=
  { State.resetWith s.cfg with px := m, inputs := s.inputs, hostData := s.hostData }

/-- With a reset next, a step is that reset, and the host access it coincides with is lost. -/
theorem step_reset {s : State} {lost : Option HostOp} {rest : List Event} (h : s.inputs = .reset lost :: rest) :
    step s = resetBlock (s.setInputs rest) := by
  unfold step machineStep
  rw [h]
  rfl

/-- A reset goes through whenever its effect on pixel memory is defined. -/
theorem resetBlock_goes {s : State} {m : Pixmem} (h : resetPx s = .ok m) : resetBlock s = .next (s.afterReset m) := by
  unfold resetBlock
  rw [h]
  rfl

/-- A reset of an idle block leaves pixel memory (R281). -/
theorem resetPx_idle {s : State} (he : s.eng = none) : resetPx s = .ok { s.px with log := [] } := by
  unfold resetPx
  rw [busy_of_idle he]
  rfl

/-- A reset of a command that would run to its end frees the bytes that command would have written (R282, log 15). -/
theorem resetPx_running {s : State} {m : Pixmem} (he : s.eng ≠ none) (hr : runOut (commandFuel s) s = .ok m) :
    resetPx s = .ok { s.px.havoc m.written with log := [] } := by
  obtain ⟨e, he⟩ := Option.ne_none_iff_exists'.1 he
  unfold resetPx
  rw [if_pos (busy_of_eng he), hr]

/-! ## The reset state (R280) -/

theorem colorAt_zero (i : Nat) : colorAt Regs.zero i = 0 := by
  rw [colorAt, Regs.zero, Vector.getElem?_replicate]
  split <;> rfl

theorem Desc.get_zero (f : DescField) : Desc.zero.get f = 0 := by
  cases f <;> rfl

/-- What a host reads of a register after a reset: the two constants at their offsets, and 0 at every other one. -/
theorem readReg_afterReset (s : State) (m : Pixmem) (r : Reg) :
    readReg (s.afterReset m) r =
      if r.offset = 0x000 then 0x424C4E44 else if r.offset = 0x004 then configWord s.cfg else 0 := by
  cases r with
  | color i =>
    rw [if_neg (by simp only [Reg.offset]; omega), if_neg (by simp only [Reg.offset]; omega)]
    exact congrArg (BitVec.zeroExtend 32) (colorAt_zero i)
  | dst f | src f | msk f =>
    rw [if_neg (by simp only [Reg.offset]; omega), if_neg (by simp only [Reg.offset]; omega)]
    exact Desc.get_zero f
  | _ => rfl

/-- A legal `MAX_CHANNELS` fits its byte of `CONFIG` (R25). -/
theorem configWord_of_legal {p : Params} (h : p.legal = true) :
    configWord p = BitVec.ofNat 32 (p.famC1.toNat + 2 * p.famC3.toNat + 4 * p.famC4.toNat + 8 * p.famGen.toNat +
      256 * p.maxChannels) := by
  simp only [Params.legal, Bool.and_eq_true, decide_eq_true_eq] at h
  obtain ⟨-, hmax⟩ := h
  rw [configWord, Nat.mod_eq_of_lt (show p.maxChannels < 256 by omega)]

/-- A host read of any aligned offset after a reset, mapped or not (R39). -/
theorem hostAccess_read_afterReset (s : State) (m : Pixmem) {off : Nat} (hl : off < 0x1000) (ha : off % 4 = 0) :
    hostAccess (s.afterReset m) (.read (s.cfg.regBase + off)) = .next ((s.afterReset m).setHostData
      (if off = 0x000 then 0x424C4E44 else if off = 0x004 then configWord s.cfg else 0)) := by
  cases hr : regAt off with
  | some r =>
    obtain ⟨rfl, -⟩ := regAt_offset hr ha
    rw [← readReg_afterReset s m r]
    exact hostAccess_read_mapped (s.afterReset m) hl ha hr
  | none =>
    have hid : off ≠ 0x000 := by
      rintro rfl
      cases hr
    have hconfig : off ≠ 0x004 := by
      rintro rfl
      cases hr
    rw [if_neg hid, if_neg hconfig]
    exact hostAccess_read_unmapped (s.afterReset m) hl ha hr

/-- Settles O15: a step that is a reset ends in `State.afterReset`, whose flags are clear and whose registers read as
`hostAccess_read_afterReset` says. -/
theorem resetState : Obligations.ResetState := by
  intro s t lost rest hlegal hin h
  rw [step_reset hin] at h
  obtain ⟨m, -, rfl⟩ := resetBlock_next h
  refine ⟨rfl, State.irq_eq_false_of_flags rfl rfl, fun off hl ha =>
    ⟨_, hostAccess_read_afterReset (s.setInputs rest) m hl ha, ?_⟩⟩
  rw [State.setHostData_hostData, State.setInputs_cfg, configWord_of_legal hlegal]

/-! ## Pixel memory across a reset (R281, R282) -/

/-- Settles O16: an idle block frees no byte, and a running one those its command would have written, which `havoc_spec`
keeps apart from the others. -/
theorem resetAndPixelMemory : Obligations.ResetAndPixelMemory := by
  intro s lost rest hin
  rw [step_reset hin]
  refine ⟨fun hidle => ?_, fun m hrun hwf hout => ?_⟩
  · have hpx : resetPx (s.setInputs rest) = .ok { s.px with log := [] } := resetPx_idle (s := s.setInputs rest) hidle
    exact ⟨_, resetBlock_goes hpx, rfl, rfl, rfl, rfl, rfl⟩
  · have hpx : resetPx (s.setInputs rest) = .ok { s.px.havoc m.written with log := [] } :=
      resetPx_running (s := s.setInputs rest) hrun hout
    obtain ⟨-, hkeep⟩ := havoc_spec m.written s.px hwf
    exact ⟨_, resetBlock_goes hpx, rfl, rfl, rfl, rfl, hkeep⟩

/-! ## The invariants at reset (R280) -/

/-- An idle block with a clear status meets the status invariant. -/
theorem State.statusInv_of_clear {s : State} (he : s.eng = none) (hs : s.status = Status.zero) : s.StatusInv := by
  have hb := busy_of_idle he
  unfold State.StatusInv
  rw [hb, hs]
  exact ⟨fun hn => Bool.noConfusion hn, fun _ => rfl, fun _ => rfl, fun hn => Bool.noConfusion hn⟩

/-- Settles O12: memory lists no byte, the registers and the status are 0, and the block is idle. -/
theorem resetMeetsInvariants : Obligations.ResetMeetsInvariants := fun p =>
  ⟨rfl, State.statusInv_of_clear rfl rfl, Regs.zero_addrInv p, State.spanInv_of_idle rfl⟩

end Sys2Proof.Machine
end
